-- ==== Sys2Proof/Word.lean ====
section
/-! DEFINITION. The machine's two bit-vector types (spec/00_scope.md R8: every value is an unsigned 32-bit integer unless said
otherwise; spec/20_memory.md R39: memory is bytes). -/

namespace Sys2Proof

/-- A 32-bit value: an entry, an address, a register, an operand (R8, R55). -/
abbrev Word := BitVec 32

/-- One byte of physical memory (R36, R39). -/
abbrev Byte := BitVec 8

end Sys2Proof
end

