-- ==== Sys2Proof/Syntax.lean ====
section
/-! DEFINITION. Commands as the host presents them and the instructions they stand for: one constructor for each row of
spec/opcode_table.json (spec/30_encoding.md R55, R57). -/

namespace Sys2Proof

/-- What the command port carries: a command word and two operands (R15, R55). -/
structure Command where
  word : Word
  arg0 : Word
  arg1 : Word
deriving DecidableEq, Repr

/-- A decoded command with the operands it uses; operands a command ignores are no part of it (R15, R57).
`flags`, `mask` and `n` are the command word's IMM12. -/
inductive Instr where
  -- entry codec (R64 to R73)
  | entPack (flags : BitVec 12) (addr : Word)
  | entSetframe (entry addr : Word)
  | entGetframe (entry : Word)
  | entGetpfn (entry : Word)
  | entGetflags (entry : Word)
  | entAdd (mask : BitVec 12) (entry : Word)
  | entDel (mask : BitVec 12) (entry : Word)
  | entTest (mask : BitVec 12) (entry : Word)
  | entLd (addr : Word)
  | entSt (addr value : Word)
  -- frame-bitmap scanner (R79 to R88)
  | bmSetall
  | bmFreereg (base len : Word)
  | bmRsvreg (base len : Word)
  | bmTest (addr : Word)
  | bmMark (addr : Word)
  | bmFree (addr : Word)
  | bmFind
  | bmFindrun (count : Word)
  | bmAlloc
  | bmAllocrun (count : Word)
  -- page-directory walker (R93 to R101)
  | pgEnable (dir : Word)
  | vaDir (va : Word)
  | vaTbl (va : Word)
  | walk (va : Word)
  | xlate (va : Word)
  | map (phys virt : Word)
  | unmap (virt : Word)
  | pageAlloc (virt : Word)
  | pageFree (virt : Word)
  -- TLB and control registers (R104 to R106)
  | invlpg (va : Word)
  | crRd (n : BitVec 12)
  | crWr (n : BitVec 12) (value : Word)
deriving DecidableEq, Repr

end Sys2Proof
end

