-- ==== Sys2Proof/WellFormed.lean ====
section
/-! DEFINITION. Which terms of `Instr` have a legal command word: every one, but for a control-register number of 8 or more
(spec/30_encoding.md R56, R59 (d)). All other operands are full-width bit vectors, so each value of them is legal (R56). -/

namespace Sys2Proof

/-- The control-register numbers that exist (spec/10_state.md R19). -/
def crNumberOk (n : BitVec 12) : Bool := decide (n.toNat ≤ 7)

/-- Has this instruction a legal command word (R58, R59)? -/
def Instr.wf : Instr → Bool
  | .entPack _ _ => true
  | .entSetframe _ _ => true
  | .entGetframe _ => true
  | .entGetpfn _ => true
  | .entGetflags _ => true
  | .entAdd _ _ => true
  | .entDel _ _ => true
  | .entTest _ _ => true
  | .entLd _ => true
  | .entSt _ _ => true
  | .bmSetall => true
  | .bmFreereg _ _ => true
  | .bmRsvreg _ _ => true
  | .bmTest _ => true
  | .bmMark _ => true
  | .bmFree _ => true
  | .bmFind => true
  | .bmFindrun _ => true
  | .bmAlloc => true
  | .bmAllocrun _ => true
  | .pgEnable _ => true
  | .vaDir _ => true
  | .vaTbl _ => true
  | .walk _ => true
  | .xlate _ => true
  | .map _ _ => true
  | .unmap _ => true
  | .pageAlloc _ => true
  | .pageFree _ => true
  | .invlpg _ => true
  | .crRd n => crNumberOk n
  | .crWr n _ => crNumberOk n

end Sys2Proof
end

