-- ==== Sys2Proof/Decode.lean ====
section
/-! DEFINITION. The decoder, total on every command word and refusing by name, and the encoder
(spec/30_encoding.md R55 to R60). -/

namespace Sys2Proof

/-- Why a command word is illegal (R59): the block then raises fatal IllegalCommand. -/
inductive IllegalWord where
  /-- (b) `word[31:20] != 0`. -/
  | reservedBits
  /-- (a) the opcode is not in R57. -/
  | unknownOpcode (opc : BitVec 8)
  /-- (c) IMM12 is not 0 on a command that takes no immediate. -/
  | strayImmediate
  /-- (d) `CR.RD` or `CR.WR` with IMM12 of 8 or more. -/
  | noSuchRegister
deriving DecidableEq, Repr

/-- What the decoder answers for a command. -/
inductive Decoded where
  | legal (i : Instr)
  | illegal (why : IllegalWord)
deriving DecidableEq, Repr

/-- The field OPC, `word[7:0]` (R55). -/
def opcOf (w : Word) : BitVec 8 := w.extractLsb' 0 8
/-- The field IMM12, `word[19:8]` (R55). -/
def immOf (w : Word) : BitVec 12 := w.extractLsb' 8 12
/-- The field RSV, `word[31:20]` (R55). -/
def rsvOf (w : Word) : BitVec 12 := w.extractLsb' 20 12

/-- A command that takes no immediate is legal only with IMM12 = 0 (R59 (c), R60). -/
def withoutImm (imm : BitVec 12) (i : Instr) : Decoded :=
  if imm = 0#12 then .legal i else .illegal .strayImmediate

/-- A control-register command is legal only with IMM12 of 0 to 7 (R59 (d), R60). -/
def withRegister (n : BitVec 12) (i : Instr) : Decoded :=
  if crNumberOk n then .legal i else .illegal .noSuchRegister

/-- The opcode map of R57, applied to a word whose reserved bits are 0. -/
def decodeOpcode (opc : BitVec 8) (imm : BitVec 12) (arg0 arg1 : Word) : Decoded :=
  match opc.toNat with
  | 0x01 => .legal (.entPack imm arg0)
  | 0x02 => withoutImm imm (.entSetframe arg0 arg1)
  | 0x03 => withoutImm imm (.entGetframe arg0)
  | 0x04 => withoutImm imm (.entGetpfn arg0)
  | 0x05 => withoutImm imm (.entGetflags arg0)
  | 0x06 => .legal (.entAdd imm arg0)
  | 0x07 => .legal (.entDel imm arg0)
  | 0x08 => .legal (.entTest imm arg0)
  | 0x09 => withoutImm imm (.entLd arg0)
  | 0x0A => withoutImm imm (.entSt arg0 arg1)
  | 0x10 => withoutImm imm .bmSetall
  | 0x11 => withoutImm imm (.bmFreereg arg0 arg1)
  | 0x12 => withoutImm imm (.bmRsvreg arg0 arg1)
  | 0x13 => withoutImm imm (.bmTest arg0)
  | 0x14 => withoutImm imm (.bmMark arg0)
  | 0x15 => withoutImm imm (.bmFree arg0)
  | 0x16 => withoutImm imm .bmFind
  | 0x17 => withoutImm imm (.bmFindrun arg0)
  | 0x18 => withoutImm imm .bmAlloc
  | 0x19 => withoutImm imm (.bmAllocrun arg0)
  | 0x20 => withoutImm imm (.pgEnable arg0)
  | 0x21 => withoutImm imm (.vaDir arg0)
  | 0x22 => withoutImm imm (.vaTbl arg0)
  | 0x23 => withoutImm imm (.walk arg0)
  | 0x24 => withoutImm imm (.xlate arg0)
  | 0x25 => withoutImm imm (.map arg0 arg1)
  | 0x26 => withoutImm imm (.unmap arg0)
  | 0x27 => withoutImm imm (.pageAlloc arg0)
  | 0x28 => withoutImm imm (.pageFree arg0)
  | 0x30 => withoutImm imm (.invlpg arg0)
  | 0x31 => withRegister imm (.crRd imm)
  | 0x32 => withRegister imm (.crWr imm arg0)
  | _ => .illegal (.unknownOpcode opc)

/-- The decoder of R60: reserved bits first, then the opcode, then the immediate. -/
def decode (c : Command) : Decoded :=
  if rsvOf c.word = 0#12 then decodeOpcode (opcOf c.word) (immOf c.word) c.arg0 c.arg1
  else .illegal .reservedBits

/-- The word with reserved bits 0 and the given IMM12 and OPC (R55). -/
def commandWord (imm : BitVec 12) (opc : BitVec 8) : Word := (0#12 ++ imm) ++ opc

/-- The opcode of each command (R57). -/
def Instr.opc : Instr → BitVec 8
  | .entPack _ _ => 0x01#8
  | .entSetframe _ _ => 0x02#8
  | .entGetframe _ => 0x03#8
  | .entGetpfn _ => 0x04#8
  | .entGetflags _ => 0x05#8
  | .entAdd _ _ => 0x06#8
  | .entDel _ _ => 0x07#8
  | .entTest _ _ => 0x08#8
  | .entLd _ => 0x09#8
  | .entSt _ _ => 0x0A#8
  | .bmSetall => 0x10#8
  | .bmFreereg _ _ => 0x11#8
  | .bmRsvreg _ _ => 0x12#8
  | .bmTest _ => 0x13#8
  | .bmMark _ => 0x14#8
  | .bmFree _ => 0x15#8
  | .bmFind => 0x16#8
  | .bmFindrun _ => 0x17#8
  | .bmAlloc => 0x18#8
  | .bmAllocrun _ => 0x19#8
  | .pgEnable _ => 0x20#8
  | .vaDir _ => 0x21#8
  | .vaTbl _ => 0x22#8
  | .walk _ => 0x23#8
  | .xlate _ => 0x24#8
  | .map _ _ => 0x25#8
  | .unmap _ => 0x26#8
  | .pageAlloc _ => 0x27#8
  | .pageFree _ => 0x28#8
  | .invlpg _ => 0x30#8
  | .crRd _ => 0x31#8
  | .crWr _ _ => 0x32#8

/-- The IMM12 of each command: 0 where the command takes no immediate (R57). -/
def Instr.imm : Instr → BitVec 12
  | .entPack flags _ => flags
  | .entAdd mask _ => mask
  | .entDel mask _ => mask
  | .entTest mask _ => mask
  | .crRd n => n
  | .crWr n _ => n
  | .entSetframe _ _ | .entGetframe _ | .entGetpfn _ | .entGetflags _ | .entLd _ | .entSt _ _ => 0#12
  | .bmSetall | .bmFreereg _ _ | .bmRsvreg _ _ | .bmTest _ | .bmMark _ | .bmFree _ => 0#12
  | .bmFind | .bmFindrun _ | .bmAlloc | .bmAllocrun _ => 0#12
  | .pgEnable _ | .vaDir _ | .vaTbl _ | .walk _ | .xlate _ | .map _ _ | .unmap _ => 0#12
  | .pageAlloc _ | .pageFree _ | .invlpg _ => 0#12

/-- The operand `arg0`, 0 where the command ignores it (R57, R61). -/
def Instr.arg0 : Instr → Word
  | .entPack _ addr => addr
  | .entSetframe entry _ => entry
  | .entGetframe entry => entry
  | .entGetpfn entry => entry
  | .entGetflags entry => entry
  | .entAdd _ entry => entry
  | .entDel _ entry => entry
  | .entTest _ entry => entry
  | .entLd addr => addr
  | .entSt addr _ => addr
  | .bmSetall => 0#32
  | .bmFreereg base _ => base
  | .bmRsvreg base _ => base
  | .bmTest addr => addr
  | .bmMark addr => addr
  | .bmFree addr => addr
  | .bmFind => 0#32
  | .bmFindrun count => count
  | .bmAlloc => 0#32
  | .bmAllocrun count => count
  | .pgEnable dir => dir
  | .vaDir va => va
  | .vaTbl va => va
  | .walk va => va
  | .xlate va => va
  | .map phys _ => phys
  | .unmap virt => virt
  | .pageAlloc virt => virt
  | .pageFree virt => virt
  | .invlpg va => va
  | .crRd _ => 0#32
  | .crWr _ value => value

/-- The operand `arg1`, 0 where the command ignores it (R57, R61). -/
def Instr.arg1 : Instr → Word
  | .entSetframe _ addr => addr
  | .entSt _ value => value
  | .bmFreereg _ len => len
  | .bmRsvreg _ len => len
  | .map _ virt => virt
  | .entPack _ _ | .entGetframe _ | .entGetpfn _ | .entGetflags _ | .entAdd _ _ | .entDel _ _ | .entTest _ _ | .entLd _ => 0#32
  | .bmSetall | .bmTest _ | .bmMark _ | .bmFree _ | .bmFind | .bmFindrun _ | .bmAlloc | .bmAllocrun _ => 0#32
  | .pgEnable _ | .vaDir _ | .vaTbl _ | .walk _ | .xlate _ | .unmap _ | .pageAlloc _ | .pageFree _ => 0#32
  | .invlpg _ | .crRd _ | .crWr _ _ => 0#32

/-- The command word of an instruction (R55, R58); a fatal fault records it in FAULTCMD (R26; log 7). -/
def Instr.word (i : Instr) : Word := commandWord i.imm i.opc

/-- The command a host presents for an instruction (R55, R61: ignored operands are 0). -/
def encode (i : Instr) : Command := ⟨i.word, i.arg0, i.arg1⟩

/-- The command whose bits are `w`: the word is bits 31:0, arg0 bits 63:32, arg1 bits 95:64; bits from `nbits` on are 0. -/
def commandOfBits (nbits w : Nat) : Command :=
  let v := w % 2 ^ nbits
  ⟨BitVec.ofNat 32 v, BitVec.ofNat 32 (v / 2 ^ 32), BitVec.ofNat 32 (v / 2 ^ 64)⟩

/-- What the decoder reads from an instruction given as the opcode table numbers its bits; none where it refuses. -/
def decodeTableWord (nbits w : Nat) : Option Instr :=
  match decode (commandOfBits nbits w) with
  | .legal i => some i
  | .illegal _ => none

end Sys2Proof
end

