-- ==== Sys2Proof/Machine/State.lean ====
section
/-! DEFINITION. The machine's state as plain data, the reasons a step may stop, and the state after reset
(spec/10_state.md R15 to R36, spec/70_reset_and_hazards.md R121). -/

namespace Sys2Proof.Machine

/-- Physical memory: the bytes that differ from what an unlisted address reads as, by rising address (R33, R36; log 1). -/
abbrev Memory := List Host.Cell

/-- One TLB entry: a virtual page number and the PTE value the walk read for it (R28). -/
structure TlbEntry where
  vpn : BitVec 20
  pte : Word
deriving DecidableEq, Repr

/-- The TLB: its entries by rising page number (R28; log 16). -/
abbrev Tlb := List TlbEntry

/-- What the host does to the block, one action at a time (spec/20_memory.md R49; log 2, 10, 11). -/
inductive HostAction where
  /-- Present a command on the command port (R55). -/
  | command (c : Command)
  /-- Store one byte to physical memory, between two commands (R49). -/
  | storeByte (addr : Word) (b : Byte)
  /-- Reset the block, between two commands (R121). -/
  | reset
deriving DecidableEq, Repr

/-- The machine's state. -/
structure State where
  /-- `RES0`, a result register (R16). -/
  res0 : Word
  /-- `RES1`, a result register (R16). -/
  res1 : Word
  /-- CR0 `CTRL`: bit 0 is PG (R20). -/
  ctrl : Word
  /-- CR1 `PDBR`: bits 31:12 are the active directory's address (R21). -/
  pdbr : Word
  /-- CR2 `BMBASE`: bits 31:2 are the address of bitmap word 0 (R22). -/
  bmbase : Word
  /-- CR3 `NFRAMES`: the number of frames, 0 to 2^20 (R23). -/
  nframes : Word
  /-- CR4 `STATUS`: RESULT 3:0, FATAL 8, CAUSE 15:12 (R24). -/
  status : Word
  /-- CR5 `FAULTINFO` (R25). -/
  faultInfo : Word
  /-- CR6 `FAULTCMD` (R26). -/
  faultCmd : Word
  /-- The translation cache (R28). -/
  tlb : Tlb
  /-- Physical memory, with the bitmap, the directory and the page tables (R33). -/
  mem : Memory
  /-- The model's own: the host's actions still to come, oldest first (log 2). -/
  inbox : List HostAction
  /-- The model's own: how many draws have been made (log 6). -/
  draws : Nat
deriving DecidableEq, Repr

/-- Reasons to stop with a fault. There is none: the block's fatal faults are next states (spec/60_exceptions.md R109), and every
memory access succeeds (R38). An empty type, which is safe: nothing can be claimed from a fault. -/
inductive Fault : Type
deriving DecidableEq, Repr

/-- Reasons to refuse. -/
inductive Refusal where
  /-- Raised by an arm of `exec` whose instruction has no meaning yet; safe, since nothing is claimed of it. No arm raises it now. -/
  | notModelled (mnemonic : String)
deriving DecidableEq, Repr

/-- The machine right after reset (R32, R121). Memory lists nothing (log 1); the host has not acted yet (log 2). -/
def State.reset : State where
  res0 := 0#32
  res1 := 0#32
  ctrl := 0#32
  pdbr := 0#32
  bmbase := 0#32
  nframes := 0#32
  status := 0#32
  faultInfo := 0#32
  faultCmd := 0#32
  tlb := []
  mem := []
  inbox := []
  draws := 0

end Sys2Proof.Machine
end

