-- ==== Sys2Proof/Machine/Flags.lean ====
section
/-! DEFINITION. STATUS, the block's one status register: its result codes, its fault causes and the writes of its fields
(spec/10_state.md R18, R24; spec/60_exceptions.md R107 to R110). -/

namespace Sys2Proof.Machine

/-- The outcomes a command may report in STATUS.RESULT (R24, R107). -/
inductive ResultCode where
  | ok
  | outOfPhys
  | notPresent
  | alreadyMapped
  | fatal
deriving DecidableEq, Repr

/-- The causes of a fatal fault (R24, R108). -/
inductive FaultCause where
  | alignmentViolation
  | invalidOperation
  | illegalCommand
deriving DecidableEq, Repr

/-- The number of a result code (R24). -/
def resultNumber : ResultCode → BitVec 4
  | .ok => 0#4
  | .outOfPhys => 1#4
  | .notPresent => 2#4
  | .alreadyMapped => 3#4
  | .fatal => 15#4

/-- The number of a fault cause (R24, R108). -/
def causeNumber : FaultCause → BitVec 4
  | .alignmentViolation => 1#4
  | .invalidOperation => 2#4
  | .illegalCommand => 3#4

/-- STATUS.RESULT, bits 3:0 (R24). -/
def statusResult (st : Word) : BitVec 4 := st.extractLsb' 0 4
/-- STATUS.FATAL, bit 8 (R24). -/
def statusFatal (st : Word) : Bool := st.getLsbD 8
/-- STATUS.CAUSE, bits 15:12 (R24). -/
def statusCause (st : Word) : BitVec 4 := st.extractLsb' 12 4

/-- STATUS with RESULT replaced (R24). -/
def withResult (st : Word) (code : ResultCode) : Word :=
  (st &&& 0xFFFFFFF0#32) ||| (resultNumber code).zeroExtend 32

/-- STATUS with RESULT = 15, FATAL = 1 and CAUSE replaced (R109). -/
def withFatal (st : Word) (cause : FaultCause) : Word :=
  (withResult st .fatal &&& 0xFFFF0FFF#32) ||| 0x100#32 ||| ((causeNumber cause).zeroExtend 32 <<< 12)

/-- The block is halted exactly when STATUS.FATAL = 1 (R110). -/
def State.halted (s : State) : Bool := statusFatal s.status

end Sys2Proof.Machine
end

