-- ==== Sys2Proof/Machine/Memory.lean ====
section
/-! DEFINITION. Bytes and little-endian words of physical memory (spec/20_memory.md R36 to R41) on the canonical list of cells (log 1). -/

namespace Sys2Proof.Machine

/-- What a byte that the list does not name reads as: 0 (log 1; spec/70_reset_and_hazards.md R121 leaves it open). -/
def unlistedByte : Byte := 0#8

/-- The byte at an address. -/
def Memory.byteAt : Memory → Nat → Byte
  | [], _ => unlistedByte
  | c :: m, a => if c.1 = a then c.2 else Memory.byteAt m a

/-- A cell put in its place by address. -/
def Memory.insertCell : Memory → Nat → Byte → Memory
  | [], a, b => [(a, b)]
  | c :: m, a, b => if a < c.1 then (a, b) :: c :: m else c :: Memory.insertCell m a b

/-- The memory with no cell for an address. -/
def Memory.eraseCell (m : Memory) (a : Nat) : Memory := m.filter (fun c => c.1 != a)

/-- The memory after a byte is stored; a byte equal to the unlisted one is not listed. -/
def Memory.putByte (m : Memory) (a : Nat) (b : Byte) : Memory :=
  if b = unlistedByte then m.eraseCell a else (m.eraseCell a).insertCell a b

/-- The canonical form: addresses strictly rising, below 2^32, and no cell that says what an unlisted address says. -/
abbrev Memory.wf (m : Memory) : Prop :=
  m.Pairwise (fun x y => x.1 < y.1) ∧ ∀ c ∈ m, c.1 < 4294967296 ∧ c.2 ≠ unlistedByte

/-- The byte at a 32-bit physical address (R36). -/
def Memory.readByte (m : Memory) (pa : Word) : Byte := m.byteAt pa.toNat

/-- The memory after a byte store at a 32-bit physical address (R36, R38). -/
def Memory.writeByte (m : Memory) (pa : Word) (b : Byte) : Memory := m.putByte pa.toNat b

/-- `MemRead32(pa)`: byte `pa + k` holds bits `8k+7 : 8k` (R10, R39). -/
def Memory.read32 (m : Memory) (pa : Word) : Word :=
  ((m.readByte (pa + 3#32) ++ m.readByte (pa + 2#32)) ++ m.readByte (pa + 1#32)) ++ m.readByte pa

/-- `MemWrite32(pa, v)` (R10, R39). -/
def Memory.write32 (m : Memory) (pa v : Word) : Memory :=
  (((m.writeByte pa (v.extractLsb' 0 8)).writeByte (pa + 1#32) (v.extractLsb' 8 8)).writeByte (pa + 2#32)
    (v.extractLsb' 16 8)).writeByte (pa + 3#32) (v.extractLsb' 24 8)

end Sys2Proof.Machine
end

