-- ==== Sys2Proof/Machine/Params.lean ====
section
/-! DEFINITION. The fixed numbers of the spec as named constants, so that a correction changes one place
(spec/00_scope.md R5, R6, R14; spec/93_implementation_defined.md U6; log 17). -/

namespace Sys2Proof.Machine

/-- Bytes in a frame and in a page (R5). -/
abbrev pageSize : Nat := 4096
/-- Entries in a page table and in a page directory (R5). -/
abbrev tableEntries : Nat := 1024
/-- Bits in a bitmap word (R6, D8). -/
abbrev bmWordBits : Nat := 32
/-- The largest value NFRAMES may hold, 2^20 (R6, R23). -/
abbrev maxFrames : Nat := 1048576
/-- The size of the physical address space in bytes, 2^32 (R6, R36). -/
abbrev paddrSpace : Nat := 4294967296
/-- A bitmap word all of whose frames are in use (R77). -/
abbrev fullWord : Word := 0xFFFFFFFF#32

end Sys2Proof.Machine
end

