-- ==== Sys2Proof/Machine/Operands.lean ====
section
/-! DEFINITION. The fields of entries and virtual addresses, the alignment tests and the immediate's extension: the shorthand of
spec/00_scope.md R11, the entry layout of spec/20_memory.md R46, R47, the operand forms of spec/30_encoding.md R56. -/

namespace Sys2Proof.Machine

/-- Bits 31:12: the base field of an entry (R11, R46). -/
def frameMask : Word := 0xFFFFF000#32
/-- Bits 11:0: the flag field of an entry (R11, R46). -/
def flagMask : Word := 0x00000FFF#32

/-- `FRAME(e)`, the embedded address (R11, R47). -/
def frameOf (e : Word) : Word := e &&& frameMask
/-- `FLAGS(e)` (R11). -/
def flagsOf (e : Word) : Word := e &&& flagMask
/-- `PFN(e)`, the frame number (R11). -/
def pfnOf (e : Word) : Word := e >>> 12
/-- `P(e)`, the present bit, bit 0 (R11, R46). -/
def presentBit (e : Word) : Bool := e.getLsbD 0
/-- The entry with P cleared (R99, R101). -/
def clearPresent (e : Word) : Word := e &&& ~~~0x00000001#32
/-- Old flags kept, present and writable set, frame field replaced (R91, R92, D19). -/
def mapEntry (old frame : Word) : Word := (old &&& flagMask) ||| 0x00000003#32 ||| frame

/-- `dir(va)`, the directory index, bits 31:22 (R11). -/
def dirIndex (va : Word) : Word := va >>> 22
/-- `tbl(va)`, the table index, bits 21:12 (R11). -/
def tblIndex (va : Word) : Word := (va >>> 12) &&& 0x3FF#32
/-- `off(va)`, the offset in the page, bits 11:0 (R11). -/
def pageOffset (va : Word) : Word := va &&& flagMask
/-- `vpn(va)`, the virtual page number, bits 31:12 (R11). -/
def vpnOf (va : Word) : BitVec 20 := va.extractLsb' 12 20

/-- `aligned4K(a)` (R11). -/
def aligned4K (a : Word) : Bool := a.extractLsb' 0 12 == 0#12
/-- `aligned4(a)` (R11). -/
def aligned4 (a : Word) : Bool := a.extractLsb' 0 2 == 0#2

/-- `fidx(a)`, the frame index of a frame address, as a number (R11, R76). -/
def frameIndex (a : Word) : Nat := (a >>> 12).toNat
/-- The address of frame `f` (R76). -/
def frameAddr (f : Nat) : Word := BitVec.ofNat 32 (f * pageSize)

/-- `zext_32(imm)`: the immediate is zero-extended, never sign-extended (R56). -/
def zextImm (imm : BitVec 12) : Word := imm.zeroExtend 32

end Sys2Proof.Machine
end

