-- ==== Sys2Proof/Config.lean ====
section
/-! DEFINITION. What the spec leaves to the implementation (spec/00_scope.md R7, spec/93_implementation_defined.md F1 to F3, U7). Every constant
here is OPAQUE: it has no body, so no proof can learn its value and every theorem holds whatever it is. -/

namespace Sys2Proof

/-- The outcomes `TLB.maybe_fill` may draw (spec/10_state.md R30): (a) leave the TLB alone, (b) insert where there is room,
(c) drop one existing entry (the one at place `victim` of the list) and insert. -/
inductive FillChoice where
  | keep
  | insert
  | replace (victim : Nat)
deriving DecidableEq, Repr, Inhabited

/-- `TLB_ENTRIES`, the TLB's capacity; 0 is allowed (R7, R27, R28; log 5). -/
opaque Config.tlbEntries : Nat

/-- Draw number `n`: does the entry for page `vpn` vanish before the next command (R31; log 3)? Any subset may. -/
opaque Config.tlbEvicts (n : Nat) (vpn : BitVec 20) : Bool

/-- Draw number `n`: what `TLB.maybe_fill` does (R30; log 4). -/
opaque Config.tlbFill (n : Nat) : FillChoice

/-- First byte of the kernel image in physical memory: a host constant that no rule of the block reads (R7; log 14). -/
opaque Config.kernelPhysStart : Word
/-- One past the kernel image in physical memory (R7; log 14). -/
opaque Config.kernelPhysEnd : Word
/-- First virtual address of the kernel image (R7; log 14). -/
opaque Config.kernelVirtStart : Word
/-- One past the kernel image's virtual addresses (R7; log 14). -/
opaque Config.kernelVirtEnd : Word
/-- The higher-half virtual base (R7, spec/70_reset_and_hazards.md R125; log 14). -/
opaque Config.higherHalfBase : Word
/-- Where the host puts the bitmap: the value it writes to BMBASE (R7, R123; log 14). -/
opaque Config.bitmapPhys : Word

end Sys2Proof
end

