-- ==== Sys2Proof/Machine/Tlb.lean ====
section
/-! DEFINITION. The TLB's primitives: lookup, removal, flush, the fill draw and the eviction draw
(spec/00_scope.md R10, spec/10_state.md R28 to R31). -/

namespace Sys2Proof.Machine

/-- `TLB.lookup(vpn)`: the stored entry's PTE or none (R10). -/
def Tlb.lookup : Tlb → BitVec 20 → Option Word
  | [], _ => none
  | e :: t, vpn => if e.vpn = vpn then some e.pte else Tlb.lookup t vpn

/-- `TLB.remove(vpn)`: the TLB with no entry for the page (R10). -/
def Tlb.remove (t : Tlb) (vpn : BitVec 20) : Tlb := t.filter (fun e => e.vpn != vpn)

/-- An entry put in its place by page number. -/
def Tlb.insertSorted : Tlb → TlbEntry → Tlb
  | [], x => [x]
  | e :: t, x => if x.vpn < e.vpn then x :: e :: t else e :: Tlb.insertSorted t x

/-- The TLB with the entry, the only one for its page (R28). -/
def Tlb.insert (t : Tlb) (x : TlbEntry) : Tlb := Tlb.insertSorted (Tlb.remove t x.vpn) x

/-- `TLB.maybe_fill(vpn, pte)` under one choice of the draw (R30): a choice that R30 does not admit in this TLB leaves it
unchanged, which R30 always admits. -/
def Tlb.maybeFill (t : Tlb) (choice : FillChoice) (vpn : BitVec 20) (pte : Word) : Tlb :=
  match choice with
  | .keep => t
  | .insert =>
    if t.length < Config.tlbEntries ∧ Tlb.lookup t vpn = none then Tlb.insert t ⟨vpn, pte⟩ else t
  | .replace victim =>
    if Config.tlbEntries = 0 then t
    else match t[victim]? with
      | some e => Tlb.insert (Tlb.remove t e.vpn) ⟨vpn, pte⟩
      | none => t

/-- The TLB after the entries that draw `n` picks have vanished (R31). -/
def Tlb.evict (t : Tlb) (n : Nat) : Tlb := t.filter (fun e => !Config.tlbEvicts n e.vpn)

/-- A legal TLB (R28): one entry a page (page numbers rise strictly), every entry present, no more than TLB_ENTRIES entries. -/
abbrev Tlb.wf (t : Tlb) : Prop :=
  t.Pairwise (fun x y => x.vpn < y.vpn) ∧ (∀ e ∈ t, e.pte.getLsbD 0 = true) ∧ t.length ≤ Config.tlbEntries

/-- TLBCAP, CR7: `min(TLB_ENTRIES, 0xFFFFFFFF)` (R27). -/
def tlbCap : Word := BitVec.ofNat 32 (min Config.tlbEntries 0xFFFFFFFF)

end Sys2Proof.Machine
end

