-- ==== Sys2Proof/Machine/Ops.lean ====
section
/-! DEFINITION. The shared operations of the machine: result registers, the end of a command, the fatal fault and the reset that
leaves it, the halted guard, word accesses to memory, control-register reads and writes. -/

namespace Sys2Proof.Machine

/-- What a meaning and a step answer. -/
abbrev Result := Host.Outcome State Fault Refusal

/-- `RES0 <- v` (spec/00_scope.md R9, spec/10_state.md R16). -/
def State.setRes0 (s : State) (v : Word) : State := { s with res0 := v }

/-- `RES1 <- v` (R9, R16). -/
def State.setRes1 (s : State) (v : Word) : State := { s with res1 := v }

/-- `finish(code)`: write STATUS.RESULT and end the command (R9, R18, R24). -/
def State.finish (s : State) (code : ResultCode) : State := { s with status := withResult s.status code }

/-- `raise Fatal(cause, info)` by the command whose word is `word` (spec/60_exceptions.md R109): STATUS.RESULT = 15, FATAL = 1, CAUSE,
FAULTINFO and FAULTCMD are written, nothing else; the block is then halted (R110). The block has no other trap entry (R113). -/
def State.raiseFatal (s : State) (cause : FaultCause) (info word : Word) : State :=
  { s with status := withFatal s.status cause, faultInfo := info, faultCmd := word }

/-- Reset, the only way out of the halted state (R110, R114): every register at its reset value, the TLB empty, memory kept
(spec/70_reset_and_hazards.md R121). The host's actions still to come and the count of draws are not the block's registers (log 2, 6, 10). -/
def State.applyReset (s : State) : State :=
  { State.reset with mem := s.mem, inbox := s.inbox, draws := s.draws }

/-- The halted guard, first in the priority of R111: a halted block refuses the command and nothing changes (R110); otherwise
the command runs to its end in one step (R12). -/
def runUnlessHalted (s : State) (body : State → State) : Result :=
  if s.halted then .next s else .next (body s)

/-- `MemRead32(pa)` on the machine's memory (R10). -/
def State.memRead32 (s : State) (pa : Word) : Word := s.mem.read32 pa

/-- `MemWrite32(pa, v)` on the machine's memory (R10). -/
def State.memWrite32 (s : State) (pa v : Word) : State := { s with mem := s.mem.write32 pa v }

/-- `TLB.remove(vpn)` (R10, R31). -/
def State.tlbRemove (s : State) (vpn : BitVec 20) : State := { s with tlb := s.tlb.remove vpn }

/-- `TLB.flush()` (R10, R31). -/
def State.tlbFlush (s : State) : State := { s with tlb := [] }

/-- `TLB.maybe_fill(vpn, pte)`: the next draw decides (R30; log 4). -/
def State.tlbMaybeFill (s : State) (vpn : BitVec 20) (pte : Word) : State :=
  { s with tlb := s.tlb.maybeFill (Config.tlbFill s.draws) vpn pte, draws := s.draws + 1 }

/-- CTRL.PG (spec/10_state.md R20). -/
def State.paging (s : State) : Bool := s.ctrl.getLsbD 0

/-- A write of CTRL keeps bit 0 only: bits 31:1 are reserved, read 0 and ignore writes (R20). -/
def ctrlValue (v : Word) : Word := v &&& 0x00000001#32

/-- The value `CR[n]` of the one register read (R19 to R27); n is below 8 wherever a legal command names it. -/
def State.readCR (s : State) (n : Nat) : Word :=
  match n with
  | 0 => s.ctrl
  | 1 => s.pdbr
  | 2 => s.bmbase
  | 3 => s.nframes
  | 4 => s.status
  | 5 => s.faultInfo
  | 6 => s.faultCmd
  | _ => tlbCap

/-- The body of `CR.WR #n, v` (spec/44_tlb_control.md R106) for the command whose word is `word`; CR4 to CR7 ignore writes (R19). -/
def State.writeCR (s : State) (n : Nat) (v word : Word) : State :=
  match n with
  | 0 => ({ s with ctrl := ctrlValue v }.tlbFlush).finish .ok
  | 1 =>
    if aligned4K v then ({ s with pdbr := v }.tlbFlush).finish .ok
    else s.raiseFatal .alignmentViolation v word
  | 2 =>
    if aligned4 v then { s with bmbase := v }.finish .ok
    else s.raiseFatal .alignmentViolation v word
  | 3 =>
    if v.toNat > maxFrames then s.raiseFatal .invalidOperation v word
    else { s with nframes := v }.finish .ok
  | _ => s.finish .ok

end Sys2Proof.Machine
end

