-- ==== Sys2Proof/Machine/Codec.lean ====
section
/-! DEFINITION. The entry codec, ENT.* (spec/41_entry_codec.md R63 to R74). -/

namespace Sys2Proof.Machine

/-- ENT.PACK: build an entry from a frame address and a flag field (R64). -/
def execEntPack (flags : BitVec 12) (addr : Word) (s : State) : Result :=
  runUnlessHalted s fun s =>
    if aligned4K addr then (s.setRes0 (addr ||| zextImm flags)).finish .ok
    else s.raiseFatal .alignmentViolation addr (Instr.entPack flags addr).word

/-- ENT.SETFRAME: replace the address field, keep the flags (R65). -/
def execEntSetframe (entry addr : Word) (s : State) : Result :=
  runUnlessHalted s fun s =>
    if aligned4K addr then (s.setRes0 ((entry &&& flagMask) ||| addr)).finish .ok
    else s.raiseFatal .alignmentViolation addr (Instr.entSetframe entry addr).word

/-- ENT.GETFRAME: the embedded address (R66). -/
def execEntGetframe (entry : Word) (s : State) : Result :=
  runUnlessHalted s fun s => (s.setRes0 (frameOf entry)).finish .ok

/-- ENT.GETPFN: the frame number (R67). -/
def execEntGetpfn (entry : Word) (s : State) : Result :=
  runUnlessHalted s fun s => (s.setRes0 (pfnOf entry)).finish .ok

/-- ENT.GETFLAGS: the flag field (R68). -/
def execEntGetflags (entry : Word) (s : State) : Result :=
  runUnlessHalted s fun s => (s.setRes0 (flagsOf entry)).finish .ok

/-- ENT.ADD: set flag bits (R69). -/
def execEntAdd (mask : BitVec 12) (entry : Word) (s : State) : Result :=
  runUnlessHalted s fun s => (s.setRes0 (entry ||| zextImm mask)).finish .ok

/-- ENT.DEL: clear flag bits (R70). -/
def execEntDel (mask : BitVec 12) (entry : Word) (s : State) : Result :=
  runUnlessHalted s fun s => (s.setRes0 (entry &&& ~~~zextImm mask)).finish .ok

/-- ENT.TEST: 1 if every bit of the mask is set (R71). -/
def execEntTest (mask : BitVec 12) (entry : Word) (s : State) : Result :=
  runUnlessHalted s fun s =>
    (s.setRes0 (if (entry &&& zextImm mask) = zextImm mask then 1#32 else 0#32)).finish .ok

/-- ENT.LD: read one word of physical memory (R72). -/
def execEntLd (addr : Word) (s : State) : Result :=
  runUnlessHalted s fun s =>
    if aligned4 addr then (s.setRes0 (s.memRead32 addr)).finish .ok
    else s.raiseFatal .alignmentViolation addr (Instr.entLd addr).word

/-- ENT.ST: write one word of physical memory; the TLB is not touched (R73). -/
def execEntSt (addr value : Word) (s : State) : Result :=
  runUnlessHalted s fun s =>
    if aligned4 addr then (s.memWrite32 addr value).finish .ok
    else s.raiseFatal .alignmentViolation addr (Instr.entSt addr value).word

end Sys2Proof.Machine
end

