-- ==== Sys2Proof/Machine/Control.lean ====
section
/-! DEFINITION. The TLB invalidator, control-register access, and the illegal command word
(spec/44_tlb_control.md R103 to R106; spec/30_encoding.md R59; spec/60_exceptions.md R108, R110). -/

namespace Sys2Proof.Machine

/-- An illegal command word: fatal IllegalCommand with FAULTINFO = the word, or, in the halted state, refused (R59, R108, R110). -/
def execIllegal (word : Word) (s : State) : Result :=
  runUnlessHalted s fun s => s.raiseFatal .illegalCommand word word

/-- INVLPG: drop the one TLB entry that translates `va` (R104). -/
def execInvlpg (va : Word) (s : State) : Result :=
  runUnlessHalted s fun s => (s.tlbRemove (vpnOf va)).finish .ok

/-- CR.RD: read a control register, in the halted state too, where STATUS is not changed (R105, R110). A number of 8 or more is
an illegal word (R59 (d); log 9). -/
def execCrRd (n : BitVec 12) (s : State) : Result :=
  if crNumberOk n then
    let s' := s.setRes0 (s.readCR n.toNat)
    .next (if s.halted then s' else s'.finish .ok)
  else execIllegal (Instr.crRd n).word s

/-- CR.WR: write a control register (R106). A number of 8 or more is an illegal word (R59 (d); log 9). -/
def execCrWr (n : BitVec 12) (value : Word) (s : State) : Result :=
  if crNumberOk n then runUnlessHalted s fun s => s.writeCR n.toNat value (Instr.crWr n value).word
  else execIllegal (Instr.crWr n value).word s

end Sys2Proof.Machine
end

