-- ==== Sys2Proof/Machine/BitmapOps.lean ====
section
/-! DEFINITION. The frame bitmap: where a frame's bit lies, the extent check, the bit writes and the two searches
(spec/20_memory.md R43, R44; spec/42_frame_bitmap.md R76 to R78). -/

namespace Sys2Proof.Machine

/-- NFRAMES as a number (spec/10_state.md R23). -/
def State.frameCount (s : State) : Nat := s.nframes.toNat

/-- `BMWORDS = ceil(NFRAMES / 32)` (R6, R44). -/
def State.bmWords (s : State) : Nat := (s.frameCount + (bmWordBits - 1)) / bmWordBits

/-- `BMCHECK()`, in exact arithmetic: `BMBASE + 4 * BMWORDS <= 2^32` (R44). -/
def State.bmCheck (s : State) : Bool := decide (s.bmbase.toNat + 4 * s.bmWords ≤ paddrSpace)

/-- The fatal InvalidOperation of a failed `BMCHECK()` (R44, R108). -/
def State.raiseExtent (s : State) (word : Word) : State := s.raiseFatal .invalidOperation s.bmbase word

/-- The address of bitmap word `i` (R43); exact wherever BMCHECK holds and `i` is below BMWORDS (log 15). -/
def State.bmWordAddr (s : State) (i : Nat) : Word := BitVec.ofNat 32 (s.bmbase.toNat + 4 * i)

/-- `wa(f)`, the address of the word that holds frame `f`'s bit (R76). -/
def State.bitWordAddr (s : State) (f : Nat) : Word := s.bmWordAddr (f / bmWordBits)

/-- `bit(f)` (R76): true means in use. -/
def State.bit (s : State) (f : Nat) : Bool := (s.memRead32 (s.bitWordAddr f)).getLsbD (f % bmWordBits)

/-- The word with the one bit of frame `f` set (R76). -/
def bitMaskOf (f : Nat) : Word := 1#32 <<< (f % bmWordBits)

/-- `setbit(f)` (R76). -/
def State.setBit (s : State) (f : Nat) : State :=
  s.memWrite32 (s.bitWordAddr f) (s.memRead32 (s.bitWordAddr f) ||| bitMaskOf f)

/-- `clrbit(f)` (R76). -/
def State.clearBit (s : State) (f : Nat) : State :=
  s.memWrite32 (s.bitWordAddr f) (s.memRead32 (s.bitWordAddr f) &&& ~~~bitMaskOf f)

/-- `setbit` of `n` frames from `first` on, in rising order (R81, R88). -/
def State.setBits (s : State) (first : Nat) : Nat → State
  | 0 => s
  | n + 1 => (State.setBits s first n).setBit (first + n)

/-- `clrbit` of `n` frames from `first` on, in rising order (R80). -/
def State.clearBits (s : State) (first : Nat) : Nat → State
  | 0 => s
  | n + 1 => (State.clearBits s first n).clearBit (first + n)

/-- The first `n` bitmap words filled with ones, in rising order (R79). -/
def State.fillBitmap (s : State) : Nat → State
  | 0 => s
  | n + 1 => (State.fillBitmap s n).memWrite32 (s.bmWordAddr n) fullWord

/-- What the bit-by-bit scan of one word finds (R77). -/
inductive WordScan where
  /-- the first zero bit: this frame is free -/
  | free (f : Nat)
  /-- a padding bit came first: the search is over -/
  | pastEnd
  /-- no zero bit -/
  | noZero
deriving DecidableEq, Repr

/-- The bit-by-bit scan of the word `w`, number `i`, over its last `r` bits (R77). -/
def scanBits (w : Word) (nframes i : Nat) : Nat → WordScan
  | 0 => .noZero
  | r + 1 =>
    let j := bmWordBits - (r + 1)
    let f := bmWordBits * i + j
    if nframes ≤ f then .pastEnd
    else if w.getLsbD j = false then .free f
    else scanBits w nframes i r

/-- The word-by-word scan over the `r` words from number `i` on (R77). -/
def State.firstFreeFrom (s : State) : Nat → Nat → Option Nat
  | 0, _ => none
  | r + 1, i =>
    let w := s.memRead32 (s.bmWordAddr i)
    if w = fullWord then State.firstFreeFrom s r (i + 1)
    else match scanBits w s.frameCount i bmWordBits with
      | .free f => some f
      | .pastEnd => none
      | .noZero => State.firstFreeFrom s r (i + 1)

/-- `FirstFree()`, the single-frame search (R77). -/
def State.firstFree (s : State) : Option Nat := s.firstFreeFrom s.bmWords 0

/-- The run search over the `r` frames from `f` on, `run` free frames standing just before `f` (R78). -/
def State.firstRunFrom (s : State) (n : Nat) : Nat → Nat → Nat → Option Nat
  | 0, _, _ => none
  | r + 1, f, run =>
    if s.bit f = false then
      if run + 1 = n then some (f + 1 - n) else State.firstRunFrom s n r (f + 1) (run + 1)
    else State.firstRunFrom s n r (f + 1) 0

/-- `FirstRun(n)`, the multi-frame search (R78). -/
def State.firstRun (s : State) (n : Nat) : Option Nat :=
  if n = 0 then none else s.firstRunFrom n s.frameCount 0 0

/-- A bit as a 32-bit value. -/
def bitWord (b : Bool) : Word := if b then 1#32 else 0#32

/-- The end of a byte range, clipped at 2^32 (R80, R81). -/
def regionEnd (base len : Word) : Nat := min (base.toNat + len.toNat) paddrSpace

end Sys2Proof.Machine
end

