-- ==== Sys2Proof/Machine/Scanner.lean ====
section
/-! DEFINITION. The frame-bitmap scanner, BM.* (spec/42_frame_bitmap.md R79 to R88). -/

namespace Sys2Proof.Machine

/-- BM.SETALL: mark every frame used (R79). -/
def execBmSetall (s : State) : Result :=
  runUnlessHalted s fun s =>
    if s.bmCheck then (s.fillBitmap s.bmWords).finish .ok
    else s.raiseExtent Instr.bmSetall.word

/-- BM.FREEREG: mark free every frame wholly inside a region (R80). -/
def execBmFreereg (base len : Word) (s : State) : Result :=
  runUnlessHalted s fun s =>
    if s.bmCheck then
      let first := (base.toNat + (pageSize - 1)) / pageSize
      let last := min (regionEnd base len / pageSize) s.frameCount
      let count := last - first
      ((s.clearBits first count).setRes0 (BitVec.ofNat 32 count)).finish .ok
    else s.raiseExtent (Instr.bmFreereg base len).word

/-- BM.RSVREG: mark used every frame that any byte of a range touches (R81). -/
def execBmRsvreg (base len : Word) (s : State) : Result :=
  runUnlessHalted s fun s =>
    if s.bmCheck then
      if len = 0#32 then (s.setRes0 0#32).finish .ok
      else
        let first := base.toNat / pageSize
        let last := min ((regionEnd base len + (pageSize - 1)) / pageSize) s.frameCount
        let count := last - first
        ((s.setBits first count).setRes0 (BitVec.ofNat 32 count)).finish .ok
    else s.raiseExtent (Instr.bmRsvreg base len).word

/-- BM.TEST: read a frame's bit; a frame that does not exist reads as in use, with no memory access (R82). -/
def execBmTest (addr : Word) (s : State) : Result :=
  runUnlessHalted s fun s =>
    if aligned4K addr then
      if s.frameCount ≤ frameIndex addr then (s.setRes0 1#32).finish .ok
      else if s.bmCheck then (s.setRes0 (bitWord (s.bit (frameIndex addr)))).finish .ok
      else s.raiseExtent (Instr.bmTest addr).word
    else s.raiseFatal .alignmentViolation addr (Instr.bmTest addr).word

/-- BM.MARK: mark one frame used; RES0 is the bit before (R83). -/
def execBmMark (addr : Word) (s : State) : Result :=
  runUnlessHalted s fun s =>
    if aligned4K addr then
      if s.frameCount ≤ frameIndex addr then s.raiseFatal .invalidOperation addr (Instr.bmMark addr).word
      else if s.bmCheck then
        ((s.setBit (frameIndex addr)).setRes0 (bitWord (s.bit (frameIndex addr)))).finish .ok
      else s.raiseExtent (Instr.bmMark addr).word
    else s.raiseFatal .alignmentViolation addr (Instr.bmMark addr).word

/-- BM.FREE: mark one frame free; RES0 is the bit before (R84). -/
def execBmFree (addr : Word) (s : State) : Result :=
  runUnlessHalted s fun s =>
    if aligned4K addr then
      if s.frameCount ≤ frameIndex addr then s.raiseFatal .invalidOperation addr (Instr.bmFree addr).word
      else if s.bmCheck then
        ((s.clearBit (frameIndex addr)).setRes0 (bitWord (s.bit (frameIndex addr)))).finish .ok
      else s.raiseExtent (Instr.bmFree addr).word
    else s.raiseFatal .alignmentViolation addr (Instr.bmFree addr).word

/-- BM.FIND: the first free frame, not taken (R85). -/
def execBmFind (s : State) : Result :=
  runUnlessHalted s fun s =>
    if s.bmCheck then
      match s.firstFree with
      | none => (s.setRes0 0#32).finish .outOfPhys
      | some f => (s.setRes0 (frameAddr f)).finish .ok
    else s.raiseExtent Instr.bmFind.word

/-- BM.FINDRUN: the first run of free frames, not taken (R86). -/
def execBmFindrun (count : Word) (s : State) : Result :=
  runUnlessHalted s fun s =>
    if s.bmCheck then
      match s.firstRun count.toNat with
      | none => (s.setRes0 0#32).finish .outOfPhys
      | some f => (s.setRes0 (frameAddr f)).finish .ok
    else s.raiseExtent (Instr.bmFindrun count).word

/-- BM.ALLOC: find the first free frame and mark it used (R87). -/
def execBmAlloc (s : State) : Result :=
  runUnlessHalted s fun s =>
    if s.bmCheck then
      match s.firstFree with
      | none => (s.setRes0 0#32).finish .outOfPhys
      | some f => ((s.setBit f).setRes0 (frameAddr f)).finish .ok
    else s.raiseExtent Instr.bmAlloc.word

/-- BM.ALLOCRUN: find the first run of free frames and mark them all used (R88). -/
def execBmAllocrun (count : Word) (s : State) : Result :=
  runUnlessHalted s fun s =>
    if s.bmCheck then
      match s.firstRun count.toNat with
      | none => (s.setRes0 0#32).finish .outOfPhys
      | some f => ((s.setBits f count.toNat).setRes0 (frameAddr f)).finish .ok
    else s.raiseExtent (Instr.bmAllocrun count).word

end Sys2Proof.Machine
end

