-- ==== Sys2Proof/Machine/WalkOps.lean ====
section
/-! DEFINITION. The walker's shared procedures: entry addresses, `Walk`, `EnsureTable`, `SetPte`
(spec/20_memory.md R42; spec/43_page_walker.md R90 to R92). -/

namespace Sys2Proof.Machine

/-- `pde_addr(va)` (R42). -/
def State.pdeAddr (s : State) (va : Word) : Word := s.pdbr + 4#32 * dirIndex va

/-- `pte_addr(pde, va)` (R42). -/
def pteAddr (pde va : Word) : Word := frameOf pde + 4#32 * tblIndex va

/-- What `Walk` answers: how far it came, the last entry it read and that entry's address (R90). -/
inductive WalkResult where
  | absentAtPde (entry addr : Word)
  | absentAtPte (entry addr : Word)
  | present (entry addr : Word)
deriving DecidableEq, Repr

/-- `Walk(va)` reads the two levels from memory, never the TLB (R90). -/
def State.walkTables (s : State) (va : Word) : WalkResult :=
  let paPde := s.pdeAddr va
  let pde := s.memRead32 paPde
  if presentBit pde then
    let paPte := pteAddr pde va
    let pte := s.memRead32 paPte
    if presentBit pte then .present pte paPte else .absentAtPte pte paPte
  else .absentAtPde pde paPde

/-- The walk stopped at a not-present entry: NOT_PRESENT with RES0 = 0 and that entry in RES1 (R96, R97, R99, R101). -/
def State.finishNotPresent (s : State) (entry : Word) : State :=
  ((s.setRes0 0#32).setRes1 entry).finish .notPresent

/-- The first `n` words of the table at frame address `base` written with 0, in rising order (R91). -/
def State.zeroWords (s : State) (base : Word) : Nat → State
  | 0 => s
  | n + 1 => (State.zeroWords s base n).memWrite32 (base + 4#32 * BitVec.ofNat 32 n) 0#32

/-- What `EnsureTable` ends with (R91). -/
inductive TableResult where
  /-- the PDE value, present, and the state after -/
  | ready (pde : Word) (s : State)
  /-- no frame is free: nothing was written -/
  | noFrame
  /-- the extent check failed: nothing was written -/
  | badExtent
deriving DecidableEq, Repr

/-- `EnsureTable(va)` (R91). -/
def State.ensureTable (s : State) (va : Word) : TableResult :=
  let paPde := s.pdeAddr va
  let pde := s.memRead32 paPde
  if presentBit pde then .ready pde s
  else if s.bmCheck then
    match s.firstFree with
    | none => .noFrame
    | some t =>
      let pde' := mapEntry pde (frameAddr t)
      .ready pde' ((((s.setBit t).zeroWords (frameAddr t) tableEntries)).memWrite32 paPde pde')
  else .badExtent

/-- The PTE value `SetPte` writes (R92). -/
def State.newPte (s : State) (pde va frame : Word) : Word := mapEntry (s.memRead32 (pteAddr pde va)) frame

/-- `SetPte(pde, va, frame)`: write the PTE, then invalidate the page's TLB entry (R92). It answers `newPte`. -/
def State.setPte (s : State) (pde va frame : Word) : State :=
  (s.memWrite32 (pteAddr pde va) (s.newPte pde va frame)).tlbRemove (vpnOf va)

/-- The physical address of `va` under the PTE `e` (R96, R97). -/
def physAddr (e va : Word) : Word := frameOf e ||| pageOffset va

end Sys2Proof.Machine
end

