-- ==== Sys2Proof/Machine/Walker.lean ====
section
/-! DEFINITION. The page-directory walker: PG.ENABLE, VA.*, WALK, XLATE, MAP, UNMAP, PAGE.* (spec/43_page_walker.md R93 to R101). -/

namespace Sys2Proof.Machine

/-- PG.ENABLE: load the directory base, empty the TLB, turn paging on (R93). -/
def execPgEnable (dir : Word) (s : State) : Result :=
  runUnlessHalted s fun s =>
    if aligned4K dir then
      { ({ s with pdbr := dir }.tlbFlush) with ctrl := s.ctrl ||| 1#32 }.finish .ok
    else s.raiseFatal .alignmentViolation dir (Instr.pgEnable dir).word

/-- VA.DIR: the directory index (R94). -/
def execVaDir (va : Word) (s : State) : Result :=
  runUnlessHalted s fun s => (s.setRes0 (dirIndex va)).finish .ok

/-- VA.TBL: the table index (R95). -/
def execVaTbl (va : Word) (s : State) : Result :=
  runUnlessHalted s fun s => (s.setRes0 (tblIndex va)).finish .ok

/-- WALK: translate by the tables in memory, whatever CTRL.PG is and whatever the TLB holds (R96). -/
def execWalk (va : Word) (s : State) : Result :=
  runUnlessHalted s fun s =>
    match s.walkTables va with
    | .absentAtPde e _ => s.finishNotPresent e
    | .absentAtPte e _ => s.finishNotPresent e
    | .present e _ => ((s.setRes0 (physAddr e va)).setRes1 e).finish .ok

/-- XLATE: the translation a memory access gets: identity with paging off, a TLB hit, or a walk that may fill the TLB (R97). -/
def execXlate (va : Word) (s : State) : Result :=
  runUnlessHalted s fun s =>
    if s.paging then
      match s.tlb.lookup (vpnOf va) with
      | some e => ((s.setRes0 (physAddr e va)).setRes1 e).finish .ok
      | none =>
        match s.walkTables va with
        | .absentAtPde e _ => s.finishNotPresent e
        | .absentAtPte e _ => s.finishNotPresent e
        | .present e _ => (((s.tlbMaybeFill (vpnOf va) e).setRes0 (physAddr e va)).setRes1 e).finish .ok
    else ((s.setRes0 va).setRes1 0#32).finish .ok

/-- MAP: map one page, creating its table if needed (R98). -/
def execMap (phys virt : Word) (s : State) : Result :=
  runUnlessHalted s fun s =>
    if aligned4K phys then
      if aligned4K virt then
        match s.ensureTable virt with
        | .badExtent => s.raiseExtent (Instr.map phys virt).word
        | .noFrame => ((s.setRes0 0#32).setRes1 0#32).finish .outOfPhys
        | .ready pde s₁ =>
          (((s₁.setPte pde virt phys).setRes0 (s₁.newPte pde virt phys)).setRes1 pde).finish .ok
      else s.raiseFatal .alignmentViolation virt (Instr.map phys virt).word
    else s.raiseFatal .alignmentViolation phys (Instr.map phys virt).word

/-- UNMAP: remove one page's mapping, keep its frame allocated (R99). -/
def execUnmap (virt : Word) (s : State) : Result :=
  runUnlessHalted s fun s =>
    if aligned4K virt then
      match s.walkTables virt with
      | .absentAtPde e _ => s.finishNotPresent e
      | .absentAtPte e _ => s.finishNotPresent e
      | .present e pa =>
        ((((s.memWrite32 pa (clearPresent e)).tlbRemove (vpnOf virt)).setRes0 (frameOf e)).setRes1 (clearPresent e)).finish .ok
    else s.raiseFatal .alignmentViolation virt (Instr.unmap virt).word

/-- PAGE.ALLOC: take a free frame and map it (R100). The second extent check cannot fail after the first passed (R109; log 13). -/
def execPageAlloc (virt : Word) (s : State) : Result :=
  runUnlessHalted s fun s =>
    if aligned4K virt then
      match s.walkTables virt with
      | .present e _ => ((s.setRes0 0#32).setRes1 e).finish .alreadyMapped
      | _ =>
        if s.bmCheck then
          match s.firstFree with
          | none => ((s.setRes0 0#32).setRes1 0#32).finish .outOfPhys
          | some f =>
            match (s.setBit f).ensureTable virt with
            | .badExtent => (s.setBit f).raiseExtent (Instr.pageAlloc virt).word
            | .noFrame => ((((s.setBit f).clearBit f).setRes0 0#32).setRes1 0#32).finish .outOfPhys
            | .ready pde s₁ =>
              (((s₁.setPte pde virt (frameAddr f)).setRes0 (frameAddr f)).setRes1
                (s₁.newPte pde virt (frameAddr f))).finish .ok
        else s.raiseExtent (Instr.pageAlloc virt).word
    else s.raiseFatal .alignmentViolation virt (Instr.pageAlloc virt).word

/-- PAGE.FREE: unmap a page and return its frame to the bitmap (R101). -/
def execPageFree (virt : Word) (s : State) : Result :=
  runUnlessHalted s fun s =>
    if aligned4K virt then
      match s.walkTables virt with
      | .absentAtPde e _ => s.finishNotPresent e
      | .absentAtPte e _ => s.finishNotPresent e
      | .present e pa =>
        if s.frameCount ≤ frameIndex e then
          s.raiseFatal .invalidOperation (frameOf e) (Instr.pageFree virt).word
        else if s.bmCheck then
          (((((s.clearBit (frameIndex e)).memWrite32 pa (clearPresent e)).tlbRemove (vpnOf virt)).setRes0
            (frameOf e)).setRes1 (clearPresent e)).finish .ok
        else s.raiseExtent (Instr.pageFree virt).word
    else s.raiseFatal .alignmentViolation virt (Instr.pageFree virt).word

end Sys2Proof.Machine
end

