-- ==== Sys2Proof/Machine/Dispatch.lean ====
section
/-! DEFINITION. One arm per instruction (spec/30_encoding.md R57). -/

namespace Sys2Proof.Machine

/-- The meaning of each instruction. -/
def exec (i : Instr) (s : State) : Host.Outcome State Fault Refusal :=
  match i with
  -- entry codec
  | .entPack flags addr => Sys2Proof.Machine.execEntPack flags addr s
  | .entSetframe entry addr => Sys2Proof.Machine.execEntSetframe entry addr s
  | .entGetframe entry => Sys2Proof.Machine.execEntGetframe entry s
  | .entGetpfn entry => Sys2Proof.Machine.execEntGetpfn entry s
  | .entGetflags entry => Sys2Proof.Machine.execEntGetflags entry s
  | .entAdd mask entry => Sys2Proof.Machine.execEntAdd mask entry s
  | .entDel mask entry => Sys2Proof.Machine.execEntDel mask entry s
  | .entTest mask entry => Sys2Proof.Machine.execEntTest mask entry s
  | .entLd addr => Sys2Proof.Machine.execEntLd addr s
  | .entSt addr value => Sys2Proof.Machine.execEntSt addr value s
  -- frame-bitmap scanner
  | .bmSetall => Sys2Proof.Machine.execBmSetall s
  | .bmFreereg base len => Sys2Proof.Machine.execBmFreereg base len s
  | .bmRsvreg base len => Sys2Proof.Machine.execBmRsvreg base len s
  | .bmTest addr => Sys2Proof.Machine.execBmTest addr s
  | .bmMark addr => Sys2Proof.Machine.execBmMark addr s
  | .bmFree addr => Sys2Proof.Machine.execBmFree addr s
  | .bmFind => Sys2Proof.Machine.execBmFind s
  | .bmFindrun count => Sys2Proof.Machine.execBmFindrun count s
  | .bmAlloc => Sys2Proof.Machine.execBmAlloc s
  | .bmAllocrun count => Sys2Proof.Machine.execBmAllocrun count s
  -- page-directory walker
  | .pgEnable dir => Sys2Proof.Machine.execPgEnable dir s
  | .vaDir va => Sys2Proof.Machine.execVaDir va s
  | .vaTbl va => Sys2Proof.Machine.execVaTbl va s
  | .walk va => Sys2Proof.Machine.execWalk va s
  | .xlate va => Sys2Proof.Machine.execXlate va s
  | .map phys virt => Sys2Proof.Machine.execMap phys virt s
  | .unmap virt => Sys2Proof.Machine.execUnmap virt s
  | .pageAlloc virt => Sys2Proof.Machine.execPageAlloc virt s
  | .pageFree virt => Sys2Proof.Machine.execPageFree virt s
  -- TLB and control registers
  | .invlpg va => Sys2Proof.Machine.execInvlpg va s
  | .crRd n => Sys2Proof.Machine.execCrRd n s
  | .crWr n value => Sys2Proof.Machine.execCrWr n value s

end Sys2Proof.Machine
end

