-- ==== Sys2Proof/Machine/Port.lean ====
section
/-! DEFINITION. The command port and the host's other actions: what one step does with the oldest waiting action
(spec/00_scope.md R12; spec/10_state.md R31; spec/20_memory.md R49; spec/30_encoding.md R55, R60; spec/70_reset_and_hazards.md R121, R122; log 2). -/

namespace Sys2Proof.Machine

/-- A command leaves the inbox, and before it runs any subset of the TLB's entries may have vanished (R31; log 3). -/
def State.accept (s : State) (rest : List HostAction) : State :=
  { s with inbox := rest, tlb := s.tlb.evict s.draws, draws := s.draws + 1 }

/-- Decode a command and run it; an illegal word is fatal (R59, R60). -/
def runCommand (c : Command) (s : State) : Result :=
  match decode c with
  | .legal i => exec i s
  | .illegal _ => execIllegal c.word s

/-- A host store of one byte between two commands (R49). The TLB is not touched (R50). -/
def hostStoreByte (addr : Word) (b : Byte) (s : State) : State := { s with mem := s.mem.writeByte addr b }

/-- The oldest action of the host; with none waiting the block waits (R122). -/
def stepInbox (s : State) : Result :=
  match s.inbox with
  | [] => .next s
  | .command c :: rest => runCommand c (s.accept rest)
  | .storeByte addr b :: rest => .next (hostStoreByte addr b { s with inbox := rest })
  | .reset :: rest => .next (State.applyReset { s with inbox := rest })

/-- The command put before every other action that waits. -/
def State.present (s : State) (c : Command) : State := { s with inbox := .command c :: s.inbox }

end Sys2Proof.Machine
end

