-- ==== Sys2Proof/Machine/Step.lean ====
section
/-! DEFINITION. One step of the machine: one action of the host, performed whole (spec/00_scope.md R12). -/

namespace Sys2Proof.Machine

/-- One step: the oldest action of the host. -/
def step (s : State) : Host.Outcome State Fault Refusal := stepInbox s

/-- The state in which the next step takes and runs the command whose bits are `w` (log 2). -/
def State.withFetchWord (s : State) (nbits w : Nat) : State := s.present (commandOfBits nbits w)

end Sys2Proof.Machine
end

