-- ==== Sys2Proof/Safety.lean ====
section
/-! DEFINITION. What every reachable state looks like, in the terms the claims use: the legal values of the registers, the TLB and
memory (spec/10_state.md R20 to R28). -/

namespace Sys2Proof.Machine

/-- The values STATUS can hold (R24, spec/60_exceptions.md R109): RESULT 0 to 3 with FATAL and CAUSE 0, or RESULT 15 with FATAL 1
and CAUSE 1 to 3; reserved bits 0. -/
abbrev StatusLegal (st : Word) : Prop :=
  st ∈ [0x0#32, 0x1#32, 0x2#32, 0x3#32, 0x110F#32, 0x210F#32, 0x310F#32]

/-- The state is one the block can be in: reserved register bits read 0 (R20 to R24), the frame count is at most 2^20 (R23), the fault
registers are 0 until a fatal fault (R25, R26), the TLB is legal (R28) and stands by rising page number (log 16), memory is in its canonical form (log 1). -/
def State.Inv (s : State) : Prop :=
  (s.ctrl = 0#32 ∨ s.ctrl = 1#32) ∧ aligned4K s.pdbr = true ∧ aligned4 s.bmbase = true ∧ s.nframes.toNat ≤ maxFrames ∧
  StatusLegal s.status ∧ (s.halted = false → s.faultInfo = 0#32 ∧ s.faultCmd = 0#32) ∧ s.tlb.wf ∧ s.mem.wf

/-- Every byte of memory reads the same in both states. -/
def SameBytes (s t : State) : Prop := ∀ a : Word, t.mem.readByte a = s.mem.readByte a

/-- Is `a` one of the four bytes of the word at `pa`? -/
abbrev inWord (pa a : Word) : Prop := a = pa ∨ a = pa + 1#32 ∨ a = pa + 2#32 ∨ a = pa + 3#32

/-- Every byte outside the word at `pa` reads the same in both states. -/
def SameBytesOutsideWord (pa : Word) (s t : State) : Prop :=
  ∀ a : Word, ¬ inWord pa a → t.mem.readByte a = s.mem.readByte a

/-- Is `a` a byte of the bitmap, `BMBASE .. BMBASE + 4*BMWORDS - 1` (spec/42_frame_bitmap.md R76)? -/
abbrev State.inBitmap (s : State) (a : Word) : Prop :=
  s.bmbase.toNat ≤ a.toNat ∧ a.toNat < s.bmbase.toNat + 4 * ((s.nframes.toNat + 31) / 32)

/-- Frame `f` is the first free one: it exists, its bit is 0 and every lower bit is 1 (R77). -/
def State.leastFree (s : State) (f : Nat) : Prop :=
  f < s.nframes.toNat ∧ s.bit f = false ∧ ∀ g, g < f → s.bit g = true

/-- Every frame is in use (R77). -/
def State.noFree (s : State) : Prop := ∀ f, f < s.nframes.toNat → s.bit f = true

/-- The `n` frames from `f` on exist and are all free (R78). -/
def State.freeRun (s : State) (n f : Nat) : Prop :=
  f + n ≤ s.nframes.toNat ∧ ∀ g, f ≤ g → g < f + n → s.bit g = false

/-- Frame `f` is the lowest start of a run of `n` free frames (R78). -/
def State.leastRun (s : State) (n f : Nat) : Prop := s.freeRun n f ∧ ∀ g, g < f → ¬ s.freeRun n g

/-- The extent check in exact arithmetic (spec/20_memory.md R44). -/
abbrev State.bitmapFits (s : State) : Prop :=
  s.bmbase.toNat + 4 * ((s.nframes.toNat + 31) / 32) ≤ 4294967296

/-- The address of the bitmap word that holds frame `f`'s bit (R43). -/
def State.bitmapWordOf (s : State) (f : Nat) : Word := BitVec.ofNat 32 (s.bmbase.toNat + 4 * (f / 32))

/-- Memory with frame `f`'s bit set (R43, R76). -/
def State.memWithBit (s : State) (f : Nat) : Memory :=
  s.mem.write32 (s.bitmapWordOf f) (s.mem.read32 (s.bitmapWordOf f) ||| (1#32 <<< (f % 32)))

/-- Memory with frame `f`'s bit cleared (R43, R76). -/
def State.memWithoutBit (s : State) (f : Nat) : Memory :=
  s.mem.write32 (s.bitmapWordOf f) (s.mem.read32 (s.bitmapWordOf f) &&& ~~~(1#32 <<< (f % 32)))

/-- Where the PDE of `va` lies (spec/20_memory.md R42). -/
def State.pdePlace (s : State) (va : Word) : Word := s.pdbr + 4#32 * (va >>> 22)

/-- The PDE of `va` in memory (R42). -/
def State.pdeValue (s : State) (va : Word) : Word := s.mem.read32 (s.pdePlace va)

/-- Where the PTE of `va` lies in the table at frame address `table` (R42). -/
def ptePlaceIn (table va : Word) : Word := table + 4#32 * ((va >>> 12) &&& 0x3FF#32)

/-- Where the PTE of `va` lies (R42). -/
def State.ptePlace (s : State) (va : Word) : Word := ptePlaceIn (s.pdeValue va &&& 0xFFFFF000#32) va

/-- The PTE of `va` in memory (R42). -/
def State.pteValue (s : State) (va : Word) : Word := s.mem.read32 (s.ptePlace va)

/-- Both levels are present: the page is mapped (R48, R90). -/
def State.mapped (s : State) (va : Word) : Prop :=
  (s.pdeValue va).getLsbD 0 = true ∧ (s.pteValue va).getLsbD 0 = true

/-- The entry at which the walk of an unmapped page stops (R90). -/
def State.absentEntry (s : State) (va : Word) : Word :=
  if (s.pdeValue va).getLsbD 0 then s.pteValue va else s.pdeValue va

/-- An entry's flags kept, present and writable set, its frame field replaced (R91, R92). -/
def remapped (old frame : Word) : Word := (old &&& 0xFFF#32) ||| 0x3#32 ||| frame

/-- The state at the end of a command that wrote `code` to STATUS.RESULT and nothing else (R24). -/
def State.ended (s : State) (code : Word) : State := { s with status := (s.status &&& 0xFFFFFFF0#32) ||| code }

/-- The state after a fatal fault: RESULT 15, FATAL 1, CAUSE, FAULTINFO and FAULTCMD, and nothing else (spec/60_exceptions.md R109). -/
def State.fatallyEnded (s : State) (cause info word : Word) : State :=
  { s with
    status := (s.status &&& 0xFFFF0EF0#32) ||| 0x10F#32 ||| (cause <<< 12)
    faultInfo := info
    faultCmd := word }

/-- The command ends, not in a fatal fault, with `v` in RES0. -/
def State.gives (s : State) (i : Instr) (v : Word) : Prop := ∃ t, exec i s = .next t ∧ t.halted = false ∧ t.res0 = v

/-- A safe step: the block answers a next state that is not halted. -/
def State.stepsSafely (s : State) : Prop := ∃ t, step s = .next t ∧ t.halted = false

end Sys2Proof.Machine
end

