-- ==== Sys2Proof/Certificates/Slice0/Obligations.lean ====
section
/-! DEFINITION. The statements for the provers, in the order of spec/: encoding, the step, reset and invariant, entry codec, bitmap scanner,
walker, TLB and control registers, faults. States are spelled out as record updates, so an equation for `exec` says what changes and
that nothing else does. -/

open Sys2Proof Sys2Proof.Machine

/-! ### Encoding -/

/-- Decoding what the encoder writes for a legal instruction gives the instruction back, every operand at every value (R55, R58, R60). -/
def Obligations.DecodeEncodeRoundTrip : Prop :=
  ∀ i : Instr, i.wf = true → decode (encode i) = .legal i

/-- A legal command decodes to a well-formed instruction whose own word is the command's word (so FAULTCMD is the word presented) and
whose operands are the command's: `arg0` and `arg1` as R57's columns say which opcode uses them; an operand the command ignores is no part of
the instruction and encodes as 0 (R15, R57, R58, R60; that it is dropped is the model's, log 8). -/
def Obligations.DecodedInstructionKeepsWordAndOperands : Prop :=
  ∀ (c : Command) (i : Instr), decode c = .legal i →
    let opc := c.word.extractLsb' 0 8
    i.wf = true ∧ i.word = c.word ∧
    (opc ∉ [0x10#8, 0x16#8, 0x18#8, 0x31#8] → i.arg0 = c.arg0) ∧ (opc ∈ [0x10#8, 0x16#8, 0x18#8, 0x31#8] → i.arg0 = 0#32) ∧
    (opc ∈ [0x02#8, 0x0A#8, 0x11#8, 0x12#8, 0x25#8] → i.arg1 = c.arg1) ∧
    (opc ∉ [0x02#8, 0x0A#8, 0x11#8, 0x12#8, 0x25#8] → i.arg1 = 0#32)

/-- R59: exactly the four kinds of illegal word raise fatal IllegalCommand with FAULTINFO = word and no other effect; every other word
runs the instruction it decodes to. -/
def Obligations.IllegalWordsAreFatalAndNoOthers : Prop :=
  ∀ (c : Command) (s : State), s.halted = false →
    let opc := c.word.extractLsb' 0 8
    let imm := c.word.extractLsb' 8 12
    let illegal : Prop :=
      opc ∉ ([0x01#8, 0x02#8, 0x03#8, 0x04#8, 0x05#8, 0x06#8, 0x07#8, 0x08#8, 0x09#8, 0x0A#8] ++
        [0x10#8, 0x11#8, 0x12#8, 0x13#8, 0x14#8, 0x15#8, 0x16#8, 0x17#8, 0x18#8, 0x19#8] ++
        [0x20#8, 0x21#8, 0x22#8, 0x23#8, 0x24#8, 0x25#8, 0x26#8, 0x27#8, 0x28#8] ++ [0x30#8, 0x31#8, 0x32#8]) ∨
      c.word.extractLsb' 20 12 ≠ 0#12 ∨
      (imm ≠ 0#12 ∧ opc ∉ [0x01#8, 0x06#8, 0x07#8, 0x08#8, 0x31#8, 0x32#8]) ∨
      (opc ∈ [0x31#8, 0x32#8] ∧ 8 ≤ imm.toNat)
    (illegal → runCommand c s = .next (s.fatallyEnded 3#32 c.word c.word)) ∧
    (¬ illegal → ∃ i, decode c = .legal i ∧ runCommand c s = exec i s)

/-- Seven words written out from R55 and R57 (R61's three examples and four more) decode to the commands they stand for, and one word of
each of R59's four illegal kinds is refused by name. -/
def Obligations.SpecWordsDecodeAsWritten : Prop :=
  decode ⟨0x00000301#32, 0x00400000#32, 0#32⟩ = .legal (.entPack 0x003#12 0x00400000#32) ∧
  decode ⟨0x00000025#32, 0#32, 0xC0000000#32⟩ = .legal (.map 0#32 0xC0000000#32) ∧
  decode ⟨0x00000132#32, 0x00066000#32, 0#32⟩ = .legal (.crWr 1#12 0x00066000#32) ∧
  decode ⟨0x00000011#32, 0x800#32, 0x2000#32⟩ = .legal (.bmFreereg 0x800#32 0x2000#32) ∧
  decode ⟨0x00000731#32, 0#32, 0#32⟩ = .legal (.crRd 7#12) ∧
  decode ⟨0x0000000A#32, 0x1004#32, 0xFFFFFFFF#32⟩ = .legal (.entSt 0x1004#32 0xFFFFFFFF#32) ∧
  decode ⟨0x00080108#32, 0x00400003#32, 0#32⟩ = .legal (.entTest 0x801#12 0x00400003#32) ∧
  decode ⟨0x00000000#32, 0#32, 0#32⟩ = .illegal (.unknownOpcode 0#8) ∧
  decode ⟨0x00000103#32, 0#32, 0#32⟩ = .illegal .strayImmediate ∧
  decode ⟨0x00100001#32, 0#32, 0#32⟩ = .illegal .reservedBits ∧
  decode ⟨0x00000831#32, 0#32, 0#32⟩ = .illegal .noSuchRegister

/-! ### The step -/

/-- A step takes the waiting command, lets the entries the eviction draw picks vanish (R31; the draw's form is the model's, log 3), and runs
the decoded instruction, or ends in the fatal fault of an illegal word; with nothing waiting the block waits (R122; the inbox is the
model's form of the command port, log 2). -/
def Obligations.StepRunsTheDecodedCommandOrWaits : Prop :=
  ∀ s : State,
    (s.inbox = [] → step s = .next s) ∧
    ∀ (c : Command) (rest : List HostAction), s.inbox = .command c :: rest →
      let s' := { s with
        inbox := rest
        tlb := s.tlb.filter (fun e => !Config.tlbEvicts s.draws e.vpn)
        draws := s.draws + 1 }
      (∀ i, decode c = .legal i → step s = exec i s') ∧
      (∀ why, decode c = .illegal why → step s = execIllegal c.word s')

/-- A byte the host stores between two commands changes that byte of memory and, but for the action taken, nothing else, the TLB
among them (R49, R50; log 11). -/
def Obligations.HostStoreChangesOneByteOnly : Prop :=
  ∀ (s : State) (addr : Word) (b : Byte) (rest : List HostAction), s.inbox = .storeByte addr b :: rest →
    ∃ t, step s = .next t ∧ t = { s with inbox := rest, mem := t.mem } ∧ t.mem.readByte addr = b ∧
      ∀ a, a ≠ addr → t.mem.readByte a = s.mem.readByte a

/-- R121: reset sets every register to its reset value, empties the TLB, leaves the halted state and does not touch memory. -/
def Obligations.ResetClearsRegistersAndKeepsMemory : Prop :=
  ∀ (s : State) (rest : List HostAction), s.inbox = .reset :: rest →
    ∃ t, step s = .next t ∧ t.res0 = 0#32 ∧ t.res1 = 0#32 ∧ t.ctrl = 0#32 ∧ t.pdbr = 0#32 ∧ t.bmbase = 0#32 ∧
      t.nframes = 0#32 ∧ t.status = 0#32 ∧ t.faultInfo = 0#32 ∧ t.faultCmd = 0#32 ∧ t.tlb = [] ∧
      t.halted = false ∧ t.mem = s.mem

/-- R32: the reset values of the block's registers, TLBCAP among them; the TLB is empty; the block is not halted. -/
def Obligations.ResetStateHoldsTheResetValues : Prop :=
  State.reset.res0 = 0#32 ∧ State.reset.res1 = 0#32 ∧ State.reset.ctrl = 0#32 ∧ State.reset.pdbr = 0#32 ∧
  State.reset.bmbase = 0#32 ∧ State.reset.nframes = 0#32 ∧ State.reset.status = 0#32 ∧
  State.reset.faultInfo = 0#32 ∧ State.reset.faultCmd = 0#32 ∧ State.reset.tlb = [] ∧ State.reset.halted = false ∧
  State.reset.readCR 7 = BitVec.ofNat 32 (min Config.tlbEntries 0xFFFFFFFF)

/-! ### The invariant -/

/-- Every step keeps the legal states: reserved register bits 0, STATUS one of its seven values, the fault registers 0 until a
fault, the TLB legal, memory canonical (R20 to R28). Two parts of it are the model's own: that the TLB's entries stand by rising page
number (log 16; R28 asks only for one entry a page) and that the list of bytes is canonical (log 1). -/
def Obligations.StepKeepsEveryStateLegal : Prop :=
  ∀ s t : State, s.Inv → step s = .next t → t.Inv

/-- The reset state is legal (R28, R32; the canonical forms of the TLB and of memory are the model's own, log 16 and 1). -/
def Obligations.ResetStateIsLegal : Prop := State.reset.Inv

/-! ### Memory -/

/-- R39: the word at `pa` is its four bytes, the lowest address the lowest byte, and byte `pa + k` holds bits `8k+7 : 8k`. -/
def Obligations.WordsAreLittleEndian : Prop :=
  ∀ (m : Memory) (pa : Word),
    m.read32 pa = (m.readByte pa).zeroExtend 32 ||| ((m.readByte (pa + 1#32)).zeroExtend 32 <<< 8) |||
      ((m.readByte (pa + 2#32)).zeroExtend 32 <<< 16) ||| ((m.readByte (pa + 3#32)).zeroExtend 32 <<< 24) ∧
    m.readByte pa = (m.read32 pa).extractLsb' 0 8 ∧ m.readByte (pa + 1#32) = (m.read32 pa).extractLsb' 8 8 ∧
    m.readByte (pa + 2#32) = (m.read32 pa).extractLsb' 16 8 ∧ m.readByte (pa + 3#32) = (m.read32 pa).extractLsb' 24 8

/-- Entry addresses, in exact arithmetic: R42, which derives from R5 and D5 that no entry address passes 2^32. That the model computes the
sums in 32 bits is log 15. -/
def Obligations.EntryAddressesNeverWrap : Prop :=
  ∀ (s : State) (pde va : Word), s.pdbr.extractLsb' 0 12 = 0#12 →
    (s.pdeAddr va).toNat = s.pdbr.toNat + 4 * (va.toNat / 4194304) ∧
    (pteAddr pde va).toNat = (pde.toNat / 4096) * 4096 + 4 * ((va.toNat / 4096) % 1024)

/-- Frame `f`'s bit is bit `f mod 8` of the byte at `BMBASE + floor(f / 8)` (R43 with R39). -/
def Obligations.FrameBitLiesInItsByte : Prop :=
  ∀ (s : State) (f : Nat),
    s.bit f = (s.mem.readByte (BitVec.ofNat 32 (s.bmbase.toNat + f / 8))).getLsbD (f % 8)

/-! ### Entry codec -/

/-- R64. -/
def Obligations.EntPackBuildsAnEntry : Prop :=
  ∀ (flags : BitVec 12) (addr : Word) (s : State), s.halted = false →
    (addr.extractLsb' 0 12 = 0#12 →
      exec (.entPack flags addr) s = .next ({ s with res0 := addr ||| flags.zeroExtend 32 }.ended 0#32)) ∧
    (addr.extractLsb' 0 12 ≠ 0#12 →
      exec (.entPack flags addr) s = .next (s.fatallyEnded 1#32 addr (0x1#32 ||| (flags.zeroExtend 32 <<< 8))))

/-- R65. -/
def Obligations.EntSetframeReplacesTheAddress : Prop :=
  ∀ (entry addr : Word) (s : State), s.halted = false →
    (addr.extractLsb' 0 12 = 0#12 →
      exec (.entSetframe entry addr) s = .next ({ s with res0 := (entry &&& 0xFFF#32) ||| addr }.ended 0#32)) ∧
    (addr.extractLsb' 0 12 ≠ 0#12 →
      exec (.entSetframe entry addr) s = .next (s.fatallyEnded 1#32 addr 0x2#32))

/-- R66, R67, R68: the fields of an entry, with the commands' words and operands. -/
def Obligations.EntGetCommandsReadTheFields : Prop :=
  ∀ (entry : Word) (s : State), s.halted = false →
    exec (.entGetframe entry) s = .next ({ s with res0 := entry &&& 0xFFFFF000#32 }.ended 0#32) ∧
    exec (.entGetpfn entry) s = .next ({ s with res0 := entry >>> 12 }.ended 0#32) ∧
    exec (.entGetflags entry) s = .next ({ s with res0 := entry &&& 0xFFF#32 }.ended 0#32) ∧
    encode (.entGetframe entry) = ⟨0x3#32, entry, 0#32⟩ ∧ encode (.entGetpfn entry) = ⟨0x4#32, entry, 0#32⟩ ∧
    encode (.entGetflags entry) = ⟨0x5#32, entry, 0#32⟩

/-- R69, R70, R71: flag bits set, cleared and tested, with the commands' words and operands. -/
def Obligations.EntMaskCommandsWorkOnTheFlags : Prop :=
  ∀ (mask : BitVec 12) (entry : Word) (s : State), s.halted = false →
    exec (.entAdd mask entry) s = .next ({ s with res0 := entry ||| mask.zeroExtend 32 }.ended 0#32) ∧
    exec (.entDel mask entry) s = .next ({ s with res0 := entry &&& ~~~(mask.zeroExtend 32) }.ended 0#32) ∧
    exec (.entTest mask entry) s =
      .next ({ s with res0 := if entry &&& mask.zeroExtend 32 = mask.zeroExtend 32 then 1#32 else 0#32 }.ended 0#32) ∧
    encode (.entAdd mask entry) = ⟨0x6#32 ||| (mask.zeroExtend 32 <<< 8), entry, 0#32⟩ ∧
    encode (.entDel mask entry) = ⟨0x7#32 ||| (mask.zeroExtend 32 <<< 8), entry, 0#32⟩ ∧
    encode (.entTest mask entry) = ⟨0x8#32 ||| (mask.zeroExtend 32 <<< 8), entry, 0#32⟩

/-- R72. -/
def Obligations.EntLdReadsOneWord : Prop :=
  ∀ (addr : Word) (s : State), s.halted = false →
    (addr.extractLsb' 0 2 = 0#2 → exec (.entLd addr) s = .next ({ s with res0 := s.mem.read32 addr }.ended 0#32)) ∧
    (addr.extractLsb' 0 2 ≠ 0#2 → exec (.entLd addr) s = .next (s.fatallyEnded 1#32 addr 0x9#32))

/-- R73, with its frame: only the four bytes at `addr` and STATUS.RESULT change. -/
def Obligations.EntStWritesOneWord : Prop :=
  ∀ (addr value : Word) (s : State), s.halted = false →
    (addr.extractLsb' 0 2 = 0#2 → ∃ t, exec (.entSt addr value) s = .next t ∧
      t = { s with mem := t.mem }.ended 0#32 ∧ t.mem.read32 addr = value ∧ SameBytesOutsideWord addr s t) ∧
    (addr.extractLsb' 0 2 ≠ 0#2 → exec (.entSt addr value) s = .next (s.fatallyEnded 1#32 addr 0xA#32))

/-- The codec's laws (R75, which derives them from R64 to R71), all of them, as laws of the commands: `s.gives i v` says that command `i` leaves `v` in RES0. -/
def Obligations.CodecLawsHold : Prop :=
  ∀ (m : BitVec 12) (a e x y : Word) (s : State), s.halted = false → a.extractLsb' 0 12 = 0#12 →
    (s.gives (.entPack m a) x → s.gives (.entGetframe x) a ∧ s.gives (.entGetflags x) (m.zeroExtend 32) ∧ s.gives (.entGetpfn x) (a >>> 12)) ∧
    (s.gives (.entAdd m 0#32) x → s.gives (.entPack m a) y → s.gives (.entSetframe x a) y) ∧
    (s.gives (.entSetframe e a) x → s.gives (.entGetflags e) y → s.gives (.entGetflags x) y) ∧
    (s.gives (.entSetframe e a) x → s.gives (.entGetframe x) a) ∧
    (s.gives (.entAdd m e) x → s.gives (.entGetframe e) y → s.gives (.entGetframe x) y) ∧
    (s.gives (.entDel m e) x → s.gives (.entGetframe e) y → s.gives (.entGetframe x) y) ∧
    (s.gives (.entAdd m e) x → s.gives (.entTest m x) 1#32) ∧
    (s.gives (.entDel m e) x → s.gives (.entTest m x) (if m = 0#12 then 1#32 else 0#32)) ∧
    (s.gives (.entDel m e) x → s.gives (.entAdd m e) y → s.gives (.entAdd m x) y) ∧
    (s.gives (.entAdd m e) x → s.gives (.entDel m e) y → s.gives (.entDel m x) y) ∧
    (s.gives (.entGetframe e) x → s.gives (.entGetflags e) y → x ||| y = e)

/-! ### Frame-bitmap scanner -/

/-- R79: the bitmap words become all ones, padding bits too, and no byte outside the bitmap changes. -/
def Obligations.BmSetallMarksEveryFrame : Prop :=
  ∀ s : State, s.halted = false →
    (s.bitmapFits → ∃ t, exec .bmSetall s = .next t ∧ t = { s with mem := t.mem }.ended 0#32 ∧
      (∀ i, i < (s.nframes.toNat + 31) / 32 → t.mem.read32 (BitVec.ofNat 32 (s.bmbase.toNat + 4 * i)) = 0xFFFFFFFF#32) ∧
      ∀ a, ¬ s.inBitmap a → t.mem.readByte a = s.mem.readByte a) ∧
    (¬ s.bitmapFits → exec .bmSetall s = .next (s.fatallyEnded 2#32 s.bmbase 0x10#32))

/-- R80: exactly the bits of the frames wholly inside the region are cleared; RES0 counts them. -/
def Obligations.BmFreeregFreesWholeFrames : Prop :=
  ∀ (base len : Word) (s : State), s.halted = false →
    let first := (base.toNat + 4095) / 4096
    let last := min (min (base.toNat + len.toNat) 4294967296 / 4096) s.nframes.toNat
    (s.bitmapFits → ∃ t, exec (.bmFreereg base len) s = .next t ∧
      t = { s with res0 := BitVec.ofNat 32 (last - first), mem := t.mem }.ended 0#32 ∧
      (∀ f, f < 32 * ((s.nframes.toNat + 31) / 32) → t.bit f = if first ≤ f ∧ f < last then false else s.bit f) ∧
      ∀ a, ¬ s.inBitmap a → t.mem.readByte a = s.mem.readByte a) ∧
    (¬ s.bitmapFits → exec (.bmFreereg base len) s = .next (s.fatallyEnded 2#32 s.bmbase 0x11#32))

/-- R81: exactly the bits of the frames that a byte of the range touches are set; RES0 counts them. -/
def Obligations.BmRsvregReservesTouchedFrames : Prop :=
  ∀ (base len : Word) (s : State), s.halted = false →
    let first := base.toNat / 4096
    let last := min ((min (base.toNat + len.toNat) 4294967296 + 4095) / 4096) s.nframes.toNat
    (s.bitmapFits → len = 0#32 → exec (.bmRsvreg base len) s = .next ({ s with res0 := 0#32 }.ended 0#32)) ∧
    (s.bitmapFits → len ≠ 0#32 → ∃ t, exec (.bmRsvreg base len) s = .next t ∧
      t = { s with res0 := BitVec.ofNat 32 (last - first), mem := t.mem }.ended 0#32 ∧
      (∀ f, f < 32 * ((s.nframes.toNat + 31) / 32) → t.bit f = if first ≤ f ∧ f < last then true else s.bit f) ∧
      ∀ a, ¬ s.inBitmap a → t.mem.readByte a = s.mem.readByte a) ∧
    (¬ s.bitmapFits → exec (.bmRsvreg base len) s = .next (s.fatallyEnded 2#32 s.bmbase 0x12#32))

/-- R82, in the order of its checks. -/
def Obligations.BmTestReadsTheFramesBit : Prop :=
  ∀ (addr : Word) (s : State), s.halted = false →
    let f := (addr >>> 12).toNat
    (addr.extractLsb' 0 12 ≠ 0#12 → exec (.bmTest addr) s = .next (s.fatallyEnded 1#32 addr 0x13#32)) ∧
    (addr.extractLsb' 0 12 = 0#12 → s.nframes.toNat ≤ f → exec (.bmTest addr) s = .next ({ s with res0 := 1#32 }.ended 0#32)) ∧
    (addr.extractLsb' 0 12 = 0#12 → f < s.nframes.toNat → ¬ s.bitmapFits →
      exec (.bmTest addr) s = .next (s.fatallyEnded 2#32 s.bmbase 0x13#32)) ∧
    (addr.extractLsb' 0 12 = 0#12 → f < s.nframes.toNat → s.bitmapFits →
      exec (.bmTest addr) s = .next ({ s with res0 := if s.bit f then 1#32 else 0#32 }.ended 0#32))

/-- R83, in the order of its checks: the frame's bit is set, every other bit of the bitmap and every other byte stays. -/
def Obligations.BmMarkSetsOneBit : Prop :=
  ∀ (addr : Word) (s : State), s.halted = false →
    let f := (addr >>> 12).toNat
    (addr.extractLsb' 0 12 ≠ 0#12 → exec (.bmMark addr) s = .next (s.fatallyEnded 1#32 addr 0x14#32)) ∧
    (addr.extractLsb' 0 12 = 0#12 → s.nframes.toNat ≤ f → exec (.bmMark addr) s = .next (s.fatallyEnded 2#32 addr 0x14#32)) ∧
    (addr.extractLsb' 0 12 = 0#12 → f < s.nframes.toNat → ¬ s.bitmapFits →
      exec (.bmMark addr) s = .next (s.fatallyEnded 2#32 s.bmbase 0x14#32)) ∧
    (addr.extractLsb' 0 12 = 0#12 → f < s.nframes.toNat → s.bitmapFits → ∃ t, exec (.bmMark addr) s = .next t ∧
      t = { s with res0 := if s.bit f then 1#32 else 0#32, mem := t.mem }.ended 0#32 ∧
      (∀ g, g < 32 * ((s.nframes.toNat + 31) / 32) → t.bit g = if g = f then true else s.bit g) ∧
      SameBytesOutsideWord (s.bitmapWordOf f) s t)

/-- R84, in the order of its checks: the frame's bit is cleared, every other bit of the bitmap and every other byte stays. -/
def Obligations.BmFreeClearsOneBit : Prop :=
  ∀ (addr : Word) (s : State), s.halted = false →
    let f := (addr >>> 12).toNat
    (addr.extractLsb' 0 12 ≠ 0#12 → exec (.bmFree addr) s = .next (s.fatallyEnded 1#32 addr 0x15#32)) ∧
    (addr.extractLsb' 0 12 = 0#12 → s.nframes.toNat ≤ f → exec (.bmFree addr) s = .next (s.fatallyEnded 2#32 addr 0x15#32)) ∧
    (addr.extractLsb' 0 12 = 0#12 → f < s.nframes.toNat → ¬ s.bitmapFits →
      exec (.bmFree addr) s = .next (s.fatallyEnded 2#32 s.bmbase 0x15#32)) ∧
    (addr.extractLsb' 0 12 = 0#12 → f < s.nframes.toNat → s.bitmapFits → ∃ t, exec (.bmFree addr) s = .next t ∧
      t = { s with res0 := if s.bit f then 1#32 else 0#32, mem := t.mem }.ended 0#32 ∧
      (∀ g, g < 32 * ((s.nframes.toNat + 31) / 32) → t.bit g = if g = f then false else s.bit g) ∧
      SameBytesOutsideWord (s.bitmapWordOf f) s t)

/-- R85 with R77: the least free frame, or OUT_OF_PHYS; nothing but RES0 and STATUS.RESULT changes. -/
def Obligations.BmFindAnswersTheLeastFreeFrame : Prop :=
  ∀ s : State, s.halted = false →
    (∀ f, s.bitmapFits → s.leastFree f →
      exec .bmFind s = .next ({ s with res0 := BitVec.ofNat 32 (f * 4096) }.ended 0#32)) ∧
    (s.bitmapFits → s.noFree → exec .bmFind s = .next ({ s with res0 := 0#32 }.ended 1#32)) ∧
    (¬ s.bitmapFits → exec .bmFind s = .next (s.fatallyEnded 2#32 s.bmbase 0x16#32))

/-- R86 with R78: the lowest run of `count` free frames, or OUT_OF_PHYS (for a count of 0 always). -/
def Obligations.BmFindrunAnswersTheLowestRun : Prop :=
  ∀ (count : Word) (s : State), s.halted = false →
    (∀ f, s.bitmapFits → count ≠ 0#32 → s.leastRun count.toNat f →
      exec (.bmFindrun count) s = .next ({ s with res0 := BitVec.ofNat 32 (f * 4096) }.ended 0#32)) ∧
    (s.bitmapFits → (count = 0#32 ∨ ∀ f, ¬ s.freeRun count.toNat f) →
      exec (.bmFindrun count) s = .next ({ s with res0 := 0#32 }.ended 1#32)) ∧
    (¬ s.bitmapFits → exec (.bmFindrun count) s = .next (s.fatallyEnded 2#32 s.bmbase 0x17#32))

/-- R87 with R77: the least free frame is taken, only its bit changes; a full bitmap changes nothing. -/
def Obligations.BmAllocTakesTheLeastFreeFrame : Prop :=
  ∀ s : State, s.halted = false →
    (∀ f, s.bitmapFits → s.leastFree f → ∃ t, exec .bmAlloc s = .next t ∧
      t = { s with res0 := BitVec.ofNat 32 (f * 4096), mem := t.mem }.ended 0#32 ∧
      (∀ g, g < 32 * ((s.nframes.toNat + 31) / 32) → t.bit g = if g = f then true else s.bit g) ∧
      SameBytesOutsideWord (s.bitmapWordOf f) s t) ∧
    (s.bitmapFits → s.noFree → exec .bmAlloc s = .next ({ s with res0 := 0#32 }.ended 1#32)) ∧
    (¬ s.bitmapFits → exec .bmAlloc s = .next (s.fatallyEnded 2#32 s.bmbase 0x18#32))

/-- R88 with R78: the lowest run is taken, only its bits change; a failed search changes nothing. -/
def Obligations.BmAllocrunTakesTheLowestRun : Prop :=
  ∀ (count : Word) (s : State), s.halted = false →
    (∀ f, s.bitmapFits → count ≠ 0#32 → s.leastRun count.toNat f → ∃ t, exec (.bmAllocrun count) s = .next t ∧
      t = { s with res0 := BitVec.ofNat 32 (f * 4096), mem := t.mem }.ended 0#32 ∧
      (∀ g, g < 32 * ((s.nframes.toNat + 31) / 32) →
        t.bit g = if f ≤ g ∧ g < f + count.toNat then true else s.bit g) ∧
      ∀ a, ¬ s.inBitmap a → t.mem.readByte a = s.mem.readByte a) ∧
    (s.bitmapFits → (count = 0#32 ∨ ∀ f, ¬ s.freeRun count.toNat f) →
      exec (.bmAllocrun count) s = .next ({ s with res0 := 0#32 }.ended 1#32)) ∧
    (¬ s.bitmapFits → exec (.bmAllocrun count) s = .next (s.fatallyEnded 2#32 s.bmbase 0x19#32))

/-- R89 (a), the frame bit discipline: what BM.ALLOC returns was free, is in use afterwards, and is free again after BM.FREE of it. -/
def Obligations.AllocatedFrameIsUsedUntilFreed : Prop :=
  ∀ s t : State, s.Inv → s.halted = false → exec .bmAlloc s = .next t → statusResult t.status = 0#4 →
    s.bit (t.res0 >>> 12).toNat = false ∧ t.bit (t.res0 >>> 12).toNat = true ∧
    ∃ u, exec (.bmFree t.res0) t = .next u ∧ statusResult u.status = 0#4 ∧ u.res0 = 1#32 ∧
      u.bit (t.res0 >>> 12).toNat = false

/-- R89 (b), first fit: two BM.ALLOC in a row return strictly ascending addresses. -/
def Obligations.SuccessiveAllocationsAscend : Prop :=
  ∀ s t u : State, s.Inv → s.halted = false → exec .bmAlloc s = .next t → statusResult t.status = 0#4 →
    exec .bmAlloc t = .next u → statusResult u.status = 0#4 → t.res0.toNat < u.res0.toNat

/-- R76: every BM.* command leaves RES1, the TLB and CR0 to CR3 alone and writes no byte outside the bitmap. What it may change besides RES0 and
the bitmap is its outcome: STATUS.RESULT, OK or OUT_OF_PHYS, with the rest of STATUS and the fault registers kept (R24, R107); or the record of
a fatal fault, AlignmentViolation or InvalidOperation, and nothing else (R108, R109; that FAULTCMD is the instruction's own word rests on
log 7); a halted block changes nothing (R110). -/
def Obligations.ScannerWritesOnlyTheBitmapRes0AndItsOutcome : Prop :=
  ∀ (i : Instr) (s t : State), i.opc.extractLsb' 4 4 = 1#4 → exec i s = .next t →
    ((s.halted = false ∧ ∃ code : Word, (code = 0#32 ∨ code = 1#32) ∧
        t = { s with res0 := t.res0, mem := t.mem }.ended code) ∨
     (s.halted = false ∧ ∃ cause info : Word, (cause = 1#32 ∨ cause = 2#32) ∧ t = s.fatallyEnded cause info i.word) ∨
     (s.halted = true ∧ t = s)) ∧
    ∀ a, ¬ s.inBitmap a → t.mem.readByte a = s.mem.readByte a

/-! ### Page-directory walker -/

/-- R93. -/
def Obligations.PgEnableLoadsTheDirectory : Prop :=
  ∀ (dir : Word) (s : State), s.halted = false →
    (dir.extractLsb' 0 12 = 0#12 →
      exec (.pgEnable dir) s = .next ({ s with pdbr := dir, ctrl := s.ctrl ||| 1#32, tlb := [] }.ended 0#32)) ∧
    (dir.extractLsb' 0 12 ≠ 0#12 → exec (.pgEnable dir) s = .next (s.fatallyEnded 1#32 dir 0x20#32))

/-- R94, R95, with the commands' words and operands. -/
def Obligations.VaCommandsSplitTheAddress : Prop :=
  ∀ (va : Word) (s : State), s.halted = false →
    exec (.vaDir va) s = .next ({ s with res0 := va >>> 22 }.ended 0#32) ∧
    exec (.vaTbl va) s = .next ({ s with res0 := (va >>> 12) &&& 0x3FF#32 }.ended 0#32) ∧
    encode (.vaDir va) = ⟨0x21#32, va, 0#32⟩ ∧ encode (.vaTbl va) = ⟨0x22#32, va, 0#32⟩

/-- R96 with R90: WALK reads memory only, whatever CTRL.PG and the TLB hold. -/
def Obligations.WalkReadsTheTables : Prop :=
  ∀ (va : Word) (s : State), s.halted = false →
    (s.mapped va → exec (.walk va) s =
      .next ({ s with
        res0 := (s.pteValue va &&& 0xFFFFF000#32) ||| (va &&& 0xFFF#32)
        res1 := s.pteValue va }.ended 0#32)) ∧
    (¬ s.mapped va → exec (.walk va) s = .next ({ s with res0 := 0#32, res1 := s.absentEntry va }.ended 2#32)) ∧
    encode (.walk va) = ⟨0x23#32, va, 0#32⟩

/-- R97, the cases that change no TLB entry: paging off, a hit (memory is not read), a walk that stops. -/
def Obligations.XlateWithoutFill : Prop :=
  ∀ (va : Word) (s : State), s.halted = false →
    (s.ctrl.getLsbD 0 = false → exec (.xlate va) s = .next ({ s with res0 := va, res1 := 0#32 }.ended 0#32)) ∧
    (∀ e, s.ctrl.getLsbD 0 = true → s.tlb.lookup (va.extractLsb' 12 20) = some e →
      exec (.xlate va) s =
        .next ({ s with res0 := (e &&& 0xFFFFF000#32) ||| (va &&& 0xFFF#32), res1 := e }.ended 0#32)) ∧
    (s.ctrl.getLsbD 0 = true → s.tlb.lookup (va.extractLsb' 12 20) = none → ¬ s.mapped va →
      exec (.xlate va) s = .next ({ s with res0 := 0#32, res1 := s.absentEntry va }.ended 2#32))

/-- R97 with R30, a miss on a mapped page: the walk's translation, and the TLB after one of the three admitted outcomes of the fill
draw (that a draw is counted is the model's own, log 4, 6). -/
def Obligations.XlateMissFillsAsAdmitted : Prop :=
  ∀ (va : Word) (s : State), s.halted = false → s.ctrl.getLsbD 0 = true →
    s.tlb.lookup (va.extractLsb' 12 20) = none → s.mapped va →
    ∃ t, exec (.xlate va) s = .next t ∧
      t = { s with
        res0 := (s.pteValue va &&& 0xFFFFF000#32) ||| (va &&& 0xFFF#32)
        res1 := s.pteValue va
        tlb := t.tlb
        draws := t.draws }.ended 0#32 ∧
      (t.tlb = s.tlb ∨
       (s.tlb.length < Config.tlbEntries ∧
         ∀ x, x ∈ t.tlb ↔ x ∈ s.tlb ∨ x = ⟨va.extractLsb' 12 20, s.pteValue va⟩) ∨
       (0 < Config.tlbEntries ∧ ∃ e ∈ s.tlb,
         ∀ x, x ∈ t.tlb ↔ (x ∈ s.tlb ∧ x.vpn ≠ e.vpn) ∨ x = ⟨va.extractLsb' 12 20, s.pteValue va⟩))

/-- R98 where the table exists: the PTE is written over, flags but P and W kept, and the page's TLB entry is gone. -/
def Obligations.MapWritesThePteOfAnExistingTable : Prop :=
  ∀ (phys virt : Word) (s : State), s.halted = false → phys.extractLsb' 0 12 = 0#12 → virt.extractLsb' 0 12 = 0#12 →
    (s.pdeValue virt).getLsbD 0 = true →
    ∃ t, exec (.map phys virt) s = .next t ∧
      t = { s with
        res0 := remapped (s.pteValue virt) phys
        res1 := s.pdeValue virt
        mem := t.mem
        tlb := s.tlb.filter (fun e => e.vpn != virt.extractLsb' 12 20) }.ended 0#32 ∧
      t.mem.read32 (s.ptePlace virt) = remapped (s.pteValue virt) phys ∧
      SameBytesOutsideWord (s.ptePlace virt) s t

/-- R98 with R91 where the table must be created in the least free frame `f`: the frame's bit is set, the table is zeroed, the PDE names it
present and writable with its other flags kept, the PTE is written; every byte of memory is accounted for. -/
def Obligations.MapCreatesTheTable : Prop :=
  ∀ (phys virt : Word) (s : State) (f : Nat), s.Inv → s.halted = false →
    phys.extractLsb' 0 12 = 0#12 → virt.extractLsb' 0 12 = 0#12 →
    (s.pdeValue virt).getLsbD 0 = false → s.bitmapFits → s.leastFree f →
    let table := BitVec.ofNat 32 (f * 4096)
    let pde := remapped (s.pdeValue virt) table
    let pt := ptePlaceIn table virt
    let pte := remapped (if pt = s.pdePlace virt then pde else 0#32) phys
    ∃ t, exec (.map phys virt) s = .next t ∧
      t = { s with
        res0 := pte
        res1 := pde
        mem := t.mem
        tlb := s.tlb.filter (fun e => e.vpn != virt.extractLsb' 12 20) }.ended 0#32 ∧
      t.mem.read32 pt = pte ∧
      (pt ≠ s.pdePlace virt → t.mem.read32 (s.pdePlace virt) = pde) ∧
      (∀ a, ¬ inWord pt a → ¬ inWord (s.pdePlace virt) a → a &&& 0xFFFFF000#32 = table → t.mem.readByte a = 0#8) ∧
      (∀ a, ¬ inWord (s.pdePlace virt) a → a &&& 0xFFFFF000#32 ≠ table →
        t.mem.readByte a = (s.memWithBit f).readByte a)

/-- R98, the ways MAP ends without mapping, in the order of R111: misaligned `phys`, misaligned `virt`, a bitmap past 2^32 or no free
frame when a table must be created; none of them writes memory. -/
def Obligations.MapFailsWithoutWriting : Prop :=
  ∀ (phys virt : Word) (s : State), s.halted = false →
    (phys.extractLsb' 0 12 ≠ 0#12 → exec (.map phys virt) s = .next (s.fatallyEnded 1#32 phys 0x25#32)) ∧
    (phys.extractLsb' 0 12 = 0#12 → virt.extractLsb' 0 12 ≠ 0#12 →
      exec (.map phys virt) s = .next (s.fatallyEnded 1#32 virt 0x25#32)) ∧
    (phys.extractLsb' 0 12 = 0#12 → virt.extractLsb' 0 12 = 0#12 → (s.pdeValue virt).getLsbD 0 = false →
      ¬ s.bitmapFits → exec (.map phys virt) s = .next (s.fatallyEnded 2#32 s.bmbase 0x25#32)) ∧
    (phys.extractLsb' 0 12 = 0#12 → virt.extractLsb' 0 12 = 0#12 → (s.pdeValue virt).getLsbD 0 = false →
      s.bitmapFits → s.noFree → exec (.map phys virt) s = .next ({ s with res0 := 0#32, res1 := 0#32 }.ended 1#32))

/-- R99: UNMAP clears P of the PTE and keeps the rest, in the order of its checks. -/
def Obligations.UnmapClearsPresent : Prop :=
  ∀ (virt : Word) (s : State), s.halted = false →
    (virt.extractLsb' 0 12 ≠ 0#12 → exec (.unmap virt) s = .next (s.fatallyEnded 1#32 virt 0x26#32)) ∧
    (virt.extractLsb' 0 12 = 0#12 → ¬ s.mapped virt →
      exec (.unmap virt) s = .next ({ s with res0 := 0#32, res1 := s.absentEntry virt }.ended 2#32)) ∧
    (virt.extractLsb' 0 12 = 0#12 → s.mapped virt → ∃ t, exec (.unmap virt) s = .next t ∧
      t = { s with
        res0 := s.pteValue virt &&& 0xFFFFF000#32
        res1 := s.pteValue virt &&& 0xFFFFFFFE#32
        mem := t.mem
        tlb := s.tlb.filter (fun e => e.vpn != virt.extractLsb' 12 20) }.ended 0#32 ∧
      t.mem.read32 (s.ptePlace virt) = s.pteValue virt &&& 0xFFFFFFFE#32 ∧
      SameBytesOutsideWord (s.ptePlace virt) s t)

/-- R100, the ways PAGE.ALLOC ends without mapping, in the order of R111; the last is the roll-back where no frame is left for the
table: every byte of memory then reads as before, wherever the bitmap lies. The PDE is read after the frame's bit is set, so it is that of
memory with the bit set. -/
def Obligations.PageAllocFailsWithoutWriting : Prop :=
  ∀ (virt : Word) (s : State), s.halted = false →
    (virt.extractLsb' 0 12 ≠ 0#12 → exec (.pageAlloc virt) s = .next (s.fatallyEnded 1#32 virt 0x27#32)) ∧
    (virt.extractLsb' 0 12 = 0#12 → s.mapped virt →
      exec (.pageAlloc virt) s = .next ({ s with res0 := 0#32, res1 := s.pteValue virt }.ended 3#32)) ∧
    (virt.extractLsb' 0 12 = 0#12 → ¬ s.mapped virt → ¬ s.bitmapFits →
      exec (.pageAlloc virt) s = .next (s.fatallyEnded 2#32 s.bmbase 0x27#32)) ∧
    (virt.extractLsb' 0 12 = 0#12 → ¬ s.mapped virt → s.bitmapFits → s.noFree →
      exec (.pageAlloc virt) s = .next ({ s with res0 := 0#32, res1 := 0#32 }.ended 1#32)) ∧
    (∀ f, s.Inv → virt.extractLsb' 0 12 = 0#12 → ({ s with mem := s.memWithBit f }.pdeValue virt).getLsbD 0 = false →
      s.bitmapFits → s.leastFree f → (∀ g, g < s.nframes.toNat → g ≠ f → s.bit g = true) →
      ∃ t, exec (.pageAlloc virt) s = .next t ∧
        t = { s with res0 := 0#32, res1 := 0#32, mem := t.mem }.ended 1#32 ∧ SameBytes s t)

/-- R100 where the table exists: the least free frame is taken and mapped. The pseudocode sets the frame's bit first and reads the PDE and the
PTE after that, so both are those of memory with the bit set (`marked`), wherever the bitmap lies; where it lies apart from the page's
entries, that changes neither of them (the last clause). -/
def Obligations.PageAllocMapsTheLeastFreeFrame : Prop :=
  ∀ (virt : Word) (s : State) (f : Nat), s.Inv → s.halted = false → virt.extractLsb' 0 12 = 0#12 →
    ¬ s.mapped virt → s.bitmapFits → s.leastFree f →
    let marked : State := { s with mem := s.memWithBit f }
    let frame := BitVec.ofNat 32 (f * 4096)
    (marked.pdeValue virt).getLsbD 0 = true →
    (∃ t, exec (.pageAlloc virt) s = .next t ∧
      t = { s with
        res0 := frame
        res1 := remapped (marked.pteValue virt) frame
        mem := t.mem
        tlb := s.tlb.filter (fun e => e.vpn != virt.extractLsb' 12 20) }.ended 0#32 ∧
      t.mem.read32 (marked.ptePlace virt) = remapped (marked.pteValue virt) frame ∧
      ∀ a, ¬ inWord (marked.ptePlace virt) a → t.mem.readByte a = marked.mem.readByte a) ∧
    (s.bitmapWordOf f ≠ s.pdePlace virt → s.bitmapWordOf f ≠ s.ptePlace virt →
      marked.pdeValue virt = s.pdeValue virt ∧ marked.ptePlace virt = s.ptePlace virt ∧ marked.pteValue virt = s.pteValue virt)

/-- R100 with R91 where the table must be created: the least free frame `f` becomes the page, the next free frame `g` the table. As in
PageAllocMapsTheLeastFreeFrame the PDE is that of memory with `f`'s bit set (`marked`), wherever the bitmap lies. It is also the PDE before
the command (the last clause): a bitmap word that lies over the PDE has bit 0 set once its least free frame is marked, so that PDE is present. -/
def Obligations.PageAllocCreatesTheTable : Prop :=
  ∀ (virt : Word) (s : State) (f g : Nat), s.Inv → s.halted = false → virt.extractLsb' 0 12 = 0#12 →
    s.bitmapFits → s.leastFree f → f < g → g < s.nframes.toNat → s.bit g = false → (∀ h, f < h → h < g → s.bit h = true) →
    let marked : State := { s with mem := s.memWithBit f }
    let frame := BitVec.ofNat 32 (f * 4096)
    let table := BitVec.ofNat 32 (g * 4096)
    let pde := remapped (marked.pdeValue virt) table
    let pt := ptePlaceIn table virt
    let pte := remapped (if pt = s.pdePlace virt then pde else 0#32) frame
    (marked.pdeValue virt).getLsbD 0 = false →
    (∃ t, exec (.pageAlloc virt) s = .next t ∧
      t = { s with
        res0 := frame
        res1 := pte
        mem := t.mem
        tlb := s.tlb.filter (fun e => e.vpn != virt.extractLsb' 12 20) }.ended 0#32 ∧
      t.mem.read32 pt = pte ∧
      (pt ≠ s.pdePlace virt → t.mem.read32 (s.pdePlace virt) = pde) ∧
      (∀ a, ¬ inWord pt a → ¬ inWord (s.pdePlace virt) a → a &&& 0xFFFFF000#32 = table → t.mem.readByte a = 0#8) ∧
      (∀ a, ¬ inWord (s.pdePlace virt) a → a &&& 0xFFFFF000#32 ≠ table →
        t.mem.readByte a = (marked.memWithBit g).readByte a)) ∧
    marked.pdeValue virt = s.pdeValue virt

/-- R101, in the order of its checks: the frame's bit is cleared, then P of the PTE. -/
def Obligations.PageFreeUnmapsAndFrees : Prop :=
  ∀ (virt : Word) (s : State), s.halted = false →
    let f := (s.pteValue virt >>> 12).toNat
    (virt.extractLsb' 0 12 ≠ 0#12 → exec (.pageFree virt) s = .next (s.fatallyEnded 1#32 virt 0x28#32)) ∧
    (virt.extractLsb' 0 12 = 0#12 → ¬ s.mapped virt →
      exec (.pageFree virt) s = .next ({ s with res0 := 0#32, res1 := s.absentEntry virt }.ended 2#32)) ∧
    (virt.extractLsb' 0 12 = 0#12 → s.mapped virt → s.nframes.toNat ≤ f →
      exec (.pageFree virt) s = .next (s.fatallyEnded 2#32 (s.pteValue virt &&& 0xFFFFF000#32) 0x28#32)) ∧
    (virt.extractLsb' 0 12 = 0#12 → s.mapped virt → f < s.nframes.toNat → ¬ s.bitmapFits →
      exec (.pageFree virt) s = .next (s.fatallyEnded 2#32 s.bmbase 0x28#32)) ∧
    (virt.extractLsb' 0 12 = 0#12 → s.mapped virt → f < s.nframes.toNat → s.bitmapFits →
      ∃ t, exec (.pageFree virt) s = .next t ∧
        t = { s with
          res0 := s.pteValue virt &&& 0xFFFFF000#32
          res1 := s.pteValue virt &&& 0xFFFFFFFE#32
          mem := t.mem
          tlb := s.tlb.filter (fun e => e.vpn != virt.extractLsb' 12 20) }.ended 0#32 ∧
        t.mem.read32 (s.ptePlace virt) = s.pteValue virt &&& 0xFFFFFFFE#32 ∧
        ∀ a, ¬ inWord (s.ptePlace virt) a → t.mem.readByte a = (s.memWithoutBit f).readByte a)

/-- The translation round trip (R102 (a)): after MAP p, v ends OK, WALK and, with paging on, XLATE of any address of v's page give p with the
offset. Premises: the directory's frame is marked in use where it has a bit (R102's own), and the directory does not serve as the
page table (without this the PTE write could change the PDE; log 19). -/
def Obligations.MapThenTranslateGivesTheFrame : Prop :=
  ∀ (phys virt va : Word) (s t : State), s.Inv → s.halted = false →
    ((s.pdbr >>> 12).toNat < s.nframes.toNat → s.bit (s.pdbr >>> 12).toNat = true) →
    ((s.pdeValue virt).getLsbD 0 = true → s.pdeValue virt &&& 0xFFFFF000#32 ≠ s.pdbr) →
    exec (.map phys virt) s = .next t → statusResult t.status = 0#4 →
    va &&& 0xFFFFF000#32 = virt →
    (∃ u, exec (.walk va) t = .next u ∧ statusResult u.status = 0#4 ∧ u.res0 = phys ||| (va &&& 0xFFF#32)) ∧
    (t.ctrl.getLsbD 0 = true →
      ∃ u, exec (.xlate va) t = .next u ∧ statusResult u.status = 0#4 ∧ u.res0 = phys ||| (va &&& 0xFFF#32))

/-- The page round trip (R102 (b)): after PAGE.ALLOC v ends OK, PAGE.FREE v ends OK and gives the frame back, and PAGE.ALLOC v ends OK again
with the same frame. Premises: the directory's frame is marked in use where it has a bit (R102's own); the page's table, where there is
one, is not the directory; the bitmap's frames are marked in use where they have a bit (R124) and are neither the directory's nor that
table's (log 19). That the table's own frame is marked is not needed. -/
def Obligations.PageRoundTripReusesTheFrame : Prop :=
  ∀ (virt : Word) (s t : State), s.Inv → s.halted = false →
    ((s.pdbr >>> 12).toNat < s.nframes.toNat → s.bit (s.pdbr >>> 12).toNat = true) →
    ((s.pdeValue virt).getLsbD 0 = true → s.pdeValue virt &&& 0xFFFFF000#32 ≠ s.pdbr) →
    (∀ a, s.inBitmap a →
      ((a >>> 12).toNat < s.nframes.toNat → s.bit (a >>> 12).toNat = true) ∧ a &&& 0xFFFFF000#32 ≠ s.pdbr ∧
      ((s.pdeValue virt).getLsbD 0 = true → a &&& 0xFFFFF000#32 ≠ s.pdeValue virt &&& 0xFFFFF000#32)) →
    exec (.pageAlloc virt) s = .next t → statusResult t.status = 0#4 →
    ∃ u w, exec (.pageFree virt) t = .next u ∧ statusResult u.status = 0#4 ∧ u.res0 = t.res0 ∧
      exec (.pageAlloc virt) u = .next w ∧ statusResult w.status = 0#4 ∧ w.res0 = t.res0

/-- After UNMAP ends OK, WALK and, with paging on, XLATE of any address of the page end NOT_PRESENT (R99, R102 (c)). -/
def Obligations.UnmappedPageIsNotPresent : Prop :=
  ∀ (virt va : Word) (s t : State), s.Inv → s.halted = false → exec (.unmap virt) s = .next t →
    statusResult t.status = 0#4 → va &&& 0xFFFFF000#32 = virt →
    (∃ u, exec (.walk va) t = .next u ∧ statusResult u.status = 2#4 ∧ u.res0 = 0#32) ∧
    (t.ctrl.getLsbD 0 = true → ∃ u, exec (.xlate va) t = .next u ∧ statusResult u.status = 2#4 ∧ u.res0 = 0#32)

/-- R102 (c): after MAP, UNMAP, PAGE.ALLOC or PAGE.FREE ends OK, the TLB holds no entry for the page. -/
def Obligations.MappingCommandsDropThePagesEntry : Prop :=
  ∀ (i : Instr) (s t : State) (virt : Word),
    ((∃ phys, i = .map phys virt) ∨ i = .unmap virt ∨ i = .pageAlloc virt ∨ i = .pageFree virt) →
    s.halted = false → exec i s = .next t → statusResult t.status = 0#4 →
    t.tlb.lookup (virt.extractLsb' 12 20) = none

/-! ### TLB and control registers -/

/-- R104: the page's entry goes, every other entry stays. -/
def Obligations.InvlpgDropsOneEntry : Prop :=
  ∀ (va : Word) (s : State), s.halted = false →
    exec (.invlpg va) s = .next ({ s with tlb := s.tlb.filter (fun e => e.vpn != va.extractLsb' 12 20) }.ended 0#32)

/-- R104, R126: after INVLPG, XLATE of any address in the page gives what WALK gives: it reads the tables in memory. -/
def Obligations.XlateAfterInvlpgWalksMemory : Prop :=
  ∀ (va va' : Word) (s t u w : State), s.halted = false → s.ctrl.getLsbD 0 = true →
    va.extractLsb' 12 20 = va'.extractLsb' 12 20 → exec (.invlpg va) s = .next t →
    exec (.xlate va') t = .next u → exec (.walk va') t = .next w →
    u.res0 = w.res0 ∧ u.res1 = w.res1 ∧ u.status = w.status

/-- R105 with R19 to R27: the value read, and RESULT = OK unless the block is halted. The last clause is the model's (log 9): the word of a number
of 8 or more is illegal (R59 (d)), so the decoder gives no such term, and exec of one does what the block does with its word. -/
def Obligations.CrRdReadsTheRegister : Prop :=
  ∀ (n : BitVec 12) (s : State),
    let v := ([s.ctrl, s.pdbr, s.bmbase, s.nframes, s.status, s.faultInfo, s.faultCmd,
      BitVec.ofNat 32 (min Config.tlbEntries 0xFFFFFFFF)]).getD n.toNat 0#32
    (n.toNat ≤ 7 → s.halted = false → exec (.crRd n) s = .next ({ s with res0 := v }.ended 0#32)) ∧
    (n.toNat ≤ 7 → s.halted = true → exec (.crRd n) s = .next { s with res0 := v }) ∧
    (8 ≤ n.toNat → s.halted = false → exec (.crRd n) s =
      .next (s.fatallyEnded 3#32 (0x31#32 ||| (n.zeroExtend 32 <<< 8)) (0x31#32 ||| (n.zeroExtend 32 <<< 8))))

/-- R106 with R19 to R23, case by case. The last clause is the model's (log 9): the word of a number of 8 or more is illegal (R59 (d)), so the
decoder gives no such term, and exec of one does what the block does with its word. -/
def Obligations.CrWrWritesTheRegister : Prop :=
  ∀ (n : BitVec 12) (value : Word) (s : State), s.halted = false →
    let word := 0x32#32 ||| (n.zeroExtend 32 <<< 8)
    (n = 0#12 → exec (.crWr n value) s = .next ({ s with ctrl := value &&& 1#32, tlb := [] }.ended 0#32)) ∧
    (n = 1#12 → value.extractLsb' 0 12 = 0#12 →
      exec (.crWr n value) s = .next ({ s with pdbr := value, tlb := [] }.ended 0#32)) ∧
    (n = 1#12 → value.extractLsb' 0 12 ≠ 0#12 → exec (.crWr n value) s = .next (s.fatallyEnded 1#32 value word)) ∧
    (n = 2#12 → value.extractLsb' 0 2 = 0#2 → exec (.crWr n value) s = .next ({ s with bmbase := value }.ended 0#32)) ∧
    (n = 2#12 → value.extractLsb' 0 2 ≠ 0#2 → exec (.crWr n value) s = .next (s.fatallyEnded 1#32 value word)) ∧
    (n = 3#12 → value.toNat ≤ 0x100000 → exec (.crWr n value) s = .next ({ s with nframes := value }.ended 0#32)) ∧
    (n = 3#12 → 0x100000 < value.toNat → exec (.crWr n value) s = .next (s.fatallyEnded 2#32 value word)) ∧
    (4 ≤ n.toNat → n.toNat ≤ 7 → exec (.crWr n value) s = .next (s.ended 0#32)) ∧
    (8 ≤ n.toNat → exec (.crWr n value) s = .next (s.fatallyEnded 3#32 word word))

/-- Who writes what (R16, R20 to R26, R31, R57): BMBASE and NFRAMES by CR.WR only; CTRL and PDBR by CR.WR and PG.ENABLE only; RES0 by all but
ENT.ST, BM.SETALL, PG.ENABLE, INVLPG and CR.WR; RES1 by the walk and mapping commands only; FAULTINFO, FAULTCMD and every bit of STATUS
but RESULT by a command that halts the block, in a fatal fault, only; the TLB and memory by the commands for which R57 names them only. -/
def Obligations.OnlyTheNamedCommandsWriteEachRegister : Prop :=
  ∀ (i : Instr) (s t : State), exec i s = .next t →
    (i.opc ≠ 0x32#8 → t.bmbase = s.bmbase ∧ t.nframes = s.nframes) ∧
    (i.opc ≠ 0x32#8 → i.opc ≠ 0x20#8 → t.ctrl = s.ctrl ∧ t.pdbr = s.pdbr) ∧
    (i.opc ∈ [0x0A#8, 0x10#8, 0x20#8, 0x30#8, 0x32#8] → t.res0 = s.res0) ∧
    (i.opc ∉ [0x23#8, 0x24#8, 0x25#8, 0x26#8, 0x27#8, 0x28#8] → t.res1 = s.res1) ∧
    (¬ (s.halted = false ∧ t.halted = true) →
      t.faultInfo = s.faultInfo ∧ t.faultCmd = s.faultCmd ∧ t.status &&& 0xFFFFFFF0#32 = s.status &&& 0xFFFFFFF0#32) ∧
    (i.opc ∉ [0x20#8, 0x24#8, 0x25#8, 0x26#8, 0x27#8, 0x28#8, 0x30#8, 0x32#8] → t.tlb = s.tlb) ∧
    (i.opc ∉ [0x0A#8, 0x10#8, 0x11#8, 0x12#8, 0x14#8, 0x15#8, 0x18#8, 0x19#8, 0x25#8, 0x26#8, 0x27#8, 0x28#8] →
      t.mem = s.mem)

/-- R29, R31: no command but XLATE puts an entry into the TLB. -/
def Obligations.OnlyXlateFillsTheTlb : Prop :=
  ∀ (i : Instr) (s t : State), (∀ va, i ≠ .xlate va) → exec i s = .next t → ∀ e, e ∈ t.tlb → e ∈ s.tlb

/-! ### Outcomes, fatal faults and the halted state -/

/-- R107: a command that ends OUT_OF_PHYS, NOT_PRESENT or ALREADY_MAPPED leaves RES0 = 0, every byte of memory as it was, the TLB as it
was, and the block ready. -/
def Obligations.RecoverableOutcomesWriteNoMemory : Prop :=
  ∀ (i : Instr) (s t : State), s.halted = false → exec i s = .next t →
    (statusResult t.status = 1#4 ∨ statusResult t.status = 2#4 ∨ statusResult t.status = 3#4) →
    SameBytes s t ∧ t.tlb = s.tlb ∧ t.res0 = 0#32

/-- Faults are precise, which R109 derives from the commands' pseudocode: a command that raises a fatal fault has no effect besides STATUS's
three fields, FAULTINFO and FAULTCMD. That FAULTCMD is the word the encoder gives for the instruction is log 7. -/
def Obligations.FatalFaultsArePrecise : Prop :=
  ∀ (i : Instr) (s t : State), s.halted = false → exec i s = .next t → t.halted = true →
    ∃ cause info : Word, (cause = 1#32 ∨ cause = 2#32 ∨ cause = 3#32) ∧ t = s.fatallyEnded cause info i.word

/-- R110: a halted block executes CR.RD #0 to #7 only, which writes RES0 alone; every other command word, legal or illegal, is
refused and changes nothing. -/
def Obligations.HaltedBlockRefusesAllButCrRd : Prop :=
  ∀ (c : Command) (s : State), s.halted = true →
    (∀ n, decode c = .legal (.crRd n) → runCommand c s = .next { s with res0 := s.readCR n.toNat }) ∧
    ((∀ n, decode c ≠ .legal (.crRd n)) → runCommand c s = .next s)

/-- R110, R114: only reset leaves the halted state: any other step of a halted block keeps STATUS and the record of the fault. -/
def Obligations.OnlyResetLeavesTheHaltedState : Prop :=
  ∀ s t : State, s.halted = true → step s = .next t → (∀ rest, s.inbox ≠ .reset :: rest) →
    t.halted = true ∧ t.status = s.status ∧ t.faultInfo = s.faultInfo ∧ t.faultCmd = s.faultCmd
end

