-- ==== Sys2Proof/Laws/Memory.lean ====
section
/-! SUPPORT. Memory: a read after a write, what a write leaves alone, the canonical form, and that two canonical memories with the
same bytes are equal. -/

namespace Sys2Proof.Machine

theorem Memory.byteAt_eraseCell (m : Memory) (a k : Nat) :
    (m.eraseCell a).byteAt k = if k = a then unlistedByte else m.byteAt k := by
  induction m with
  | nil => simp [Memory.eraseCell, Memory.byteAt]
  | cons c m ih =>
    simp only [Memory.eraseCell] at ih
    by_cases h : c.1 = a
    · simp only [Memory.eraseCell, List.filter_cons, h, bne_self_eq_false, Bool.false_eq_true, if_false, ih, Memory.byteAt]
      by_cases hk : k = a
      · simp [hk]
      · simp [hk, show ¬ a = k from fun h' => hk h'.symm]
    · simp only [Memory.eraseCell, List.filter_cons, bne_iff_ne, ne_eq, h, not_false_eq_true, if_true, Memory.byteAt, ih]
      by_cases hk : k = a
      · subst hk; simp [h]
      · simp [hk]

theorem Memory.byteAt_insertCell (m : Memory) (a k : Nat) (b : Byte) (h : ∀ c ∈ m, c.1 ≠ a) :
    (m.insertCell a b).byteAt k = if k = a then b else m.byteAt k := by
  induction m with
  | nil => simp [Memory.insertCell, Memory.byteAt, eq_comm]
  | cons c m ih =>
    have hc : c.1 ≠ a := h c (by simp)
    have ih := ih (fun x hx => h x (by simp [hx]))
    simp only [Memory.insertCell]
    split
    · simp [Memory.byteAt, eq_comm]
    · simp only [Memory.byteAt, ih]
      by_cases hk : k = a
      · subst hk; simp [hc]
      · simp [hk]

theorem Memory.mem_eraseCell {m : Memory} {a : Nat} {c : Host.Cell} :
    c ∈ m.eraseCell a ↔ c ∈ m ∧ c.1 ≠ a := by
  simp [Memory.eraseCell]

/-- The byte read after one byte is stored. -/
theorem Memory.byteAt_putByte (m : Memory) (a k : Nat) (b : Byte) :
    (m.putByte a b).byteAt k = if k = a then b else m.byteAt k := by
  unfold Memory.putByte
  split
  · next h => rw [Memory.byteAt_eraseCell, h]
  · rw [Memory.byteAt_insertCell _ _ _ _ (fun c hc => (Memory.mem_eraseCell.mp hc).2), Memory.byteAt_eraseCell]
    by_cases hk : k = a <;> simp [hk]

/-- A byte store is read back at its address and nowhere else (R36, R38). -/
theorem Memory.readByte_writeByte (m : Memory) (pa a : Word) (b : Byte) :
    (m.writeByte pa b).readByte a = if a = pa then b else m.readByte a := by
  simp only [Memory.readByte, Memory.writeByte, Memory.byteAt_putByte, BitVec.toNat_inj]

/-- The byte read after a word is stored: byte `pa + k` holds bits `8k+7 : 8k` (R39). -/
theorem Memory.readByte_write32 (m : Memory) (pa v a : Word) :
    (m.write32 pa v).readByte a =
      if a = pa + 3#32 then v.extractLsb' 24 8 else if a = pa + 2#32 then v.extractLsb' 16 8
      else if a = pa + 1#32 then v.extractLsb' 8 8 else if a = pa then v.extractLsb' 0 8 else m.readByte a := by
  simp only [Memory.write32, Memory.readByte_writeByte]

/-- A word store changes no byte outside the word. -/
theorem Memory.readByte_write32_of_ne (m : Memory) (pa v a : Word) (h0 : a ≠ pa) (h1 : a ≠ pa + 1#32) (h2 : a ≠ pa + 2#32)
    (h3 : a ≠ pa + 3#32) : (m.write32 pa v).readByte a = m.readByte a := by
  simp [Memory.readByte_write32, h0, h1, h2, h3]

theorem Memory.append_bytes (v : Word) :
    ((v.extractLsb' 24 8 ++ v.extractLsb' 16 8) ++ v.extractLsb' 8 8) ++ v.extractLsb' 0 8 = v := by
  rw [BitVec.extractLsb'_append_extractLsb'_eq_extractLsb' (by rfl), BitVec.extractLsb'_append_extractLsb'_eq_extractLsb' (by rfl),
    BitVec.extractLsb'_append_extractLsb'_eq_extractLsb' (by rfl)]
  exact BitVec.extractLsb'_eq_self

/-- A word read after it is stored is the word stored (R10). -/
theorem Memory.read32_write32_same (m : Memory) (pa v : Word) : (m.write32 pa v).read32 pa = v := by
  have e1 : pa + 1#32 ≠ pa + 3#32 := by bv_omega
  have e2 : pa + 1#32 ≠ pa + 2#32 := by bv_omega
  have e3 : pa + 2#32 ≠ pa + 3#32 := by bv_omega
  have e4 : pa ≠ pa + 3#32 := by bv_omega
  have e5 : pa ≠ pa + 2#32 := by bv_omega
  have e6 : pa ≠ pa + 1#32 := by bv_omega
  simp only [Memory.read32, Memory.readByte_write32, if_true, e1, e2, e3, e4, e5, e6, if_false]
  exact Memory.append_bytes v

/-- Two words at distinct multiples of 4 share no byte. -/
theorem aligned_words_disjoint (p q : Word) (hp : p.extractLsb' 0 2 = 0#2) (hq : q.extractLsb' 0 2 = 0#2) (h : p ≠ q)
    (a : Word) (ha : a = p ∨ a = p + 1#32 ∨ a = p + 2#32 ∨ a = p + 3#32) : a ≠ q ∧ a ≠ q + 1#32 ∧ a ≠ q + 2#32 ∧ a ≠ q + 3#32 := by
  have hp' : p.toNat % 4 = 0 := by
    have := congrArg BitVec.toNat hp
    simpa [BitVec.extractLsb'_toNat] using this
  have hq' : q.toNat % 4 = 0 := by
    have := congrArg BitVec.toNat hq
    simpa [BitVec.extractLsb'_toNat] using this
  have hne : p.toNat ≠ q.toNat := fun e => h (BitVec.eq_of_toNat_eq e)
  rcases ha with rfl | rfl | rfl | rfl <;> refine ⟨?_, ?_, ?_, ?_⟩ <;> bv_omega

/-- A word store leaves every other aligned word alone. -/
theorem Memory.read32_write32_of_ne (m : Memory) (p q v : Word) (hp : p.extractLsb' 0 2 = 0#2) (hq : q.extractLsb' 0 2 = 0#2)
    (h : q ≠ p) : (m.write32 p v).read32 q = m.read32 q := by
  have key : ∀ a, (a = q ∨ a = q + 1#32 ∨ a = q + 2#32 ∨ a = q + 3#32) → (m.write32 p v).readByte a = m.readByte a := by
    intro a ha
    obtain ⟨h0, h1, h2, h3⟩ := aligned_words_disjoint q p hq hp h a ha
    exact Memory.readByte_write32_of_ne m p v a h0 h1 h2 h3
  simp only [Memory.read32]
  rw [key (q + 3#32) (by simp), key (q + 2#32) (by simp), key (q + 1#32) (by simp), key q (by simp)]

/-- Words read alike where their bytes do. -/
theorem Memory.read32_congr {m m' : Memory} {pa : Word} (h0 : m'.readByte pa = m.readByte pa)
    (h1 : m'.readByte (pa + 1#32) = m.readByte (pa + 1#32)) (h2 : m'.readByte (pa + 2#32) = m.readByte (pa + 2#32))
    (h3 : m'.readByte (pa + 3#32) = m.readByte (pa + 3#32)) : m'.read32 pa = m.read32 pa := by
  simp only [Memory.read32, h0, h1, h2, h3]

/-! The canonical form. -/

theorem Memory.wf_nil : Memory.wf [] := by simp [Memory.wf]

theorem Memory.wf_eraseCell {m : Memory} (h : m.wf) (a : Nat) : (m.eraseCell a).wf :=
  ⟨h.1.sublist List.filter_sublist, fun c hc => h.2 c (Memory.mem_eraseCell.mp hc).1⟩

theorem Memory.mem_insertCell {m : Memory} {a : Nat} {b : Byte} {c : Host.Cell} :
    c ∈ m.insertCell a b ↔ c = (a, b) ∨ c ∈ m := by
  induction m with
  | nil => simp [Memory.insertCell]
  | cons d m ih =>
    simp only [Memory.insertCell]
    split
    · simp
    · simp only [List.mem_cons, ih]; tauto

theorem Memory.pairwise_insertCell {m : Memory} (h : m.Pairwise (fun x y => x.1 < y.1)) {a : Nat} {b : Byte}
    (hne : ∀ c ∈ m, c.1 ≠ a) : (m.insertCell a b).Pairwise (fun x y => x.1 < y.1) := by
  induction m with
  | nil => simp [Memory.insertCell]
  | cons d m ih =>
    rw [List.pairwise_cons] at h
    simp only [Memory.insertCell]
    split
    · next hlt =>
      refine List.pairwise_cons.mpr ⟨fun c hc => ?_, List.pairwise_cons.mpr h⟩
      rcases List.mem_cons.mp hc with rfl | hc
      · exact hlt
      · exact lt_trans hlt (h.1 c hc)
    · next hlt =>
      refine List.pairwise_cons.mpr ⟨fun c hc => ?_, ih h.2 (fun c hc => hne c (by simp [hc]))⟩
      rcases Memory.mem_insertCell.mp hc with rfl | hc
      · have := hne d (by simp)
        simp only at *
        omega
      · exact h.1 c hc

/-- A byte store keeps the canonical form. -/
theorem Memory.wf_writeByte {m : Memory} (h : m.wf) (pa : Word) (b : Byte) : (m.writeByte pa b).wf := by
  unfold Memory.writeByte Memory.putByte
  split
  · exact Memory.wf_eraseCell h _
  · next hb =>
    have he := Memory.wf_eraseCell h pa.toNat
    refine ⟨Memory.pairwise_insertCell he.1 (fun c hc => (Memory.mem_eraseCell.mp hc).2), fun c hc => ?_⟩
    rcases Memory.mem_insertCell.mp hc with rfl | hc
    · exact ⟨pa.isLt, hb⟩
    · exact he.2 c hc

/-- A word store keeps the canonical form. -/
theorem Memory.wf_write32 {m : Memory} (h : m.wf) (pa v : Word) : (m.write32 pa v).wf :=
  Memory.wf_writeByte (Memory.wf_writeByte (Memory.wf_writeByte (Memory.wf_writeByte h _ _) _ _) _ _) _ _

theorem Memory.byteAt_of_lt {m : Memory} {a : Nat} (h : ∀ c ∈ m, a < c.1) : m.byteAt a = unlistedByte := by
  induction m with
  | nil => rfl
  | cons c m ih =>
    have := h c (by simp)
    have hne : c.1 ≠ a := by omega
    simp only [Memory.byteAt, hne, if_false]
    exact ih (fun x hx => h x (by simp [hx]))

/-- Two canonical memories with the same bytes are the same list. -/
theorem Memory.ext_of_wf {m m' : Memory} (h : m.wf) (h' : m'.wf) (e : ∀ a, m.byteAt a = m'.byteAt a) : m = m' := by
  induction m generalizing m' with
  | nil =>
    cases m' with
    | nil => rfl
    | cons d m' =>
      have := e d.1
      simp only [Memory.byteAt, if_true] at this
      exact absurd this.symm (h'.2 d (by simp)).2
  | cons c m ih =>
    cases m' with
    | nil =>
      have := e c.1
      simp only [Memory.byteAt, if_true] at this
      exact absurd this (h.2 c (by simp)).2
    | cons d m' =>
      have p := List.pairwise_cons.mp h.1
      have p' := List.pairwise_cons.mp h'.1
      have hcd : c.1 = d.1 := by
        rcases lt_trichotomy c.1 d.1 with hlt | heq | hgt
        · have e1 := e c.1
          rw [Memory.byteAt_of_lt (m := d :: m') (a := c.1) (by
            intro x hx
            rcases List.mem_cons.mp hx with rfl | hx
            · exact hlt
            · exact lt_trans hlt (p'.1 x hx))] at e1
          simp only [Memory.byteAt, if_true] at e1
          exact absurd e1 (h.2 c (by simp)).2
        · exact heq
        · have e1 := e d.1
          rw [Memory.byteAt_of_lt (m := c :: m) (a := d.1) (by
            intro x hx
            rcases List.mem_cons.mp hx with rfl | hx
            · exact hgt
            · exact lt_trans hgt (p.1 x hx))] at e1
          simp only [Memory.byteAt, if_true] at e1
          exact absurd e1.symm (h'.2 d (by simp)).2
      have hb : c.2 = d.2 := by
        have := e c.1
        simpa [Memory.byteAt, hcd] using this
      have hcd' : c = d := Prod.ext hcd hb
      subst hcd'
      refine congrArg (c :: ·) (ih ⟨p.2, fun x hx => h.2 x (by simp [hx])⟩ ⟨p'.2, fun x hx => h'.2 x (by simp [hx])⟩ ?_)
      intro a
      by_cases ha : c.1 = a
      · subst ha
        rw [Memory.byteAt_of_lt p.1, Memory.byteAt_of_lt p'.1]
      · simpa [Memory.byteAt, ha] using e a

end Sys2Proof.Machine
end

