-- ==== Sys2Proof/Laws/State.lean ====
section
/-! SUPPORT. One lemma per field per update of the state: what the update writes and that every other field stays. -/

namespace Sys2Proof.Machine

/-! ### `RES0 <- v` -/

@[simp] theorem State.setRes0_res0 (s : State) (v : Word) : (s.setRes0 v).res0 = v := rfl
@[simp] theorem State.setRes0_res1 (s : State) (v : Word) : (s.setRes0 v).res1 = s.res1 := rfl
@[simp] theorem State.setRes0_ctrl (s : State) (v : Word) : (s.setRes0 v).ctrl = s.ctrl := rfl
@[simp] theorem State.setRes0_pdbr (s : State) (v : Word) : (s.setRes0 v).pdbr = s.pdbr := rfl
@[simp] theorem State.setRes0_bmbase (s : State) (v : Word) : (s.setRes0 v).bmbase = s.bmbase := rfl
@[simp] theorem State.setRes0_nframes (s : State) (v : Word) : (s.setRes0 v).nframes = s.nframes := rfl
@[simp] theorem State.setRes0_status (s : State) (v : Word) : (s.setRes0 v).status = s.status := rfl
@[simp] theorem State.setRes0_faultInfo (s : State) (v : Word) : (s.setRes0 v).faultInfo = s.faultInfo := rfl
@[simp] theorem State.setRes0_faultCmd (s : State) (v : Word) : (s.setRes0 v).faultCmd = s.faultCmd := rfl
@[simp] theorem State.setRes0_tlb (s : State) (v : Word) : (s.setRes0 v).tlb = s.tlb := rfl
@[simp] theorem State.setRes0_mem (s : State) (v : Word) : (s.setRes0 v).mem = s.mem := rfl
@[simp] theorem State.setRes0_inbox (s : State) (v : Word) : (s.setRes0 v).inbox = s.inbox := rfl
@[simp] theorem State.setRes0_draws (s : State) (v : Word) : (s.setRes0 v).draws = s.draws := rfl

/-! ### `RES1 <- v` -/

@[simp] theorem State.setRes1_res0 (s : State) (v : Word) : (s.setRes1 v).res0 = s.res0 := rfl
@[simp] theorem State.setRes1_res1 (s : State) (v : Word) : (s.setRes1 v).res1 = v := rfl
@[simp] theorem State.setRes1_ctrl (s : State) (v : Word) : (s.setRes1 v).ctrl = s.ctrl := rfl
@[simp] theorem State.setRes1_pdbr (s : State) (v : Word) : (s.setRes1 v).pdbr = s.pdbr := rfl
@[simp] theorem State.setRes1_bmbase (s : State) (v : Word) : (s.setRes1 v).bmbase = s.bmbase := rfl
@[simp] theorem State.setRes1_nframes (s : State) (v : Word) : (s.setRes1 v).nframes = s.nframes := rfl
@[simp] theorem State.setRes1_status (s : State) (v : Word) : (s.setRes1 v).status = s.status := rfl
@[simp] theorem State.setRes1_faultInfo (s : State) (v : Word) : (s.setRes1 v).faultInfo = s.faultInfo := rfl
@[simp] theorem State.setRes1_faultCmd (s : State) (v : Word) : (s.setRes1 v).faultCmd = s.faultCmd := rfl
@[simp] theorem State.setRes1_tlb (s : State) (v : Word) : (s.setRes1 v).tlb = s.tlb := rfl
@[simp] theorem State.setRes1_mem (s : State) (v : Word) : (s.setRes1 v).mem = s.mem := rfl
@[simp] theorem State.setRes1_inbox (s : State) (v : Word) : (s.setRes1 v).inbox = s.inbox := rfl
@[simp] theorem State.setRes1_draws (s : State) (v : Word) : (s.setRes1 v).draws = s.draws := rfl

/-! ### `finish(code)` -/

@[simp] theorem State.finish_res0 (s : State) (c : ResultCode) : (s.finish c).res0 = s.res0 := rfl
@[simp] theorem State.finish_res1 (s : State) (c : ResultCode) : (s.finish c).res1 = s.res1 := rfl
@[simp] theorem State.finish_ctrl (s : State) (c : ResultCode) : (s.finish c).ctrl = s.ctrl := rfl
@[simp] theorem State.finish_pdbr (s : State) (c : ResultCode) : (s.finish c).pdbr = s.pdbr := rfl
@[simp] theorem State.finish_bmbase (s : State) (c : ResultCode) : (s.finish c).bmbase = s.bmbase := rfl
@[simp] theorem State.finish_nframes (s : State) (c : ResultCode) : (s.finish c).nframes = s.nframes := rfl
@[simp] theorem State.finish_status (s : State) (c : ResultCode) : (s.finish c).status = withResult s.status c := rfl
@[simp] theorem State.finish_faultInfo (s : State) (c : ResultCode) : (s.finish c).faultInfo = s.faultInfo := rfl
@[simp] theorem State.finish_faultCmd (s : State) (c : ResultCode) : (s.finish c).faultCmd = s.faultCmd := rfl
@[simp] theorem State.finish_tlb (s : State) (c : ResultCode) : (s.finish c).tlb = s.tlb := rfl
@[simp] theorem State.finish_mem (s : State) (c : ResultCode) : (s.finish c).mem = s.mem := rfl
@[simp] theorem State.finish_inbox (s : State) (c : ResultCode) : (s.finish c).inbox = s.inbox := rfl
@[simp] theorem State.finish_draws (s : State) (c : ResultCode) : (s.finish c).draws = s.draws := rfl

/-! ### `raise Fatal` -/

@[simp] theorem State.raiseFatal_res0 (s : State) (c : FaultCause) (i w : Word) : (s.raiseFatal c i w).res0 = s.res0 := rfl
@[simp] theorem State.raiseFatal_res1 (s : State) (c : FaultCause) (i w : Word) : (s.raiseFatal c i w).res1 = s.res1 := rfl
@[simp] theorem State.raiseFatal_ctrl (s : State) (c : FaultCause) (i w : Word) : (s.raiseFatal c i w).ctrl = s.ctrl := rfl
@[simp] theorem State.raiseFatal_pdbr (s : State) (c : FaultCause) (i w : Word) : (s.raiseFatal c i w).pdbr = s.pdbr := rfl
@[simp] theorem State.raiseFatal_bmbase (s : State) (c : FaultCause) (i w : Word) : (s.raiseFatal c i w).bmbase = s.bmbase := rfl
@[simp] theorem State.raiseFatal_nframes (s : State) (c : FaultCause) (i w : Word) : (s.raiseFatal c i w).nframes = s.nframes := rfl
@[simp] theorem State.raiseFatal_status (s : State) (c : FaultCause) (i w : Word) : (s.raiseFatal c i w).status = withFatal s.status c := rfl
@[simp] theorem State.raiseFatal_faultInfo (s : State) (c : FaultCause) (i w : Word) : (s.raiseFatal c i w).faultInfo = i := rfl
@[simp] theorem State.raiseFatal_faultCmd (s : State) (c : FaultCause) (i w : Word) : (s.raiseFatal c i w).faultCmd = w := rfl
@[simp] theorem State.raiseFatal_tlb (s : State) (c : FaultCause) (i w : Word) : (s.raiseFatal c i w).tlb = s.tlb := rfl
@[simp] theorem State.raiseFatal_mem (s : State) (c : FaultCause) (i w : Word) : (s.raiseFatal c i w).mem = s.mem := rfl
@[simp] theorem State.raiseFatal_inbox (s : State) (c : FaultCause) (i w : Word) : (s.raiseFatal c i w).inbox = s.inbox := rfl
@[simp] theorem State.raiseFatal_draws (s : State) (c : FaultCause) (i w : Word) : (s.raiseFatal c i w).draws = s.draws := rfl

/-! ### `MemWrite32` -/

@[simp] theorem State.memWrite32_res0 (s : State) (pa v : Word) : (s.memWrite32 pa v).res0 = s.res0 := rfl
@[simp] theorem State.memWrite32_res1 (s : State) (pa v : Word) : (s.memWrite32 pa v).res1 = s.res1 := rfl
@[simp] theorem State.memWrite32_ctrl (s : State) (pa v : Word) : (s.memWrite32 pa v).ctrl = s.ctrl := rfl
@[simp] theorem State.memWrite32_pdbr (s : State) (pa v : Word) : (s.memWrite32 pa v).pdbr = s.pdbr := rfl
@[simp] theorem State.memWrite32_bmbase (s : State) (pa v : Word) : (s.memWrite32 pa v).bmbase = s.bmbase := rfl
@[simp] theorem State.memWrite32_nframes (s : State) (pa v : Word) : (s.memWrite32 pa v).nframes = s.nframes := rfl
@[simp] theorem State.memWrite32_status (s : State) (pa v : Word) : (s.memWrite32 pa v).status = s.status := rfl
@[simp] theorem State.memWrite32_faultInfo (s : State) (pa v : Word) : (s.memWrite32 pa v).faultInfo = s.faultInfo := rfl
@[simp] theorem State.memWrite32_faultCmd (s : State) (pa v : Word) : (s.memWrite32 pa v).faultCmd = s.faultCmd := rfl
@[simp] theorem State.memWrite32_tlb (s : State) (pa v : Word) : (s.memWrite32 pa v).tlb = s.tlb := rfl
@[simp] theorem State.memWrite32_mem (s : State) (pa v : Word) : (s.memWrite32 pa v).mem = s.mem.write32 pa v := rfl
@[simp] theorem State.memWrite32_inbox (s : State) (pa v : Word) : (s.memWrite32 pa v).inbox = s.inbox := rfl
@[simp] theorem State.memWrite32_draws (s : State) (pa v : Word) : (s.memWrite32 pa v).draws = s.draws := rfl

/-! ### `TLB.remove` -/

@[simp] theorem State.tlbRemove_res0 (s : State) (vpn : BitVec 20) : (s.tlbRemove vpn).res0 = s.res0 := rfl
@[simp] theorem State.tlbRemove_res1 (s : State) (vpn : BitVec 20) : (s.tlbRemove vpn).res1 = s.res1 := rfl
@[simp] theorem State.tlbRemove_ctrl (s : State) (vpn : BitVec 20) : (s.tlbRemove vpn).ctrl = s.ctrl := rfl
@[simp] theorem State.tlbRemove_pdbr (s : State) (vpn : BitVec 20) : (s.tlbRemove vpn).pdbr = s.pdbr := rfl
@[simp] theorem State.tlbRemove_bmbase (s : State) (vpn : BitVec 20) : (s.tlbRemove vpn).bmbase = s.bmbase := rfl
@[simp] theorem State.tlbRemove_nframes (s : State) (vpn : BitVec 20) : (s.tlbRemove vpn).nframes = s.nframes := rfl
@[simp] theorem State.tlbRemove_status (s : State) (vpn : BitVec 20) : (s.tlbRemove vpn).status = s.status := rfl
@[simp] theorem State.tlbRemove_faultInfo (s : State) (vpn : BitVec 20) : (s.tlbRemove vpn).faultInfo = s.faultInfo := rfl
@[simp] theorem State.tlbRemove_faultCmd (s : State) (vpn : BitVec 20) : (s.tlbRemove vpn).faultCmd = s.faultCmd := rfl
@[simp] theorem State.tlbRemove_tlb (s : State) (vpn : BitVec 20) : (s.tlbRemove vpn).tlb = s.tlb.remove vpn := rfl
@[simp] theorem State.tlbRemove_mem (s : State) (vpn : BitVec 20) : (s.tlbRemove vpn).mem = s.mem := rfl
@[simp] theorem State.tlbRemove_inbox (s : State) (vpn : BitVec 20) : (s.tlbRemove vpn).inbox = s.inbox := rfl
@[simp] theorem State.tlbRemove_draws (s : State) (vpn : BitVec 20) : (s.tlbRemove vpn).draws = s.draws := rfl

/-! ### `TLB.flush` -/

@[simp] theorem State.tlbFlush_res0 (s : State) : s.tlbFlush.res0 = s.res0 := rfl
@[simp] theorem State.tlbFlush_res1 (s : State) : s.tlbFlush.res1 = s.res1 := rfl
@[simp] theorem State.tlbFlush_ctrl (s : State) : s.tlbFlush.ctrl = s.ctrl := rfl
@[simp] theorem State.tlbFlush_pdbr (s : State) : s.tlbFlush.pdbr = s.pdbr := rfl
@[simp] theorem State.tlbFlush_bmbase (s : State) : s.tlbFlush.bmbase = s.bmbase := rfl
@[simp] theorem State.tlbFlush_nframes (s : State) : s.tlbFlush.nframes = s.nframes := rfl
@[simp] theorem State.tlbFlush_status (s : State) : s.tlbFlush.status = s.status := rfl
@[simp] theorem State.tlbFlush_faultInfo (s : State) : s.tlbFlush.faultInfo = s.faultInfo := rfl
@[simp] theorem State.tlbFlush_faultCmd (s : State) : s.tlbFlush.faultCmd = s.faultCmd := rfl
@[simp] theorem State.tlbFlush_tlb (s : State) : s.tlbFlush.tlb = [] := rfl
@[simp] theorem State.tlbFlush_mem (s : State) : s.tlbFlush.mem = s.mem := rfl
@[simp] theorem State.tlbFlush_inbox (s : State) : s.tlbFlush.inbox = s.inbox := rfl
@[simp] theorem State.tlbFlush_draws (s : State) : s.tlbFlush.draws = s.draws := rfl

/-! ### `TLB.maybe_fill` -/

@[simp] theorem State.tlbMaybeFill_res0 (s : State) (vpn : BitVec 20) (pte : Word) : (s.tlbMaybeFill vpn pte).res0 = s.res0 := rfl
@[simp] theorem State.tlbMaybeFill_res1 (s : State) (vpn : BitVec 20) (pte : Word) : (s.tlbMaybeFill vpn pte).res1 = s.res1 := rfl
@[simp] theorem State.tlbMaybeFill_ctrl (s : State) (vpn : BitVec 20) (pte : Word) : (s.tlbMaybeFill vpn pte).ctrl = s.ctrl := rfl
@[simp] theorem State.tlbMaybeFill_pdbr (s : State) (vpn : BitVec 20) (pte : Word) : (s.tlbMaybeFill vpn pte).pdbr = s.pdbr := rfl
@[simp] theorem State.tlbMaybeFill_bmbase (s : State) (vpn : BitVec 20) (pte : Word) : (s.tlbMaybeFill vpn pte).bmbase = s.bmbase := rfl
@[simp] theorem State.tlbMaybeFill_nframes (s : State) (vpn : BitVec 20) (pte : Word) : (s.tlbMaybeFill vpn pte).nframes = s.nframes := rfl
@[simp] theorem State.tlbMaybeFill_status (s : State) (vpn : BitVec 20) (pte : Word) : (s.tlbMaybeFill vpn pte).status = s.status := rfl
@[simp] theorem State.tlbMaybeFill_faultInfo (s : State) (vpn : BitVec 20) (pte : Word) : (s.tlbMaybeFill vpn pte).faultInfo = s.faultInfo := rfl
@[simp] theorem State.tlbMaybeFill_faultCmd (s : State) (vpn : BitVec 20) (pte : Word) : (s.tlbMaybeFill vpn pte).faultCmd = s.faultCmd := rfl
@[simp] theorem State.tlbMaybeFill_tlb (s : State) (vpn : BitVec 20) (pte : Word) : (s.tlbMaybeFill vpn pte).tlb = s.tlb.maybeFill (Config.tlbFill s.draws) vpn pte := rfl
@[simp] theorem State.tlbMaybeFill_mem (s : State) (vpn : BitVec 20) (pte : Word) : (s.tlbMaybeFill vpn pte).mem = s.mem := rfl
@[simp] theorem State.tlbMaybeFill_inbox (s : State) (vpn : BitVec 20) (pte : Word) : (s.tlbMaybeFill vpn pte).inbox = s.inbox := rfl
@[simp] theorem State.tlbMaybeFill_draws (s : State) (vpn : BitVec 20) (pte : Word) : (s.tlbMaybeFill vpn pte).draws = s.draws + 1 := rfl

/-! ### accepting a command -/

@[simp] theorem State.accept_res0 (s : State) (rest : List HostAction) : (s.accept rest).res0 = s.res0 := rfl
@[simp] theorem State.accept_res1 (s : State) (rest : List HostAction) : (s.accept rest).res1 = s.res1 := rfl
@[simp] theorem State.accept_ctrl (s : State) (rest : List HostAction) : (s.accept rest).ctrl = s.ctrl := rfl
@[simp] theorem State.accept_pdbr (s : State) (rest : List HostAction) : (s.accept rest).pdbr = s.pdbr := rfl
@[simp] theorem State.accept_bmbase (s : State) (rest : List HostAction) : (s.accept rest).bmbase = s.bmbase := rfl
@[simp] theorem State.accept_nframes (s : State) (rest : List HostAction) : (s.accept rest).nframes = s.nframes := rfl
@[simp] theorem State.accept_status (s : State) (rest : List HostAction) : (s.accept rest).status = s.status := rfl
@[simp] theorem State.accept_faultInfo (s : State) (rest : List HostAction) : (s.accept rest).faultInfo = s.faultInfo := rfl
@[simp] theorem State.accept_faultCmd (s : State) (rest : List HostAction) : (s.accept rest).faultCmd = s.faultCmd := rfl
@[simp] theorem State.accept_tlb (s : State) (rest : List HostAction) : (s.accept rest).tlb = s.tlb.evict s.draws := rfl
@[simp] theorem State.accept_mem (s : State) (rest : List HostAction) : (s.accept rest).mem = s.mem := rfl
@[simp] theorem State.accept_inbox (s : State) (rest : List HostAction) : (s.accept rest).inbox = rest := rfl
@[simp] theorem State.accept_draws (s : State) (rest : List HostAction) : (s.accept rest).draws = s.draws + 1 := rfl

/-! ### `setbit` -/

@[simp] theorem State.setBit_res0 (s : State) (f : Nat) : (s.setBit f).res0 = s.res0 := rfl
@[simp] theorem State.setBit_res1 (s : State) (f : Nat) : (s.setBit f).res1 = s.res1 := rfl
@[simp] theorem State.setBit_ctrl (s : State) (f : Nat) : (s.setBit f).ctrl = s.ctrl := rfl
@[simp] theorem State.setBit_pdbr (s : State) (f : Nat) : (s.setBit f).pdbr = s.pdbr := rfl
@[simp] theorem State.setBit_bmbase (s : State) (f : Nat) : (s.setBit f).bmbase = s.bmbase := rfl
@[simp] theorem State.setBit_nframes (s : State) (f : Nat) : (s.setBit f).nframes = s.nframes := rfl
@[simp] theorem State.setBit_status (s : State) (f : Nat) : (s.setBit f).status = s.status := rfl
@[simp] theorem State.setBit_faultInfo (s : State) (f : Nat) : (s.setBit f).faultInfo = s.faultInfo := rfl
@[simp] theorem State.setBit_faultCmd (s : State) (f : Nat) : (s.setBit f).faultCmd = s.faultCmd := rfl
@[simp] theorem State.setBit_tlb (s : State) (f : Nat) : (s.setBit f).tlb = s.tlb := rfl
theorem State.setBit_mem (s : State) (f : Nat) : (s.setBit f).mem = s.mem.write32 (s.bitWordAddr f) (s.memRead32 (s.bitWordAddr f) ||| bitMaskOf f) := rfl
@[simp] theorem State.setBit_inbox (s : State) (f : Nat) : (s.setBit f).inbox = s.inbox := rfl
@[simp] theorem State.setBit_draws (s : State) (f : Nat) : (s.setBit f).draws = s.draws := rfl

/-! ### `clrbit` -/

@[simp] theorem State.clearBit_res0 (s : State) (f : Nat) : (s.clearBit f).res0 = s.res0 := rfl
@[simp] theorem State.clearBit_res1 (s : State) (f : Nat) : (s.clearBit f).res1 = s.res1 := rfl
@[simp] theorem State.clearBit_ctrl (s : State) (f : Nat) : (s.clearBit f).ctrl = s.ctrl := rfl
@[simp] theorem State.clearBit_pdbr (s : State) (f : Nat) : (s.clearBit f).pdbr = s.pdbr := rfl
@[simp] theorem State.clearBit_bmbase (s : State) (f : Nat) : (s.clearBit f).bmbase = s.bmbase := rfl
@[simp] theorem State.clearBit_nframes (s : State) (f : Nat) : (s.clearBit f).nframes = s.nframes := rfl
@[simp] theorem State.clearBit_status (s : State) (f : Nat) : (s.clearBit f).status = s.status := rfl
@[simp] theorem State.clearBit_faultInfo (s : State) (f : Nat) : (s.clearBit f).faultInfo = s.faultInfo := rfl
@[simp] theorem State.clearBit_faultCmd (s : State) (f : Nat) : (s.clearBit f).faultCmd = s.faultCmd := rfl
@[simp] theorem State.clearBit_tlb (s : State) (f : Nat) : (s.clearBit f).tlb = s.tlb := rfl
theorem State.clearBit_mem (s : State) (f : Nat) : (s.clearBit f).mem = s.mem.write32 (s.bitWordAddr f) (s.memRead32 (s.bitWordAddr f) &&& ~~~bitMaskOf f) := rfl
@[simp] theorem State.clearBit_inbox (s : State) (f : Nat) : (s.clearBit f).inbox = s.inbox := rfl
@[simp] theorem State.clearBit_draws (s : State) (f : Nat) : (s.clearBit f).draws = s.draws := rfl

end Sys2Proof.Machine
end

