-- ==== Sys2Proof/Laws/Ops.lean ====
section
/-! SUPPORT. What the shared operations of Machine/Ops.lean and Machine/Flags.lean can do, said once: the fields of STATUS after a write,
the halted guard, the end of a command, the fatal fault, the command word's fields. -/

namespace Sys2Proof.Machine

/-! ### STATUS -/

@[simp] theorem statusResult_withResult (st : Word) (c : ResultCode) : statusResult (withResult st c) = resultNumber c := by
  unfold statusResult withResult
  ext i hi
  cases c <;> (interval_cases i <;> simp [resultNumber])

@[simp] theorem statusFatal_withResult (st : Word) (c : ResultCode) : statusFatal (withResult st c) = statusFatal st := by
  cases c <;> simp [statusFatal, withResult, resultNumber]

@[simp] theorem statusFatal_withFatal (st : Word) (c : FaultCause) : statusFatal (withFatal st c) = true := by
  cases c <;> simp [statusFatal, withFatal, causeNumber]

@[simp] theorem statusResult_withFatal (st : Word) (c : FaultCause) : statusResult (withFatal st c) = 15#4 := by
  unfold statusResult withFatal withResult
  ext i hi
  cases c <;> (interval_cases i <;> simp [resultNumber, causeNumber])

@[simp] theorem statusCause_withFatal (st : Word) (c : FaultCause) : statusCause (withFatal st c) = causeNumber c := by
  unfold statusCause withFatal withResult
  ext i hi
  cases c <;> (interval_cases i <;> simp [resultNumber, causeNumber])

/-- The STATUS value of a fatal fault with its fields spelled out (R24, R109). -/
theorem withFatal_eq (st : Word) (c : FaultCause) :
    withFatal st c = (st &&& 0xFFFF0EF0#32) ||| 0x10F#32 ||| ((causeNumber c).zeroExtend 32 <<< 12) := by
  unfold withFatal withResult
  ext i hi
  cases c <;> (interval_cases i <;> simp [resultNumber, causeNumber])

/-- A write of RESULT to a legal, not fatal STATUS leaves a legal one. -/
theorem statusLegal_withResult {st : Word} (h : StatusLegal st) (hf : statusFatal st = false) {c : ResultCode} (hc : c ≠ .fatal) :
    StatusLegal (withResult st c) := by
  simp only [StatusLegal, List.mem_cons, List.not_mem_nil, or_false] at h
  rcases h with rfl | rfl | rfl | rfl | rfl | rfl | rfl <;> cases c <;> revert hf hc <;> decide

/-- A fatal fault out of a legal, not fatal STATUS leaves a legal one. -/
theorem statusLegal_withFatal {st : Word} (h : StatusLegal st) (hf : statusFatal st = false) (c : FaultCause) :
    StatusLegal (withFatal st c) := by
  simp only [StatusLegal, List.mem_cons, List.not_mem_nil, or_false] at h
  rcases h with rfl | rfl | rfl | rfl | rfl | rfl | rfl <;> cases c <;> revert hf <;> decide

/-! ### The halted state -/

@[simp] theorem State.halted_finish (s : State) (c : ResultCode) : (s.finish c).halted = s.halted := by
  simp [State.halted]

@[simp] theorem State.halted_raiseFatal (s : State) (c : FaultCause) (i w : Word) : (s.raiseFatal c i w).halted = true := by
  simp [State.halted]

@[simp] theorem State.halted_setRes0 (s : State) (v : Word) : (s.setRes0 v).halted = s.halted := rfl
@[simp] theorem State.halted_setRes1 (s : State) (v : Word) : (s.setRes1 v).halted = s.halted := rfl
@[simp] theorem State.halted_memWrite32 (s : State) (pa v : Word) : (s.memWrite32 pa v).halted = s.halted := rfl
@[simp] theorem State.halted_tlbRemove (s : State) (v : BitVec 20) : (s.tlbRemove v).halted = s.halted := rfl
@[simp] theorem State.halted_tlbFlush (s : State) : s.tlbFlush.halted = s.halted := rfl
@[simp] theorem State.halted_tlbMaybeFill (s : State) (v : BitVec 20) (p : Word) : (s.tlbMaybeFill v p).halted = s.halted := rfl
@[simp] theorem State.halted_setBit (s : State) (f : Nat) : (s.setBit f).halted = s.halted := rfl
@[simp] theorem State.halted_clearBit (s : State) (f : Nat) : (s.clearBit f).halted = s.halted := rfl

/-- A halted block refuses (R110). -/
theorem runUnlessHalted_of_halted {s : State} (h : s.halted = true) (body : State → State) :
    runUnlessHalted s body = .next s := by
  simp [runUnlessHalted, h]

/-- A block that is not halted runs the command (R12). -/
theorem runUnlessHalted_of_ready {s : State} (h : s.halted = false) (body : State → State) :
    runUnlessHalted s body = .next (body s) := by
  simp [runUnlessHalted, h]

/-- Everything the halted guard can answer. -/
theorem runUnlessHalted_cases {s t : State} {body : State → State} (h : runUnlessHalted s body = .next t) :
    (s.halted = true ∧ t = s) ∨ (s.halted = false ∧ t = body s) := by
  unfold runUnlessHalted at h
  split at h
  · next hh => exact .inl ⟨hh, by cases h; rfl⟩
  · next hh => exact .inr ⟨by simpa using hh, by cases h; rfl⟩

/-! ### The ends of a command -/

theorem State.finish_ok (s : State) : s.finish .ok = s.ended 0#32 := rfl
theorem State.finish_outOfPhys (s : State) : s.finish .outOfPhys = s.ended 1#32 := rfl
theorem State.finish_notPresent (s : State) : s.finish .notPresent = s.ended 2#32 := rfl
theorem State.finish_alreadyMapped (s : State) : s.finish .alreadyMapped = s.ended 3#32 := rfl

/-- A fatal fault, with everything it writes spelled out (R109). -/
theorem State.raiseFatal_eq (s : State) (c : FaultCause) (i w : Word) :
    s.raiseFatal c i w = s.fatallyEnded ((causeNumber c).zeroExtend 32) i w := by
  simp only [State.raiseFatal, State.fatallyEnded, withFatal_eq]

theorem State.raiseFatal_alignment (s : State) (i w : Word) :
    s.raiseFatal .alignmentViolation i w = s.fatallyEnded 1#32 i w := State.raiseFatal_eq s .alignmentViolation i w
theorem State.raiseFatal_invalid (s : State) (i w : Word) :
    s.raiseFatal .invalidOperation i w = s.fatallyEnded 2#32 i w := State.raiseFatal_eq s .invalidOperation i w
theorem State.raiseFatal_illegal (s : State) (i w : Word) :
    s.raiseFatal .illegalCommand i w = s.fatallyEnded 3#32 i w := State.raiseFatal_eq s .illegalCommand i w

theorem aligned4K_iff {a : Word} : aligned4K a = true ↔ a.extractLsb' 0 12 = 0#12 := by simp [aligned4K]
theorem aligned4_iff {a : Word} : aligned4 a = true ↔ a.extractLsb' 0 2 = 0#2 := by simp [aligned4]

/-! ### The command word -/

/-- The command word as R55 writes it: `(IMM12 << 8) | OPC`. -/
theorem commandWord_eq (imm : BitVec 12) (opc : BitVec 8) :
    commandWord imm opc = opc.zeroExtend 32 ||| (imm.zeroExtend 32 <<< 8) := by
  unfold commandWord
  ext i hi
  simp only [BitVec.getElem_append, BitVec.truncate_eq_setWidth, BitVec.getElem_or, BitVec.getElem_setWidth, BitVec.getElem_shiftLeft]
  by_cases h8 : i < 8
  · simp [h8]
  · by_cases h20 : i - 8 < 12
    · simp [h8, h20, BitVec.getLsbD_of_ge opc i (by omega)]
    · simp [h8, h20, BitVec.getLsbD_of_ge opc i (by omega), BitVec.getLsbD_of_ge imm (i - 8) (by omega)]

@[simp] theorem opcOf_commandWord (imm : BitVec 12) (opc : BitVec 8) : opcOf (commandWord imm opc) = opc := by
  rw [commandWord_eq]
  unfold opcOf
  ext i hi
  simp [hi]
  omega

@[simp] theorem immOf_commandWord (imm : BitVec 12) (opc : BitVec 8) : immOf (commandWord imm opc) = imm := by
  rw [commandWord_eq]
  unfold immOf
  ext i hi
  have h1 : 8 + i - 8 = i := by omega
  have h2 : 8 + i < 32 := by omega
  simp [h1, h2, BitVec.getLsbD_eq_getElem hi]

@[simp] theorem rsvOf_commandWord (imm : BitVec 12) (opc : BitVec 8) : rsvOf (commandWord imm opc) = 0#12 := by
  rw [commandWord_eq]
  unfold rsvOf
  ext i hi
  simp only [BitVec.truncate_eq_setWidth, BitVec.getElem_extractLsb', BitVec.getLsbD_or, BitVec.getLsbD_setWidth,
    BitVec.getLsbD_shiftLeft, BitVec.getLsbD_of_ge opc (20 + i) (by omega), BitVec.getLsbD_of_ge imm (20 + i - 8) (by omega)]
  simp

end Sys2Proof.Machine
end

