-- ==== Sys2Proof/Laws/Bitmap.lean ====
section
/-! SUPPORT. The frame bitmap: where its words lie, what the bit writes change and leave, and what the two searches find
(spec/42_frame_bitmap.md R76 to R78). -/

namespace Sys2Proof.Machine

/-! ### Words of memory apart from each other -/

/-- A word store leaves a word alone that lies wholly below or above it. -/
theorem Memory.read32_write32_of_apart (m : Memory) (p q v : Word) (hp : p.toNat + 4 ≤ 4294967296) (hq : q.toNat + 4 ≤ 4294967296)
    (h : p.toNat + 4 ≤ q.toNat ∨ q.toNat + 4 ≤ p.toNat) : (m.write32 p v).read32 q = m.read32 q := by
  have key : ∀ a, (a = q ∨ a = q + 1#32 ∨ a = q + 2#32 ∨ a = q + 3#32) → (m.write32 p v).readByte a = m.readByte a := by
    intro a ha
    apply Memory.readByte_write32_of_ne <;> (rcases ha with rfl | rfl | rfl | rfl <;> bv_omega)
  simp only [Memory.read32]
  rw [key (q + 3#32) (by simp), key (q + 2#32) (by simp), key (q + 1#32) (by simp), key q (by simp)]

/-- The bytes of a word that does not run past the top lie at and just above its address. -/
theorem toNat_of_inWord {p a : Word} (hp : p.toNat + 4 ≤ 4294967296) (h : inWord p a) :
    p.toNat ≤ a.toNat ∧ a.toNat < p.toNat + 4 := by
  rcases h with rfl | rfl | rfl | rfl <;> constructor <;> bv_omega

/-! ### Where the bitmap lies -/

theorem State.bmWords_eq (s : State) : s.bmWords = (s.nframes.toNat + 31) / 32 := rfl

theorem State.bmCheck_iff (s : State) : s.bmCheck = true ↔ s.bitmapFits := by
  simp only [State.bmCheck, decide_eq_true_iff]
  exact Iff.rfl

theorem State.frameCount_le_bits (s : State) : s.frameCount ≤ 32 * s.bmWords := by
  simp only [State.bmWords_eq, State.frameCount]; omega

/-- Bitmap words lie in exact arithmetic where BMCHECK says they fit (R43, R44). -/
theorem State.bmWordAddr_toNat {s : State} (h : s.bitmapFits) {i : Nat} (hi : i < s.bmWords) :
    (s.bmWordAddr i).toNat = s.bmbase.toNat + 4 * i ∧ (s.bmWordAddr i).toNat + 4 ≤ 4294967296 := by
  have h' : s.bmbase.toNat + 4 * s.bmWords ≤ 4294967296 := h
  have e : (s.bmWordAddr i).toNat = s.bmbase.toNat + 4 * i := by
    simp only [State.bmWordAddr, BitVec.toNat_ofNat]
    omega
  exact ⟨e, by omega⟩

theorem State.bitWordAddr_toNat {s : State} (h : s.bitmapFits) {f : Nat} (hf : f < 32 * s.bmWords) :
    (s.bitWordAddr f).toNat = s.bmbase.toNat + 4 * (f / 32) ∧ (s.bitWordAddr f).toNat + 4 ≤ 4294967296 :=
  State.bmWordAddr_toNat h (by simp only [bmWordBits]; omega)

theorem State.bitmapWordOf_eq (s : State) (f : Nat) : s.bitmapWordOf f = s.bitWordAddr f := rfl

/-- The bytes of a frame's word lie in the bitmap. -/
theorem State.inBitmap_of_inWord {s : State} (h : s.bitmapFits) {f : Nat} (hf : f < 32 * s.bmWords) {a : Word}
    (ha : inWord (s.bitWordAddr f) a) : s.inBitmap a := by
  obtain ⟨e, l⟩ := State.bitWordAddr_toNat h hf
  have := toNat_of_inWord l ha
  simp only [State.bmWords_eq] at hf
  constructor <;> omega

/-! ### One bit written -/

theorem getLsbD_or_bitMask (w : Word) (f j : Nat) :
    (w ||| bitMaskOf f).getLsbD j = if j = f % 32 then true else w.getLsbD j := by
  have hf : f % 32 < 32 := Nat.mod_lt _ (by decide)
  simp only [bitMaskOf, bmWordBits, BitVec.getLsbD_or, BitVec.getLsbD_shiftLeft, BitVec.getLsbD_one]
  by_cases h : j = f % 32
  · simp [h, hf]
  · simp only [h, if_false]
    by_cases h' : j < f % 32
    · simp [h']
    · have : ¬ j - f % 32 = 0 := by omega
      simp [this]

theorem getLsbD_and_not_bitMask (w : Word) (f j : Nat) (hj : j < 32) :
    (w &&& ~~~bitMaskOf f).getLsbD j = if j = f % 32 then false else w.getLsbD j := by
  have hf : f % 32 < 32 := Nat.mod_lt _ (by decide)
  simp only [bitMaskOf, bmWordBits, BitVec.getLsbD_and, BitVec.getLsbD_not, BitVec.getLsbD_shiftLeft, BitVec.getLsbD_one]
  by_cases h : j = f % 32
  · simp [h, hf]
  · simp only [h, if_false]
    by_cases h' : j < f % 32
    · simp [h', hj]
    · have : ¬ j - f % 32 = 0 := by omega
      simp [this, hj]

/-- After a store to the word of frame `f`, the bits of that word are the stored word's and all other bits stay. -/
theorem State.bit_memWrite32 {s : State} (h : s.bitmapFits) {f g : Nat} (hf : f < 32 * s.bmWords) (hg : g < 32 * s.bmWords)
    (w : Word) : (s.memWrite32 (s.bitWordAddr f) w).bit g = if g / 32 = f / 32 then w.getLsbD (g % 32) else s.bit g := by
  obtain ⟨ef, lf⟩ := State.bitWordAddr_toNat h hf
  obtain ⟨eg, lg⟩ := State.bitWordAddr_toNat h hg
  show ((s.mem.write32 (s.bitWordAddr f) w).read32 (s.bitWordAddr g)).getLsbD (g % 32) = _
  split
  · next e =>
    have : s.bitWordAddr g = s.bitWordAddr f := by simp only [State.bitWordAddr, bmWordBits, e]
    rw [this, Memory.read32_write32_same]
  · next e =>
    rw [Memory.read32_write32_of_apart _ _ _ _ lf lg (by omega)]
    rfl

/-- `setbit(f)` sets frame `f`'s bit and no other (R76). -/
theorem State.bit_setBit {s : State} (h : s.bitmapFits) {f g : Nat} (hf : f < 32 * s.bmWords) (hg : g < 32 * s.bmWords) :
    (s.setBit f).bit g = if g = f then true else s.bit g := by
  rw [State.setBit, State.bit_memWrite32 h hf hg]
  split
  · next e =>
    rw [getLsbD_or_bitMask]
    by_cases hgf : g = f
    · simp [hgf]
    · have : ¬ g % 32 = f % 32 := by omega
      simp only [this, hgf, if_false]
      simp only [State.bit, State.bitWordAddr, bmWordBits, e]
  · next e =>
    have : ¬ g = f := by rintro rfl; exact e rfl
    simp [this]

/-- `clrbit(f)` clears frame `f`'s bit and no other (R76). -/
theorem State.bit_clearBit {s : State} (h : s.bitmapFits) {f g : Nat} (hf : f < 32 * s.bmWords) (hg : g < 32 * s.bmWords) :
    (s.clearBit f).bit g = if g = f then false else s.bit g := by
  rw [State.clearBit, State.bit_memWrite32 h hf hg]
  split
  · next e =>
    rw [getLsbD_and_not_bitMask _ _ _ (Nat.mod_lt _ (by decide))]
    by_cases hgf : g = f
    · simp [hgf]
    · have : ¬ g % 32 = f % 32 := by omega
      simp only [this, hgf, if_false]
      simp only [State.bit, State.bitWordAddr, bmWordBits, e]
  · next e =>
    have : ¬ g = f := by rintro rfl; exact e rfl
    simp [this]

/-- A word store changes no byte outside its word. -/
theorem State.readByte_memWrite32 {s : State} {pa v a : Word} (h : ¬ inWord pa a) :
    (s.memWrite32 pa v).mem.readByte a = s.mem.readByte a := by
  simp only [inWord, not_or] at h
  exact Memory.readByte_write32_of_ne _ _ _ _ h.1 h.2.1 h.2.2.1 h.2.2.2

theorem State.readByte_setBit {s : State} {f : Nat} {a : Word} (h : ¬ inWord (s.bitWordAddr f) a) :
    (s.setBit f).mem.readByte a = s.mem.readByte a := State.readByte_memWrite32 h

theorem State.readByte_clearBit {s : State} {f : Nat} {a : Word} (h : ¬ inWord (s.bitWordAddr f) a) :
    (s.clearBit f).mem.readByte a = s.mem.readByte a := State.readByte_memWrite32 h

/-! ### Ranges of bits written -/

/-- Setting a range of bits changes memory only. -/
theorem State.setBits_eq (s : State) (first n : Nat) : s.setBits first n = { s with mem := (s.setBits first n).mem } := by
  induction n with
  | zero => rfl
  | succ n ih =>
    simp only [State.setBits]
    rw [ih]
    rfl

/-- Clearing a range of bits changes memory only. -/
theorem State.clearBits_eq (s : State) (first n : Nat) : s.clearBits first n = { s with mem := (s.clearBits first n).mem } := by
  induction n with
  | zero => rfl
  | succ n ih =>
    simp only [State.clearBits]
    rw [ih]
    rfl

theorem State.setBits_bmWords (s : State) (first n : Nat) : (s.setBits first n).bmWords = s.bmWords := by
  rw [State.setBits_eq]; rfl
theorem State.setBits_bitWordAddr (s : State) (first n f : Nat) : (s.setBits first n).bitWordAddr f = s.bitWordAddr f := by
  rw [State.setBits_eq]; rfl
theorem State.setBits_fits (s : State) (first n : Nat) : (s.setBits first n).bitmapFits ↔ s.bitmapFits := by
  rw [State.setBits_eq]
theorem State.clearBits_bmWords (s : State) (first n : Nat) : (s.clearBits first n).bmWords = s.bmWords := by
  rw [State.clearBits_eq]; rfl
theorem State.clearBits_bitWordAddr (s : State) (first n f : Nat) : (s.clearBits first n).bitWordAddr f = s.bitWordAddr f := by
  rw [State.clearBits_eq]; rfl
theorem State.clearBits_fits (s : State) (first n : Nat) : (s.clearBits first n).bitmapFits ↔ s.bitmapFits := by
  rw [State.clearBits_eq]

/-- The bits after a range is set: exactly those of the range are 1 (R81, R88). -/
theorem State.bit_setBits {s : State} (h : s.bitmapFits) {first n g : Nat} (hn : first + n ≤ 32 * s.bmWords)
    (hg : g < 32 * s.bmWords) : (s.setBits first n).bit g = if first ≤ g ∧ g < first + n then true else s.bit g := by
  induction n with
  | zero => simp only [State.setBits]; rw [if_neg (by omega)]
  | succ n ih =>
    have hw := State.setBits_bmWords s first n
    simp only [State.setBits]
    rw [State.bit_setBit ((State.setBits_fits s first n).mpr h) (by omega) (by omega), ih (by omega)]
    by_cases e : g = first + n
    · simp [e]
    · by_cases e' : first ≤ g ∧ g < first + n
      · rw [if_neg e, if_pos e', if_pos (by omega)]
      · rw [if_neg e, if_neg e', if_neg (by omega)]

/-- The bits after a range is cleared: exactly those of the range are 0 (R80). -/
theorem State.bit_clearBits {s : State} (h : s.bitmapFits) {first n g : Nat} (hn : first + n ≤ 32 * s.bmWords)
    (hg : g < 32 * s.bmWords) : (s.clearBits first n).bit g = if first ≤ g ∧ g < first + n then false else s.bit g := by
  induction n with
  | zero => simp only [State.clearBits]; rw [if_neg (by omega)]
  | succ n ih =>
    have hw := State.clearBits_bmWords s first n
    simp only [State.clearBits]
    rw [State.bit_clearBit ((State.clearBits_fits s first n).mpr h) (by omega) (by omega), ih (by omega)]
    by_cases e : g = first + n
    · simp [e]
    · by_cases e' : first ≤ g ∧ g < first + n
      · rw [if_neg e, if_pos e', if_pos (by omega)]
      · rw [if_neg e, if_neg e', if_neg (by omega)]

/-- Setting a range of bits writes no byte outside the bitmap (R76). -/
theorem State.readByte_setBits {s : State} (h : s.bitmapFits) {first n : Nat} (hn : first + n ≤ 32 * s.bmWords) {a : Word}
    (ha : ¬ s.inBitmap a) : (s.setBits first n).mem.readByte a = s.mem.readByte a := by
  induction n with
  | zero => rfl
  | succ n ih =>
    simp only [State.setBits]
    rw [State.readByte_setBit, ih (by omega)]
    rw [State.setBits_bitWordAddr]
    exact fun hw => ha (State.inBitmap_of_inWord h (by omega) hw)

/-- Clearing a range of bits writes no byte outside the bitmap (R76). -/
theorem State.readByte_clearBits {s : State} (h : s.bitmapFits) {first n : Nat} (hn : first + n ≤ 32 * s.bmWords) {a : Word}
    (ha : ¬ s.inBitmap a) : (s.clearBits first n).mem.readByte a = s.mem.readByte a := by
  induction n with
  | zero => rfl
  | succ n ih =>
    simp only [State.clearBits]
    rw [State.readByte_clearBit, ih (by omega)]
    rw [State.clearBits_bitWordAddr]
    exact fun hw => ha (State.inBitmap_of_inWord h (by omega) hw)

/-! ### The whole bitmap written -/

/-- Filling the bitmap changes memory only. -/
theorem State.fillBitmap_eq (s : State) (n : Nat) : s.fillBitmap n = { s with mem := (s.fillBitmap n).mem } := by
  induction n with
  | zero => rfl
  | succ n ih =>
    simp only [State.fillBitmap]
    rw [ih]
    rfl

/-- After the first `n` words are filled, each of them is all ones (R79). -/
theorem State.read32_fillBitmap {s : State} (h : s.bitmapFits) {n i : Nat} (hn : n ≤ s.bmWords) (hi : i < n) :
    (s.fillBitmap n).mem.read32 (s.bmWordAddr i) = fullWord := by
  induction n with
  | zero => omega
  | succ n ih =>
    obtain ⟨en, ln⟩ := State.bmWordAddr_toNat h (i := n) (by omega)
    obtain ⟨ei, li⟩ := State.bmWordAddr_toNat h (i := i) (by omega)
    simp only [State.fillBitmap, State.memWrite32_mem]
    by_cases e : i = n
    · subst e
      exact Memory.read32_write32_same _ _ _
    · rw [Memory.read32_write32_of_apart _ _ _ _ ln li (by omega)]
      exact ih (by omega) (by omega)

/-- Filling the bitmap writes no byte outside it (R76). -/
theorem State.readByte_fillBitmap {s : State} (h : s.bitmapFits) {n : Nat} (hn : n ≤ s.bmWords) {a : Word}
    (ha : ¬ s.inBitmap a) : (s.fillBitmap n).mem.readByte a = s.mem.readByte a := by
  induction n with
  | zero => rfl
  | succ n ih =>
    simp only [State.fillBitmap]
    rw [State.readByte_memWrite32, ih (by omega)]
    intro hw
    obtain ⟨en, ln⟩ := State.bmWordAddr_toNat h (i := n) (by omega)
    have := toNat_of_inWord ln hw
    have hb := State.bmWords_eq s
    exact ha ⟨by omega, by omega⟩

/-! ### The single-frame search -/

/-- What the bit-by-bit scan of the last `r` bits of a word finds (R77). -/
theorem scanBits_spec (w : Word) (nf i : Nat) {r : Nat} (hr : r ≤ 32) :
    match scanBits w nf i r with
    | .free f => ∃ j, 32 - r ≤ j ∧ j < 32 ∧ f = 32 * i + j ∧ f < nf ∧ w.getLsbD j = false ∧
        ∀ k, 32 - r ≤ k → k < j → w.getLsbD k = true
    | .pastEnd => ∃ j, 32 - r ≤ j ∧ j < 32 ∧ nf ≤ 32 * i + j ∧ ∀ k, 32 - r ≤ k → k < j → w.getLsbD k = true
    | .noZero => ∀ k, 32 - r ≤ k → k < 32 → w.getLsbD k = true := by
  induction r with
  | zero => simp only [scanBits]; omega
  | succ r ih =>
    have ih := ih (by omega)
    simp only [scanBits, bmWordBits]
    by_cases h1 : nf ≤ 32 * i + (32 - (r + 1))
    · simp only [h1, if_true]
      exact ⟨32 - (r + 1), by omega, by omega, h1, by omega⟩
    · simp only [h1, if_false]
      by_cases h2 : w.getLsbD (32 - (r + 1)) = false
      · simp only [h2, if_true]
        exact ⟨32 - (r + 1), by omega, by omega, rfl, by omega, h2, by omega⟩
      · simp only [h2]
        have h2' : w.getLsbD (32 - (r + 1)) = true := by simpa using h2
        have ext : ∀ k m, 32 - (r + 1) ≤ k → k < m → (∀ k, 32 - r ≤ k → k < m → w.getLsbD k = true) → w.getLsbD k = true := by
          intro k m hk hm hall
          by_cases e : k = 32 - (r + 1)
          · rw [e]; exact h2'
          · exact hall k (by omega) hm
        split at ih <;> rename_i heq <;> simp only [heq]
        · obtain ⟨j, a1, a2, a3, a4, a5, a6⟩ := ih
          exact ⟨j, by omega, a2, a3, a4, a5, fun k hk hkj => ext k j hk hkj a6⟩
        · obtain ⟨j, a1, a2, a3, a4⟩ := ih
          exact ⟨j, by omega, a2, a3, fun k hk hkj => ext k j hk hkj a4⟩
        · exact fun k hk hk32 => ext k 32 hk hk32 ih

theorem State.bit_eq_word (s : State) {i j : Nat} (hj : j < 32) :
    s.bit (32 * i + j) = (s.memRead32 (s.bmWordAddr i)).getLsbD j := by
  have h1 : (32 * i + j) / 32 = i := by omega
  have h2 : (32 * i + j) % 32 = j := by omega
  simp only [State.bit, State.bitWordAddr, bmWordBits, h1, h2]

/-- What the word-by-word scan finds from word `i` on (R77). -/
theorem State.firstFreeFrom_spec (s : State) (r i : Nat) :
    match s.firstFreeFrom r i with
    | some f => 32 * i ≤ f ∧ f < s.frameCount ∧ s.bit f = false ∧ ∀ g, 32 * i ≤ g → g < f → s.bit g = true
    | none => ∀ g, 32 * i ≤ g → g < 32 * (i + r) → g < s.frameCount → s.bit g = true := by
  induction r generalizing i with
  | zero => simp only [State.firstFreeFrom]; omega
  | succ r ih =>
    have ih := ih (i + 1)
    have glue : ∀ m, (∀ k, k < 32 → (s.memRead32 (s.bmWordAddr i)).getLsbD k = true) →
        (∀ g, 32 * (i + 1) ≤ g → g < m → s.bit g = true) → ∀ g, 32 * i ≤ g → g < m → s.bit g = true := by
      intro m hw hall g hg hm
      by_cases e : g < 32 * (i + 1)
      · have := s.bit_eq_word (i := i) (j := g - 32 * i) (by omega)
        rw [show 32 * i + (g - 32 * i) = g by omega] at this
        rw [this]; exact hw _ (by omega)
      · exact hall g (by omega) hm
    have next : (∀ k, k < 32 → (s.memRead32 (s.bmWordAddr i)).getLsbD k = true) →
        match s.firstFreeFrom r (i + 1) with
        | some f => 32 * i ≤ f ∧ f < s.frameCount ∧ s.bit f = false ∧ ∀ g, 32 * i ≤ g → g < f → s.bit g = true
        | none => ∀ g, 32 * i ≤ g → g < 32 * (i + (r + 1)) → g < s.frameCount → s.bit g = true := by
      intro hw
      split at ih
      · exact ⟨by omega, ih.2.1, ih.2.2.1, glue _ hw ih.2.2.2⟩
      · intro g h1 h2 h3
        by_cases e : g < 32 * (i + 1)
        · exact glue (32 * (i + 1)) hw (by omega) g h1 e
        · exact ih g (by omega) (by omega) h3
    simp only [State.firstFreeFrom]
    by_cases hfull : s.memRead32 (s.bmWordAddr i) = fullWord
    · simp only [hfull, if_true]
      apply next
      intro k hk
      rw [hfull]
      interval_cases k <;> decide
    · simp only [hfull, if_false]
      have sp := scanBits_spec (s.memRead32 (s.bmWordAddr i)) s.frameCount i (r := bmWordBits) (by decide)
      generalize scanBits (s.memRead32 (s.bmWordAddr i)) s.frameCount i bmWordBits = found at sp ⊢
      cases found with
      | free f =>
        obtain ⟨j, a1, a2, a3, a4, a5, a6⟩ := sp
        subst a3
        refine ⟨by omega, a4, by rw [s.bit_eq_word a2, a5], fun g h1 h2 => ?_⟩
        have := s.bit_eq_word (i := i) (j := g - 32 * i) (by omega)
        rw [show 32 * i + (g - 32 * i) = g by omega] at this
        rw [this]; exact a6 _ (by have : bmWordBits = 32 := rfl; omega) (by omega)
      | pastEnd =>
        obtain ⟨j, a1, a2, a3, a4⟩ := sp
        intro g h1 h2 h3
        have := s.bit_eq_word (i := i) (j := g - 32 * i) (by omega)
        rw [show 32 * i + (g - 32 * i) = g by omega] at this
        rw [this]; exact a4 _ (by have : bmWordBits = 32 := rfl; omega) (by omega)
      | noZero => exact next (fun k hk => sp k (by have : bmWordBits = 32 := rfl; omega) hk)

/-- What the single-frame search answers: the least free frame, or none where every frame is in use (R77). -/
theorem State.firstFree_cases (s : State) :
    (∃ f, s.firstFree = some f ∧ s.leastFree f) ∨ (s.firstFree = none ∧ s.noFree) := by
  have sp := s.firstFreeFrom_spec s.bmWords 0
  have hle := s.frameCount_le_bits
  unfold State.firstFree
  split at sp <;> rename_i heq
  · exact .inl ⟨_, heq, sp.2.1, sp.2.2.1, fun g hg => sp.2.2.2 g (by omega) hg⟩
  · refine .inr ⟨heq, fun f hf => sp f (by omega) ?_ hf⟩
    have : f < s.frameCount := hf
    omega

theorem State.leastFree_unique {s : State} {f g : Nat} (hf : s.leastFree f) (hg : s.leastFree g) : f = g := by
  rcases lt_trichotomy f g with h | h | h
  · have := hg.2.2 f h; rw [hf.2.1] at this; cases this
  · exact h
  · have := hf.2.2 g h; rw [hg.2.1] at this; cases this

theorem State.firstFree_of_leastFree {s : State} {f : Nat} (h : s.leastFree f) : s.firstFree = some f := by
  rcases s.firstFree_cases with ⟨g, e, hg⟩ | ⟨-, hn⟩
  · rw [e, State.leastFree_unique h hg]
  · have := hn f h.1; rw [h.2.1] at this; cases this

theorem State.firstFree_of_noFree {s : State} (h : s.noFree) : s.firstFree = none := by
  rcases s.firstFree_cases with ⟨g, -, hg⟩ | ⟨e, -⟩
  · have := h g hg.1; rw [hg.2.1] at this; cases this
  · exact e

/-! ### The run search -/

/-- What the run search finds, `run` free frames standing just before `f` and no run starting before them (R78). -/
theorem State.firstRunFrom_spec (s : State) {n : Nat} (r f run : Nat) (hr : f + r = s.frameCount) (h1 : run < n) (h2 : run ≤ f)
    (h3 : ∀ g, f - run ≤ g → g < f → s.bit g = false) (h4 : ∀ g, g < f - run → ¬ s.freeRun n g) :
    match s.firstRunFrom n r f run with
    | some g => s.leastRun n g
    | none => ∀ g, ¬ s.freeRun n g := by
  induction r generalizing f run with
  | zero =>
    simp only [State.firstRunFrom]
    intro g hg
    by_cases e : g < f - run
    · exact h4 g e hg
    · have := hg.1
      have : s.frameCount = s.nframes.toNat := rfl
      omega
  | succ r ih =>
    simp only [State.firstRunFrom]
    by_cases hb : s.bit f = false
    · simp only [hb, if_true]
      by_cases hn : run + 1 = n
      · simp only [hn, if_true]
        have e : f + 1 - n = f - run := by omega
        rw [e]
        refine ⟨⟨?_, fun g hg1 hg2 => ?_⟩, h4⟩
        · have : s.frameCount = s.nframes.toNat := rfl
          omega
        · by_cases e : g = f
          · rw [e]; exact hb
          · exact h3 g hg1 (by omega)
      · simp only [hn, if_false]
        refine ih (f + 1) (run + 1) (by omega) (by omega) (by omega) (fun g hg1 hg2 => ?_) (fun g hg => h4 g (by omega))
        by_cases e : g = f
        · rw [e]; exact hb
        · exact h3 g (by omega) (by omega)
    · simp only [hb]
      refine ih (f + 1) 0 (by omega) (by omega) (by omega) (fun g hg1 hg2 => by omega) (fun g hg hrun => ?_)
      by_cases e : g < f - run
      · exact h4 g e hrun
      · exact hb (hrun.2 f (by omega) (by omega))

/-- What the run search answers for a count of at least 1: the lowest run, or none where there is none (R78). -/
theorem State.firstRun_cases (s : State) {n : Nat} (hn : n ≠ 0) :
    (∃ f, s.firstRun n = some f ∧ s.leastRun n f) ∨ (s.firstRun n = none ∧ ∀ f, ¬ s.freeRun n f) := by
  have sp := s.firstRunFrom_spec (n := n) s.frameCount 0 0 (by omega) (by omega) (by omega) (fun g h1 h2 => by omega)
    (fun g hg => by omega)
  simp only [State.firstRun, hn, if_false]
  split at sp <;> rename_i heq
  · exact .inl ⟨_, heq, sp⟩
  · exact .inr ⟨heq, sp⟩

/-- A count of 0 finds nothing (R78). -/
theorem State.firstRun_zero (s : State) : s.firstRun 0 = none := by simp [State.firstRun]

theorem State.firstRun_of_leastRun {s : State} {n f : Nat} (hn : n ≠ 0) (h : s.leastRun n f) : s.firstRun n = some f := by
  rcases s.firstRun_cases hn with ⟨g, e, hg⟩ | ⟨-, hno⟩
  · rcases lt_trichotomy f g with hlt | rfl | hlt
    · exact absurd h.1 (hg.2 f hlt)
    · exact e
    · exact absurd hg.1 (h.2 g hlt)
  · exact absurd h.1 (hno f)

theorem State.firstRun_of_none {s : State} {n : Nat} (h : ∀ f, ¬ s.freeRun n f) : s.firstRun n = none := by
  by_cases hn : n = 0
  · rw [hn]; exact s.firstRun_zero
  · rcases s.firstRun_cases hn with ⟨g, -, hg⟩ | ⟨e, -⟩
    · exact absurd hg.1 (h g)
    · exact e

end Sys2Proof.Machine
end

