-- ==== Sys2Proof/Laws/PerInstr.lean ====
section
/-! SUPPORT. Per-instruction law: the fields of the command word an instruction encodes to (spec/30_encoding.md R55, R58). -/

namespace Sys2Proof.Laws.EncodedFields

/-- The fields of the instruction's command word: its opcode, its immediate, reserved bits 0. -/
def Statement (i : Instr) : Prop := opcOf i.word = i.opc ∧ immOf i.word = i.imm ∧ rsvOf i.word = 0#12

/-- The fields of a word built from an immediate and an opcode. -/
theorem ofCommandWord {i : Instr} (h : i.word = commandWord i.imm i.opc) : Statement i := by
  unfold Statement
  rw [h]
  exact ⟨Machine.opcOf_commandWord _ _, Machine.immOf_commandWord _ _, Machine.rsvOf_commandWord _ _⟩

theorem entPack (a : BitVec 12) (b : Word) : Statement (.entPack a b) := ofCommandWord rfl
theorem entSetframe (a : Word) (b : Word) : Statement (.entSetframe a b) := ofCommandWord rfl
theorem entGetframe (a : Word) : Statement (.entGetframe a) := ofCommandWord rfl
theorem entGetpfn (a : Word) : Statement (.entGetpfn a) := ofCommandWord rfl
theorem entGetflags (a : Word) : Statement (.entGetflags a) := ofCommandWord rfl
theorem entAdd (a : BitVec 12) (b : Word) : Statement (.entAdd a b) := ofCommandWord rfl
theorem entDel (a : BitVec 12) (b : Word) : Statement (.entDel a b) := ofCommandWord rfl
theorem entTest (a : BitVec 12) (b : Word) : Statement (.entTest a b) := ofCommandWord rfl
theorem entLd (a : Word) : Statement (.entLd a) := ofCommandWord rfl
theorem entSt (a : Word) (b : Word) : Statement (.entSt a b) := ofCommandWord rfl
theorem bmSetall : Statement .bmSetall := ofCommandWord rfl
theorem bmFreereg (a : Word) (b : Word) : Statement (.bmFreereg a b) := ofCommandWord rfl
theorem bmRsvreg (a : Word) (b : Word) : Statement (.bmRsvreg a b) := ofCommandWord rfl
theorem bmTest (a : Word) : Statement (.bmTest a) := ofCommandWord rfl
theorem bmMark (a : Word) : Statement (.bmMark a) := ofCommandWord rfl
theorem bmFree (a : Word) : Statement (.bmFree a) := ofCommandWord rfl
theorem bmFind : Statement .bmFind := ofCommandWord rfl
theorem bmFindrun (a : Word) : Statement (.bmFindrun a) := ofCommandWord rfl
theorem bmAlloc : Statement .bmAlloc := ofCommandWord rfl
theorem bmAllocrun (a : Word) : Statement (.bmAllocrun a) := ofCommandWord rfl
theorem pgEnable (a : Word) : Statement (.pgEnable a) := ofCommandWord rfl
theorem vaDir (a : Word) : Statement (.vaDir a) := ofCommandWord rfl
theorem vaTbl (a : Word) : Statement (.vaTbl a) := ofCommandWord rfl
theorem walk (a : Word) : Statement (.walk a) := ofCommandWord rfl
theorem xlate (a : Word) : Statement (.xlate a) := ofCommandWord rfl
theorem map (a : Word) (b : Word) : Statement (.map a b) := ofCommandWord rfl
theorem unmap (a : Word) : Statement (.unmap a) := ofCommandWord rfl
theorem pageAlloc (a : Word) : Statement (.pageAlloc a) := ofCommandWord rfl
theorem pageFree (a : Word) : Statement (.pageFree a) := ofCommandWord rfl
theorem invlpg (a : Word) : Statement (.invlpg a) := ofCommandWord rfl
theorem crRd (a : BitVec 12) : Statement (.crRd a) := ofCommandWord rfl
theorem crWr (a : BitVec 12) (b : Word) : Statement (.crWr a b) := ofCommandWord rfl

end Sys2Proof.Laws.EncodedFields
end

