-- ==== Sys2Proof/Laws/Tlb.lean ====
section
/-! SUPPORT. The TLB: what its primitives leave in it, and that each of them keeps it legal. -/

namespace Sys2Proof.Machine

theorem Tlb.mem_remove {t : Tlb} {v : BitVec 20} {e : TlbEntry} : e ∈ t.remove v ↔ e ∈ t ∧ e.vpn ≠ v := by
  simp [Tlb.remove]

theorem Tlb.lookup_eq_none {t : Tlb} {v : BitVec 20} : t.lookup v = none ↔ ∀ e ∈ t, e.vpn ≠ v := by
  induction t with
  | nil => simp [Tlb.lookup]
  | cons x t ih =>
    simp only [Tlb.lookup]
    split
    · next h => simp [h]
    · next h => simp [ih, h]

theorem Tlb.mem_of_lookup {t : Tlb} {v : BitVec 20} {p : Word} (h : t.lookup v = some p) :
    ∃ e ∈ t, e.vpn = v ∧ e.pte = p := by
  induction t with
  | nil => simp [Tlb.lookup] at h
  | cons x t ih =>
    simp only [Tlb.lookup] at h
    split at h
    · next hx => exact ⟨x, by simp, hx, by simpa using h⟩
    · obtain ⟨e, he, h1, h2⟩ := ih h
      exact ⟨e, by simp [he], h1, h2⟩

/-- After `TLB.remove(vpn)` no entry for the page is left (R10). -/
@[simp] theorem Tlb.lookup_remove (t : Tlb) (v : BitVec 20) : (t.remove v).lookup v = none :=
  Tlb.lookup_eq_none.mpr fun _ he => (Tlb.mem_remove.mp he).2

theorem Tlb.mem_insertSorted {t : Tlb} {x e : TlbEntry} : e ∈ t.insertSorted x ↔ e = x ∨ e ∈ t := by
  induction t with
  | nil => simp [Tlb.insertSorted]
  | cons y t ih =>
    simp only [Tlb.insertSorted]
    split
    · simp
    · simp only [List.mem_cons, ih]; tauto

theorem Tlb.length_insertSorted (t : Tlb) (x : TlbEntry) : (t.insertSorted x).length = t.length + 1 := by
  induction t with
  | nil => rfl
  | cons y t ih => simp only [Tlb.insertSorted]; split <;> simp [ih]

theorem Tlb.mem_insert {t : Tlb} {x e : TlbEntry} : e ∈ t.insert x ↔ e = x ∨ (e ∈ t ∧ e.vpn ≠ x.vpn) := by
  simp [Tlb.insert, Tlb.mem_insertSorted, Tlb.mem_remove]

theorem Tlb.length_insert_le (t : Tlb) (x : TlbEntry) : (t.insert x).length ≤ t.length + 1 := by
  simp only [Tlb.insert, Tlb.length_insertSorted, Tlb.remove]
  have := List.length_filter_le (fun e : TlbEntry => e.vpn != x.vpn) t
  omega

theorem Tlb.pairwise_insertSorted {t : Tlb} {x : TlbEntry} (h : t.Pairwise (fun x y => x.vpn < y.vpn))
    (hne : ∀ e ∈ t, e.vpn ≠ x.vpn) : (t.insertSorted x).Pairwise (fun x y => x.vpn < y.vpn) := by
  induction t with
  | nil => simp [Tlb.insertSorted]
  | cons y t ih =>
    rw [List.pairwise_cons] at h
    simp only [Tlb.insertSorted]
    split
    · next hlt =>
      refine List.pairwise_cons.mpr ⟨fun e he => ?_, List.pairwise_cons.mpr h⟩
      rcases List.mem_cons.mp he with rfl | he
      · exact hlt
      · have := h.1 e he; bv_omega
    · next hlt =>
      refine List.pairwise_cons.mpr ⟨fun e he => ?_, ih h.2 (fun e he => hne e (by simp [he]))⟩
      rcases Tlb.mem_insertSorted.mp he with rfl | he
      · have := hne y (by simp)
        bv_omega
      · exact h.1 e he

theorem Tlb.pairwise_insert {t : Tlb} {x : TlbEntry} (h : t.Pairwise (fun x y => x.vpn < y.vpn)) :
    (t.insert x).Pairwise (fun x y => x.vpn < y.vpn) :=
  Tlb.pairwise_insertSorted (h.sublist List.filter_sublist) fun _ he => (Tlb.mem_remove.mp he).2

theorem Tlb.wf_nil : Tlb.wf [] := ⟨List.Pairwise.nil, by simp, Nat.zero_le _⟩

/-- Dropping any entries leaves a legal TLB. -/
theorem Tlb.wf_filter {t : Tlb} (h : t.wf) (p : TlbEntry → Bool) : Tlb.wf (t.filter p) :=
  ⟨h.1.sublist List.filter_sublist, fun e he => h.2.1 e (List.mem_filter.mp he).1,
    le_trans (List.length_filter_le p t) h.2.2⟩

theorem Tlb.wf_remove {t : Tlb} (h : t.wf) (v : BitVec 20) : (t.remove v).wf := Tlb.wf_filter h _
theorem Tlb.wf_evict {t : Tlb} (h : t.wf) (n : Nat) : (t.evict n).wf := Tlb.wf_filter h _

/-- Everything `TLB.maybe_fill` can do (R30): nothing, insert where there is room, or drop one entry and insert. -/
theorem Tlb.maybeFill_cases (t : Tlb) (c : FillChoice) (v : BitVec 20) (p : Word) :
    t.maybeFill c v p = t ∨
    (t.length < Config.tlbEntries ∧ t.lookup v = none ∧ t.maybeFill c v p = t.insert ⟨v, p⟩) ∨
    (0 < Config.tlbEntries ∧ ∃ e ∈ t, t.maybeFill c v p = (t.remove e.vpn).insert ⟨v, p⟩) := by
  cases c with
  | keep => exact .inl rfl
  | insert =>
    simp only [Tlb.maybeFill]
    split
    · next h => exact .inr (.inl ⟨h.1, h.2, rfl⟩)
    · exact .inl rfl
  | replace k =>
    simp only [Tlb.maybeFill]
    split
    · exact .inl rfl
    · next h0 =>
      split
      · next e he => exact .inr (.inr ⟨Nat.pos_of_ne_zero h0, e, List.mem_of_getElem? he, rfl⟩)
      · exact .inl rfl

/-- `TLB.maybe_fill` with a present PTE keeps the TLB legal (R28, R30). -/
theorem Tlb.wf_maybeFill {t : Tlb} (h : t.wf) (c : FillChoice) (v : BitVec 20) {p : Word} (hp : p.getLsbD 0 = true) :
    (t.maybeFill c v p).wf := by
  rcases Tlb.maybeFill_cases t c v p with e | ⟨hl, -, e⟩ | ⟨-, x, hx, e⟩ <;> rw [e]
  · exact h
  · refine ⟨Tlb.pairwise_insert h.1, fun y hy => ?_, le_trans (Tlb.length_insert_le _ _) hl⟩
    rcases Tlb.mem_insert.mp hy with rfl | hy
    · exact hp
    · exact h.2.1 y hy.1
  · have hr := Tlb.wf_remove h x.vpn
    have hlt : (t.remove x.vpn).length < t.length := by
      unfold Tlb.remove
      exact List.length_filter_lt_length_iff_exists.mpr ⟨x, hx, by simp⟩
    refine ⟨Tlb.pairwise_insert hr.1, fun y hy => ?_, le_trans (Tlb.length_insert_le _ _) (le_trans hlt h.2.2)⟩
    rcases Tlb.mem_insert.mp hy with rfl | hy
    · exact hp
    · exact hr.2.1 y hy.1

end Sys2Proof.Machine
end

