-- ==== Sys2Proof/Laws/Walk.lean ====
section
/-! SUPPORT. Entries and the walker's shared procedures: the fields of a remapped entry, where entries lie, what `Walk`, `EnsureTable` and
`SetPte` answer (spec/20_memory.md R42, R46; spec/43_page_walker.md R90 to R92). -/

namespace Sys2Proof.Machine

/-! ### Frame addresses and entries -/

theorem and_frameMask_toNat (a : Word) : (a &&& 0xFFFFF000#32).toNat = a.toNat / 4096 * 4096 := by
  have h : a &&& 0xFFFFF000#32 = (a >>> 12) <<< 12 := by
    ext i hi
    interval_cases i <;> simp
  rw [h, BitVec.toNat_shiftLeft, BitVec.toNat_ushiftRight, Nat.shiftRight_eq_div_pow, Nat.shiftLeft_eq]
  have := a.isLt
  omega

theorem and_flagMask_toNat (a : Word) : (a &&& 0xFFF#32).toNat = a.toNat % 4096 := by
  rw [BitVec.toNat_and]
  exact Nat.and_two_pow_sub_one_eq_mod a.toNat 12

/-- A multiple of 4096 as a number. -/
theorem aligned4K_toNat {a : Word} : a.extractLsb' 0 12 = 0#12 ↔ a.toNat % 4096 = 0 := by
  constructor
  · intro h
    have := congrArg BitVec.toNat h
    simpa [BitVec.extractLsb'_toNat] using this
  · intro h
    apply BitVec.eq_of_toNat_eq
    simpa [BitVec.extractLsb'_toNat] using h

/-- A multiple of 4 as a number. -/
theorem aligned4_toNat {a : Word} : a.extractLsb' 0 2 = 0#2 ↔ a.toNat % 4 = 0 := by
  constructor
  · intro h
    have := congrArg BitVec.toNat h
    simpa [BitVec.extractLsb'_toNat] using this
  · intro h
    apply BitVec.eq_of_toNat_eq
    simpa [BitVec.extractLsb'_toNat] using h

theorem and_frameMask_aligned (a : Word) : (a &&& 0xFFFFF000#32).extractLsb' 0 12 = 0#12 := by
  rw [aligned4K_toNat, and_frameMask_toNat]; omega

theorem and_frameMask_of_aligned {a : Word} (h : a.extractLsb' 0 12 = 0#12) : a &&& 0xFFFFF000#32 = a := by
  apply BitVec.eq_of_toNat_eq
  rw [and_frameMask_toNat]
  have := aligned4K_toNat.mp h
  omega

/-- Which bytes lie in the frame at an aligned address. -/
theorem frame_eq_iff {a base : Word} (h : base.extractLsb' 0 12 = 0#12) :
    a &&& 0xFFFFF000#32 = base ↔ base.toNat ≤ a.toNat ∧ a.toNat < base.toNat + 4096 := by
  have hb := aligned4K_toNat.mp h
  rw [← BitVec.toNat_inj, and_frameMask_toNat]
  omega

theorem frameAddr_toNat {f : Nat} (h : f < 1048576) : (frameAddr f).toNat = f * 4096 := by
  simp only [frameAddr, pageSize, BitVec.toNat_ofNat]
  omega

theorem frameAddr_aligned {f : Nat} (h : f < 1048576) : (frameAddr f).extractLsb' 0 12 = 0#12 := by
  rw [aligned4K_toNat, frameAddr_toNat h]; omega

theorem frameIndex_frameAddr {f : Nat} (h : f < 1048576) : frameIndex (frameAddr f) = f := by
  simp only [frameIndex, BitVec.toNat_ushiftRight, frameAddr_toNat h, Nat.shiftRight_eq_div_pow]
  omega

theorem mapEntry_eq (old frame : Word) : mapEntry old frame = remapped old frame := rfl

/-- A remapped entry is present (R91, R92). -/
theorem remapped_present (old frame : Word) : (remapped old frame).getLsbD 0 = true := by simp [remapped]

/-- A remapped entry names the new frame (R47). -/
theorem remapped_frame (old : Word) {frame : Word} (h : frame.extractLsb' 0 12 = 0#12) :
    remapped old frame &&& 0xFFFFF000#32 = frame := by
  conv_rhs => rw [← and_frameMask_of_aligned h]
  unfold remapped
  ext i hi
  interval_cases i <;> simp

theorem clearPresent_eq (e : Word) : clearPresent e = e &&& 0xFFFFFFFE#32 := rfl

theorem clearPresent_absent (e : Word) : (e &&& 0xFFFFFFFE#32).getLsbD 0 = false := by simp

/-! ### Where entries lie -/

theorem State.pdeAddr_eq (s : State) (va : Word) : s.pdeAddr va = s.pdePlace va := rfl
theorem pteAddr_eq (pde va : Word) : pteAddr pde va = ptePlaceIn (pde &&& 0xFFFFF000#32) va := rfl

theorem dirIndex_toNat (va : Word) : (va >>> 22).toNat = va.toNat / 4194304 := by
  simp [BitVec.toNat_ushiftRight, Nat.shiftRight_eq_div_pow]

theorem tblIndex_toNat (va : Word) : ((va >>> 12) &&& 0x3FF#32).toNat = va.toNat / 4096 % 1024 := by
  rw [BitVec.toNat_and, BitVec.toNat_ushiftRight, Nat.shiftRight_eq_div_pow]
  exact Nat.and_two_pow_sub_one_eq_mod _ 10

theorem ptePlaceIn_toNat {table : Word} (h : table.extractLsb' 0 12 = 0#12) (va : Word) :
    (ptePlaceIn table va).toNat = table.toNat + 4 * (va.toNat / 4096 % 1024) := by
  have ht := aligned4K_toNat.mp h
  have := table.isLt
  simp only [ptePlaceIn, BitVec.toNat_add, BitVec.toNat_mul, tblIndex_toNat, BitVec.toNat_ofNat]
  omega

theorem ptePlaceIn_aligned {table : Word} (h : table.extractLsb' 0 12 = 0#12) (va : Word) :
    (ptePlaceIn table va).extractLsb' 0 2 = 0#2 := by
  rw [aligned4_toNat, ptePlaceIn_toNat h]
  have := aligned4K_toNat.mp h
  omega

/-- A PTE lies in its table's frame. -/
theorem ptePlaceIn_frame {table : Word} (h : table.extractLsb' 0 12 = 0#12) (va : Word) :
    ptePlaceIn table va &&& 0xFFFFF000#32 = table := by
  rw [frame_eq_iff h, ptePlaceIn_toNat h]
  omega

theorem State.pdePlace_toNat {s : State} (h : s.pdbr.extractLsb' 0 12 = 0#12) (va : Word) :
    (s.pdePlace va).toNat = s.pdbr.toNat + 4 * (va.toNat / 4194304) := by
  have ht := aligned4K_toNat.mp h
  have := s.pdbr.isLt
  have := va.isLt
  simp only [State.pdePlace, BitVec.toNat_add, BitVec.toNat_mul, dirIndex_toNat, BitVec.toNat_ofNat]
  omega

theorem State.pdePlace_aligned {s : State} (h : s.pdbr.extractLsb' 0 12 = 0#12) (va : Word) :
    (s.pdePlace va).extractLsb' 0 2 = 0#2 := by
  rw [aligned4_toNat, State.pdePlace_toNat h]
  have := aligned4K_toNat.mp h
  omega

/-- A PDE lies in the directory's frame. -/
theorem State.pdePlace_frame {s : State} (h : s.pdbr.extractLsb' 0 12 = 0#12) (va : Word) :
    s.pdePlace va &&& 0xFFFFF000#32 = s.pdbr := by
  have := va.isLt
  rw [frame_eq_iff h, State.pdePlace_toNat h]
  omega

theorem State.ptePlace_aligned (s : State) (va : Word) : (s.ptePlace va).extractLsb' 0 2 = 0#2 :=
  ptePlaceIn_aligned (and_frameMask_aligned _) va

/-- The bitmap's words are aligned where BMBASE is. -/
theorem State.bitmapWordOf_aligned {s : State} (h : s.bmbase.extractLsb' 0 2 = 0#2) (f : Nat) :
    (s.bitmapWordOf f).extractLsb' 0 2 = 0#2 := by
  have := aligned4_toNat.mp h
  rw [aligned4_toNat, State.bitmapWordOf, BitVec.toNat_ofNat]
  omega

/-! ### Walk -/

/-- The walk of a mapped page ends at its PTE (R90). -/
theorem State.walkTables_of_mapped {s : State} {va : Word} (h : s.mapped va) :
    s.walkTables va = .present (s.pteValue va) (s.ptePlace va) := by
  have h1 : presentBit (s.memRead32 (s.pdeAddr va)) = true := h.1
  have h2 : presentBit (s.memRead32 (pteAddr (s.memRead32 (s.pdeAddr va)) va)) = true := h.2
  simp only [State.walkTables, h1, h2, if_true]
  rfl

/-- The walk of an unmapped page ends at the first entry that is not present (R90). -/
theorem State.walkTables_of_not_mapped {s : State} {va : Word} (h : ¬ s.mapped va) :
    ∃ pa, s.walkTables va = .absentAtPde (s.absentEntry va) pa ∨ s.walkTables va = .absentAtPte (s.absentEntry va) pa := by
  by_cases h1 : (s.pdeValue va).getLsbD 0 = true
  · have h2 : ¬ (s.pteValue va).getLsbD 0 = true := fun h2 => h ⟨h1, h2⟩
    have h1' : presentBit (s.memRead32 (s.pdeAddr va)) = true := h1
    have h2' : ¬ presentBit (s.memRead32 (pteAddr (s.memRead32 (s.pdeAddr va)) va)) = true := h2
    refine ⟨s.ptePlace va, .inr ?_⟩
    simp only [State.walkTables, h1', h2', if_true, State.absentEntry, h1]
    rfl
  · have h1' : ¬ presentBit (s.memRead32 (s.pdeAddr va)) = true := h1
    refine ⟨s.pdePlace va, .inl ?_⟩
    simp only [State.walkTables, h1', State.absentEntry, h1]
    rfl

/-! ### Zeroing a table -/

/-- Zeroing a table changes memory only. -/
theorem State.zeroWords_eq (s : State) (base : Word) (n : Nat) : s.zeroWords base n = { s with mem := (s.zeroWords base n).mem } := by
  induction n with
  | zero => rfl
  | succ n ih =>
    simp only [State.zeroWords]
    rw [ih]
    rfl

/-- After the first `n` words from `base` are zeroed, their bytes read 0 and all other bytes as before (R91). -/
theorem State.readByte_zeroWords (s : State) {base : Word} {n : Nat} (hb : base.toNat + 4 * n ≤ 4294967296) (a : Word) :
    (s.zeroWords base n).mem.readByte a =
      if base.toNat ≤ a.toNat ∧ a.toNat < base.toNat + 4 * n then 0#8 else s.mem.readByte a := by
  induction n with
  | zero => simp only [State.zeroWords]; rw [if_neg (by omega)]
  | succ n ih =>
    have ih := ih (by omega)
    have e : (base + 4#32 * BitVec.ofNat 32 n).toNat = base.toNat + 4 * n := by
      simp only [BitVec.toNat_add, BitVec.toNat_mul, BitVec.toNat_ofNat]
      omega
    simp only [State.zeroWords]
    by_cases hw : inWord (base + 4#32 * BitVec.ofNat 32 n) a
    · have hr := toNat_of_inWord (by omega) hw
      rw [if_pos (by omega)]
      simp only [State.memWrite32_mem, Memory.readByte_write32]
      rcases hw with rfl | rfl | rfl | rfl <;> simp
    · rw [State.readByte_memWrite32 hw, ih]
      have : ¬ (base.toNat + 4 * n ≤ a.toNat ∧ a.toNat < base.toNat + 4 * n + 4) := by
        intro hr
        apply hw
        have : a.toNat - (base.toNat + 4 * n) < 4 := by omega
        revert e
        generalize base + 4#32 * BitVec.ofNat 32 n = p
        intro e
        unfold inWord
        simp only [← BitVec.toNat_inj]
        rw [BitVec.toNat_add, BitVec.toNat_add, BitVec.toNat_add, e]
        simp only [BitVec.toNat_ofNat]
        omega
      by_cases hin : base.toNat ≤ a.toNat ∧ a.toNat < base.toNat + 4 * n
      · rw [if_pos hin, if_pos (by omega)]
      · rw [if_neg hin, if_neg (by omega)]

/-! ### EnsureTable -/

/-- A present PDE is answered as it is (R91). -/
theorem State.ensureTable_of_present {s : State} {va : Word} (h : (s.pdeValue va).getLsbD 0 = true) :
    s.ensureTable va = .ready (s.pdeValue va) s := by
  have h' : presentBit (s.memRead32 (s.pdeAddr va)) = true := h
  simp only [State.ensureTable, h', if_true]
  rfl

/-- A table must be created and the bitmap runs past 2^32 (R44, R91). -/
theorem State.ensureTable_of_bad_extent {s : State} {va : Word} (h : (s.pdeValue va).getLsbD 0 = false) (hx : ¬ s.bitmapFits) :
    s.ensureTable va = .badExtent := by
  have h' : presentBit (s.memRead32 (s.pdeAddr va)) = false := h
  have hx' : s.bmCheck = false := by
    rw [← Bool.not_eq_true, State.bmCheck_iff]; exact hx
  simp [State.ensureTable, h', hx']

/-- A table must be created and no frame is free (R91). -/
theorem State.ensureTable_of_noFree {s : State} {va : Word} (h : (s.pdeValue va).getLsbD 0 = false) (hx : s.bitmapFits)
    (hn : s.noFree) : s.ensureTable va = .noFrame := by
  have h' : presentBit (s.memRead32 (s.pdeAddr va)) = false := h
  have hx' := s.bmCheck_iff.mpr hx
  simp [State.ensureTable, h', hx', State.firstFree_of_noFree hn]

/-- The state after a table is created in frame `t` (R91). Irreducible, so that no proof unfolds the 1024 stores of the zeroing. -/
@[irreducible] def State.withTable (s : State) (va : Word) (t : Nat) : State :=
  (((s.setBit t).zeroWords (frameAddr t) tableEntries)).memWrite32 (s.pdePlace va) (remapped (s.pdeValue va) (frameAddr t))

/-- A table is created in the least free frame (R91). -/
theorem State.ensureTable_of_leastFree {s : State} {va : Word} {f : Nat} (h : (s.pdeValue va).getLsbD 0 = false)
    (hx : s.bitmapFits) (hf : s.leastFree f) :
    s.ensureTable va = .ready (remapped (s.pdeValue va) (frameAddr f)) (s.withTable va f) := by
  have h' : presentBit (s.memRead32 (s.pdeAddr va)) = false := h
  have hx' := s.bmCheck_iff.mpr hx
  simp only [State.ensureTable, h', hx', State.firstFree_of_leastFree hf, if_true, Bool.false_eq_true, if_false]
  unfold State.withTable
  rfl

/-- Creating a table changes memory only. -/
theorem State.withTable_eq (s : State) (va : Word) (t : Nat) : s.withTable va t = { s with mem := (s.withTable va t).mem } := by
  unfold State.withTable
  rw [State.zeroWords_eq]
  rfl

/-- Every byte of memory after a table is created: the PDE's word is the new PDE, the table is 0, the bitmap has the new bit (R91). -/
theorem State.readByte_withTable {s : State} {va : Word} {t : Nat} (ht : t < 1048576) {a : Word} (ha : ¬ inWord (s.pdePlace va) a) :
    (s.withTable va t).mem.readByte a =
      if a &&& 0xFFFFF000#32 = frameAddr t then 0#8 else (s.memWithBit t).readByte a := by
  have e := frameAddr_toNat ht
  unfold State.withTable
  rw [State.readByte_memWrite32 ha, State.readByte_zeroWords _ (by rw [e]; simp only [tableEntries]; omega)]
  have hfr : a &&& 0xFFFFF000#32 = frameAddr t ↔
      (frameAddr t).toNat ≤ a.toNat ∧ a.toNat < (frameAddr t).toNat + 4 * tableEntries := frame_eq_iff (frameAddr_aligned ht)
  simp only [hfr]
  rfl

/-- The new PDE reads back (R91). -/
theorem State.read32_withTable_pde (s : State) (va : Word) (t : Nat) :
    (s.withTable va t).mem.read32 (s.pdePlace va) = remapped (s.pdeValue va) (frameAddr t) := by
  unfold State.withTable
  exact Memory.read32_write32_same _ _ _

/-- The bytes of an aligned word lie in the word's own frame. -/
theorem frame_of_inWord {q a : Word} (hq : q.extractLsb' 0 2 = 0#2) (h : inWord q a) : a &&& 0xFFFFF000#32 = q &&& 0xFFFFF000#32 := by
  have hq' := aligned4_toNat.mp hq
  have := toNat_of_inWord (by have := q.isLt; omega) h
  apply BitVec.eq_of_toNat_eq
  rw [and_frameMask_toNat, and_frameMask_toNat]
  omega

/-- Every aligned word of memory after a table is created (R91). -/
theorem State.read32_withTable {s : State} {va : Word} {t : Nat} (ht : t < 1048576) (hd : s.pdbr.extractLsb' 0 12 = 0#12) {q : Word}
    (hq : q.extractLsb' 0 2 = 0#2) :
    (s.withTable va t).mem.read32 q =
      if q = s.pdePlace va then remapped (s.pdeValue va) (frameAddr t)
      else if q &&& 0xFFFFF000#32 = frameAddr t then 0#32 else (s.memWithBit t).read32 q := by
  split
  · next e => rw [e]; exact State.read32_withTable_pde s va t
  · next ne =>
    have key : ∀ a, inWord q a → (s.withTable va t).mem.readByte a =
        if q &&& 0xFFFFF000#32 = frameAddr t then 0#8 else (s.memWithBit t).readByte a := by
      intro a ha
      have nin : ¬ inWord (s.pdePlace va) a := by
        have := aligned_words_disjoint q (s.pdePlace va) hq (State.pdePlace_aligned hd va) ne a ha
        unfold inWord
        tauto
      rw [State.readByte_withTable ht nin, frame_of_inWord hq ha]
    simp only [Memory.read32]
    rw [key q (.inl rfl), key (q + 1#32) (.inr (.inl rfl)), key (q + 2#32) (.inr (.inr (.inl rfl))),
      key (q + 3#32) (.inr (.inr (.inr rfl)))]
    split <;> rfl

/-- Whatever `EnsureTable` ends with, it changes memory only, and it fails on the extent only where the extent check fails (R91). -/
theorem State.ensureTable_cases (s : State) (va : Word) :
    (s.ensureTable va = .badExtent ∧ ¬ s.bitmapFits) ∨ s.ensureTable va = .noFrame ∨
      ∃ pde m, s.ensureTable va = .ready pde { s with mem := m } := by
  by_cases h : (s.pdeValue va).getLsbD 0 = true
  · exact .inr (.inr ⟨_, s.mem, State.ensureTable_of_present h⟩)
  · have h : (s.pdeValue va).getLsbD 0 = false := by simpa using h
    by_cases hx : s.bitmapFits
    · rcases s.firstFree_cases with ⟨f, -, hf⟩ | ⟨-, hn⟩
      · exact .inr (.inr ⟨_, _, by rw [State.ensureTable_of_leastFree h hx hf, State.withTable_eq]⟩)
      · exact .inr (.inl (State.ensureTable_of_noFree h hx hn))
    · exact .inl ⟨State.ensureTable_of_bad_extent h hx, hx⟩

/-! ### Addresses of one page -/

/-- Addresses of one page share their indices and their page number (R11). -/
theorem page_fields {va v : Word} (h : va &&& 0xFFFFF000#32 = v) :
    va >>> 22 = v >>> 22 ∧ va >>> 12 = v >>> 12 ∧ va.extractLsb' 12 20 = v.extractLsb' 12 20 := by
  subst h
  refine ⟨?_, ?_, ?_⟩ <;> (ext i hi; interval_cases i <;> simp)

/-! ### Every memory operation keeps the canonical form (log 1) -/

theorem State.wf_memWrite32 {s : State} (h : s.mem.wf) (pa v : Word) : (s.memWrite32 pa v).mem.wf := Memory.wf_write32 h pa v

theorem State.wf_setBit {s : State} (h : s.mem.wf) (f : Nat) : (s.setBit f).mem.wf := Memory.wf_write32 h _ _

theorem State.wf_clearBit {s : State} (h : s.mem.wf) (f : Nat) : (s.clearBit f).mem.wf := Memory.wf_write32 h _ _

theorem State.wf_setBits {s : State} (h : s.mem.wf) (first n : Nat) : (s.setBits first n).mem.wf := by
  induction n with
  | zero => exact h
  | succ n ih => exact State.wf_setBit ih _

theorem State.wf_clearBits {s : State} (h : s.mem.wf) (first n : Nat) : (s.clearBits first n).mem.wf := by
  induction n with
  | zero => exact h
  | succ n ih => exact State.wf_clearBit ih _

theorem State.wf_fillBitmap {s : State} (h : s.mem.wf) (n : Nat) : (s.fillBitmap n).mem.wf := by
  induction n with
  | zero => exact h
  | succ n ih => exact State.wf_memWrite32 ih _ _

theorem State.wf_zeroWords {s : State} (h : s.mem.wf) (base : Word) (n : Nat) : (s.zeroWords base n).mem.wf := by
  induction n with
  | zero => exact h
  | succ n ih => exact State.wf_memWrite32 ih _ _

theorem State.wf_withTable {s : State} (h : s.mem.wf) (va : Word) (t : Nat) : (s.withTable va t).mem.wf := by
  unfold State.withTable
  exact State.wf_memWrite32 (State.wf_zeroWords (State.wf_setBit h _) _ _) _ _

end Sys2Proof.Machine
end

