-- ==== Sys2Proof/Machine/Assembler.lean ====
section
/-! DEFINITION. The assembler's lines and pseudo-commands (spec/30_encoding.md R61, R62; log 18). No step of the machine uses them: the
host writes programs with them. -/

namespace Sys2Proof.Machine

/-- One row of the opcode map: name, opcode, whether it takes `#imm`, how many operands it uses (R57). -/
structure OpcodeRow where
  mnemonic : String
  opc : BitVec 8
  hasImm : Bool
  operands : Nat
deriving DecidableEq, Repr

/-- The opcode map of R57. -/
def opcodeRows : List OpcodeRow :=
  [⟨"ENT.PACK", 0x01, true, 1⟩, ⟨"ENT.SETFRAME", 0x02, false, 2⟩, ⟨"ENT.GETFRAME", 0x03, false, 1⟩,
   ⟨"ENT.GETPFN", 0x04, false, 1⟩, ⟨"ENT.GETFLAGS", 0x05, false, 1⟩, ⟨"ENT.ADD", 0x06, true, 1⟩,
   ⟨"ENT.DEL", 0x07, true, 1⟩, ⟨"ENT.TEST", 0x08, true, 1⟩, ⟨"ENT.LD", 0x09, false, 1⟩, ⟨"ENT.ST", 0x0A, false, 2⟩] ++
  [⟨"BM.SETALL", 0x10, false, 0⟩, ⟨"BM.FREEREG", 0x11, false, 2⟩, ⟨"BM.RSVREG", 0x12, false, 2⟩,
   ⟨"BM.TEST", 0x13, false, 1⟩, ⟨"BM.MARK", 0x14, false, 1⟩, ⟨"BM.FREE", 0x15, false, 1⟩, ⟨"BM.FIND", 0x16, false, 0⟩,
   ⟨"BM.FINDRUN", 0x17, false, 1⟩, ⟨"BM.ALLOC", 0x18, false, 0⟩, ⟨"BM.ALLOCRUN", 0x19, false, 1⟩] ++
  [⟨"PG.ENABLE", 0x20, false, 1⟩, ⟨"VA.DIR", 0x21, false, 1⟩, ⟨"VA.TBL", 0x22, false, 1⟩, ⟨"WALK", 0x23, false, 1⟩,
   ⟨"XLATE", 0x24, false, 1⟩, ⟨"MAP", 0x25, false, 2⟩, ⟨"UNMAP", 0x26, false, 1⟩, ⟨"PAGE.ALLOC", 0x27, false, 1⟩,
   ⟨"PAGE.FREE", 0x28, false, 1⟩] ++
  [⟨"INVLPG", 0x30, false, 1⟩, ⟨"CR.RD", 0x31, true, 0⟩, ⟨"CR.WR", 0x32, true, 1⟩]

/-- A line in its parts: mnemonic, `#imm` where there is one, operands. -/
structure AsmLine where
  mnemonic : String
  imm : Option Nat
  operands : List Nat
deriving DecidableEq, Repr

/-- Assemble a line of a command: `#imm` is present exactly for the commands with an immediate, exactly the operands the command
uses are written, and the others assemble as 0 (R61). A control-register number is not checked here: the decoder refuses it. -/
def assembleCommand (l : AsmLine) : Option Command :=
  match opcodeRows.find? (fun r => r.mnemonic == l.mnemonic) with
  | none => none
  | some r =>
    let imm := l.imm.getD 0
    if l.imm.isSome == r.hasImm && decide (l.operands.length = r.operands) && decide (imm < 4096)
        && l.operands.all (fun v => decide (v < 4294967296)) then
      some ⟨commandWord (BitVec.ofNat 12 imm) r.opc, BitVec.ofNat 32 (l.operands.getD 0 0), BitVec.ofNat 32 (l.operands.getD 1 0)⟩
    else none

/-- The pseudo-commands (R62). -/
inductive Pseudo where
  | isPresent (e : Word) | isWritable (e : Word) | isUser (e : Word) | isUncached (e : Word) | isAccessed (e : Word) | isDirty (e : Word)
  | setPresent (e : Word) | clrPresent (e : Word) | setWritable (e : Word) | clrWritable (e : Word) | setUser (e : Word)
  | clrUser (e : Word) | clrAccessed (e : Word) | clrDirty (e : Word)
  | dirSwitch (d : Word) | pgDisable | statusRd | tlbFlush | bmConfig (b n : Word)
deriving DecidableEq, Repr

/-- The expansion of a pseudo-command (R62); `res0` is what RES0 holds after the first command of `TLB.FLUSH`. -/
def Pseudo.expand (res0 : Word) : Pseudo → List Instr
  | .isPresent e => [.entTest 0x001 e]
  | .isWritable e => [.entTest 0x002 e]
  | .isUser e => [.entTest 0x004 e]
  | .isUncached e => [.entTest 0x010 e]
  | .isAccessed e => [.entTest 0x020 e]
  | .isDirty e => [.entTest 0x040 e]
  | .setPresent e => [.entAdd 0x001 e]
  | .clrPresent e => [.entDel 0x001 e]
  | .setWritable e => [.entAdd 0x002 e]
  | .clrWritable e => [.entDel 0x002 e]
  | .setUser e => [.entAdd 0x004 e]
  | .clrUser e => [.entDel 0x004 e]
  | .clrAccessed e => [.entDel 0x020 e]
  | .clrDirty e => [.entDel 0x040 e]
  | .dirSwitch d => [.crWr 1 d]
  | .pgDisable => [.crWr 0 0]
  | .statusRd => [.crRd 4]
  | .tlbFlush => [.crRd 0, .crWr 0 res0]
  | .bmConfig b n => [.crWr 2 b, .crWr 3 n]

/-- The pseudo-command a line names (R62). -/
def pseudoOfLine (l : AsmLine) : Option Pseudo :=
  match l.imm, l.operands with
  | none, [] =>
    if l.mnemonic == "PG.DISABLE" then some .pgDisable
    else if l.mnemonic == "STATUS.RD" then some .statusRd
    else if l.mnemonic == "TLB.FLUSH" then some .tlbFlush
    else none
  | none, [a] =>
    let v : Word := BitVec.ofNat 32 a
    if a < 4294967296 then
      ([("ENT.ISPRESENT", Pseudo.isPresent v), ("ENT.ISWRITABLE", .isWritable v), ("ENT.ISUSER", .isUser v),
        ("ENT.ISUNCACHED", .isUncached v), ("ENT.ISACCESSED", .isAccessed v), ("ENT.ISDIRTY", .isDirty v),
        ("ENT.SETPRESENT", .setPresent v), ("ENT.CLRPRESENT", .clrPresent v), ("ENT.SETWRITABLE", .setWritable v),
        ("ENT.CLRWRITABLE", .clrWritable v), ("ENT.SETUSER", .setUser v), ("ENT.CLRUSER", .clrUser v),
        ("ENT.CLRACCESSED", .clrAccessed v), ("ENT.CLRDIRTY", .clrDirty v), ("DIR.SWITCH", .dirSwitch v)].find?
          (fun p => p.1 == l.mnemonic)).map (fun p => p.2)
    else none
  | none, [b, n] =>
    if l.mnemonic == "BM.CONFIG" && decide (b < 4294967296) && decide (n < 4294967296) then
      some (.bmConfig (BitVec.ofNat 32 b) (BitVec.ofNat 32 n))
    else none
  | _, _ => none

/-- Assemble one line: a command, or a pseudo-command's expansion (R61, R62). -/
def assembleLine (res0 : Word) (l : AsmLine) : Option (List Command) :=
  match assembleCommand l with
  | some c => some [c]
  | none => (pseudoOfLine l).map (fun p => (p.expand res0).map encode)

/-- A digit's value in hexadecimal or decimal. -/
def digitValue (base : Nat) (c : Char) : Option Nat :=
  let v :=
    if '0' ≤ c ∧ c ≤ '9' then c.toNat - '0'.toNat
    else if 'a' ≤ c ∧ c ≤ 'f' then c.toNat - 'a'.toNat + 10
    else if 'A' ≤ c ∧ c ≤ 'F' then c.toNat - 'A'.toNat + 10
    else base
  if v < base then some v else none

/-- The digits of a number read from the left, on from the value `v`. -/
def digitsValue (base v : Nat) : List Char → Option Nat
  | [] => some v
  | c :: cs => match digitValue base c with
    | some d => digitsValue base (v * base + d) cs
    | none => none

/-- A number, hexadecimal `0x...` or decimal (R61). -/
def parseNumber : List Char → Option Nat
  | [] => none
  | '0' :: 'x' :: c :: cs => digitsValue 16 0 (c :: cs)
  | cs => digitsValue 10 0 cs

/-- A text with no blanks at its ends. -/
def trimBlanks (cs : List Char) : List Char :=
  ((cs.dropWhile (fun c => c == ' ' || c == '\t')).reverse.dropWhile (fun c => c == ' ' || c == '\t')).reverse

/-- The parts of a text between its commas. -/
def splitCommas : List Char → List (List Char)
  | [] => [[]]
  | c :: cs =>
    if c == ',' then [] :: splitCommas cs
    else match splitCommas cs with
      | [] => [[c]]
      | p :: ps => (c :: p) :: ps

/-- Every part read as a number. -/
def parseNumbers : List (List Char) → Option (List Nat)
  | [] => some []
  | p :: ps => match parseNumber (trimBlanks p), parseNumbers ps with
    | some v, some vs => some (v :: vs)
    | _, _ => none

/-- A line of text `MNEMONIC [#imm] [, arg0 [, arg1]] ; comment` in its parts (R61). -/
def parseLine (text : List Char) : Option AsmLine :=
  let body := trimBlanks (text.takeWhile (fun c => c != ';'))
  let mnemonic := String.ofList (body.takeWhile (fun c => c != ' ' && c != '\t'))
  let rest := trimBlanks (body.dropWhile (fun c => c != ' ' && c != '\t'))
  match rest with
  | [] => if mnemonic == "" then none else some ⟨mnemonic, none, []⟩
  | '#' :: cs => match splitCommas cs with
    | [] => none
    | p :: ps => match parseNumber (trimBlanks p), parseNumbers ps with
      | some v, some vs => some ⟨mnemonic, some v, vs⟩
      | _, _ => none
  | cs => (parseNumbers (splitCommas cs)).map (fun vs => ⟨mnemonic, none, vs⟩)

/-- Assemble a line of text. -/
def assembleText (res0 : Word) (text : String) : Option (List Command) :=
  match parseLine text.toList with
  | some l => assembleLine res0 l
  | none => none

end Sys2Proof.Machine
end

