-- ==== Sys2Proof/Machine/HostProgram.lean ====
section
/-! DEFINITION. The host's boot sequence as lists of commands (spec/70_reset_and_hazards.md R123 to R125; log 14). No step of the machine
uses them. -/

namespace Sys2Proof.Machine

/-- A record of the boot memory map (R124). -/
structure MapRecord where
  base : BitVec 64
  length : BitVec 64
  available : Bool
deriving DecidableEq, Repr

/-- The host's actions that present a list of instructions (R55). -/
def presentAll (is : List Instr) : List HostAction := is.map (fun i => .command (encode i))

/-- Step 1 of R123: set NFRAMES from the memory size and place the bitmap. -/
def bootRegisters (memorySize : Nat) : List Instr :=
  [.crWr 3 (BitVec.ofNat 32 (memorySize / pageSize)), .crWr 2 Config.bitmapPhys]

/-- The command for one memory-map record: none for a record that is not available, has length 0 or lies at or above 2^32;
otherwise base and length clipped to 32 bits (R124). -/
def freeRecord (r : MapRecord) : Option Instr :=
  if r.available && decide (r.base.toNat < paddrSpace) && decide (r.length.toNat ≠ 0) then
    some (.bmFreereg (BitVec.ofNat 32 r.base.toNat) (BitVec.ofNat 32 (min r.length.toNat 0xFFFFFFFF)))
  else none

/-- The bitmap's size in bytes, `4 * BMWORDS`, for a frame count (R6). -/
def bitmapBytes (nframes : Nat) : Nat := 4 * ((nframes + (bmWordBits - 1)) / bmWordBits)

/-- The bitmap initialisation, in the source's order (R124). DESIGN CHOICE (log 20): the length of the kernel image is taken modulo 2^32 where
`KERNEL_PHYS_END` is below `KERNEL_PHYS_START`. -/
def bootBitmap (nframes : Nat) (records : List MapRecord) : List Instr :=
  [.bmSetall] ++ records.filterMap freeRecord ++
    [.bmRsvreg Config.kernelPhysStart (Config.kernelPhysEnd - Config.kernelPhysStart),
     .bmRsvreg Config.bitmapPhys (BitVec.ofNat 32 (bitmapBytes nframes))]

/-- The stores that zero the directory frame `d` (R125 step 1). -/
def zeroDirectory (d : Word) : List Instr :=
  (List.range tableEntries).map (fun k => .entSt (d + BitVec.ofNat 32 (4 * k)) 0)

/-- The low 1 MiB mapped by identity and at the higher-half base (R125 step 3, spec/90_conflicts.md C3). DESIGN CHOICE (log 20): a page
`HIGHER_HALF_BASE + p` that passes 2^32 is taken modulo 2^32. -/
def mapLowMemory : List Instr :=
  (List.range 256).map (fun k => .map (BitVec.ofNat 32 (k * pageSize)) (BitVec.ofNat 32 (k * pageSize))) ++
  (List.range 256).map
    (fun k => .map (BitVec.ofNat 32 (k * pageSize)) (Config.higherHalfBase + BitVec.ofNat 32 (k * pageSize)))

/-- The bitmap's own pages mapped by identity, page-rounded (R125 step 4). DESIGN CHOICE (log 20): the address of a page
at or above 2^32 is taken modulo 2^32. -/
def mapBitmapPages (nframes : Nat) : List Instr :=
  let first := Config.bitmapPhys.toNat / pageSize
  let last := (Config.bitmapPhys.toNat + bitmapBytes nframes + (pageSize - 1)) / pageSize
  (List.range (if nframes = 0 then 0 else last - first)).map
    (fun k => .map (BitVec.ofNat 32 ((first + k) * pageSize)) (BitVec.ofNat 32 ((first + k) * pageSize)))

/-- The commands up to the allocation of the directory frame (R123 steps 1 and 2, R125 step 1): the frame is then in RES0. -/
def bootUntilDirectory (memorySize : Nat) (records : List MapRecord) : List Instr :=
  bootRegisters memorySize ++ bootBitmap (memorySize / pageSize) records ++ [.bmAlloc]

/-- The commands that build the bootstrap directory in frame `d` and turn paging on (R125 steps 1 to 5). -/
def bootDirectory (d : Word) (nframes : Nat) : List Instr :=
  zeroDirectory d ++ [.crWr 1 d] ++ mapLowMemory ++ mapBitmapPages nframes ++ [.pgEnable d]

end Sys2Proof.Machine
end

