-- ==== Sys2Proof/Tests/Slice0.lean ====
section
/-! SUPPORT. Tests: what WellFormed refuses, words written out from the encoding of spec/30_encoding.md R55 and R57, one step of each
instruction with the result that spec/95_test_vectors.md states (the vector's name in the comment), and for each obligation with
hypotheses a state and operands that meet them, clause by clause. -/

namespace Sys2Proof.Machine.Tests

/-! ### Small states -/

/-- The next state an outcome holds. -/
def nxt (o : Result) : State :=
  match o with
  | .next s => s
  | _ => State.reset

/-- Words stored one after the other. -/
def store (s : State) (l : List (Word × Word)) : State := l.foldl (fun s p => s.memWrite32 p.1 p.2) s

/-- `S_B` of section 2.2: 64 frames, the bitmap at 0x1000, frames 0, 1 and 3 in use. -/
def sB : State := { State.reset with nframes := 64#32, bmbase := 0x1000#32, mem := [(0x1000, 0x0B#8)] }

/-- `S_B` with a bitmap that runs past 2^32. -/
def sX : State := { State.reset with nframes := 64#32, bmbase := 0xFFFFFFFC#32 }

/-- `S_B` with every frame in use. -/
def sF : State := store sB [(0x1000#32, 0xFFFFFFFF#32), (0x1004#32, 0xFFFFFFFF#32)]

/-- `S_W` of section 2.3: frames 0 to 16 in use, the directory in frame 16, all zero. -/
def sW : State := store { State.reset with nframes := 64#32, bmbase := 0x1000#32, pdbr := 0x10000#32 } [(0x1000#32, 0x1FFFF#32)]

/-- `S_W` with frame 63 the only free one. -/
def sL : State := store sW [(0x1000#32, 0xFFFFFFFF#32), (0x1004#32, 0x7FFFFFFF#32)]

/-- `S_W` with a table in frame 17 whose entry 1 maps page 0x401 to frame 5, paging on. -/
def sM : State := store { sW with ctrl := 1#32 } [(0x1000#32, 0x3FFFF#32), (0x10004#32, 0x11003#32), (0x11004#32, 0x5003#32)]

/-- `sM` with the page's frame beyond NFRAMES. -/
def sO : State := store sM [(0x11004#32, 0x100003#32)]

/-- `sM` with a TLB entry for page 0x401. -/
def sT : State := { sM with tlb := [⟨0x401#20, 0x6003#32⟩] }

/-- A halted block. -/
def sH : State := { sB with status := 0x110F#32, faultInfo := 0x1800#32, faultCmd := 0x13#32 }

/-- A guarded command always answers a next state. -/
theorem next_nxt (s : State) (body : State → State) : runUnlessHalted s body = .next (nxt (runUnlessHalted s body)) := by
  unfold runUnlessHalted
  split <;> rfl

/-- An instruction always answers a next state. -/
theorem answers (i : Instr) (s : State) : exec i s = .next (nxt (exec i s)) := by
  cases i
  case crRd n =>
    show execCrRd n s = .next (nxt (execCrRd n s))
    unfold execCrRd execIllegal
    split
    · rfl
    · exact next_nxt _ _
  case crWr n v =>
    show execCrWr n v s = .next (nxt (execCrWr n v s))
    unfold execCrWr execIllegal
    split <;> exact next_nxt _ _
  all_goals
    simp only [exec]
    exact next_nxt s _

theorem inv_sB : sB.Inv := ⟨.inl rfl, rfl, rfl, by decide, by decide, fun _ => ⟨rfl, rfl⟩, Tlb.wf_nil, by decide⟩

theorem inv_sW : sW.Inv := ⟨.inl rfl, rfl, rfl, by decide, by decide, fun _ => ⟨rfl, rfl⟩, Tlb.wf_nil, by decide⟩

theorem inv_sL : sL.Inv := ⟨.inl rfl, rfl, rfl, by decide, by decide, fun _ => ⟨rfl, rfl⟩, Tlb.wf_nil, by decide⟩

theorem inv_sM : sM.Inv := ⟨.inr rfl, rfl, rfl, by decide, by decide, fun _ => ⟨rfl, rfl⟩, Tlb.wf_nil, by decide⟩

/-! ### WellFormed -/

theorem test_wf_refuses_crRd_8 : (Instr.crRd 8#12).wf = false := by decide
theorem test_wf_refuses_crWr_8 : (Instr.crWr 8#12 0#32).wf = false := by decide
theorem test_wf_accepts_crRd_7 : (Instr.crRd 7#12).wf = true := by decide
theorem test_wf_accepts_crWr_7 : (Instr.crWr 7#12 5#32).wf = true := by decide

/-! ### Decoding: words written out from R55 (RSV 31:20, IMM12 19:8, OPC 7:0) and R57 -/

theorem test_decode_entPack : decode ⟨0x00000301#32, 0x00400000#32, 0#32⟩ = .legal (.entPack 0x003#12 0x00400000#32) := by decide
theorem test_decode_entSetframe : decode ⟨0x00000002#32, 0x0006A063#32, 0x00123000#32⟩ = .legal (.entSetframe 0x0006A063#32 0x00123000#32) := by decide
theorem test_decode_entGetframe : decode ⟨0x00000003#32, 0x00400003#32, 0#32⟩ = .legal (.entGetframe 0x00400003#32) := by decide
theorem test_decode_entGetpfn : decode ⟨0x00000004#32, 0x00066003#32, 0#32⟩ = .legal (.entGetpfn 0x00066003#32) := by decide
theorem test_decode_entGetflags : decode ⟨0x00000005#32, 0x0006A063#32, 0#32⟩ = .legal (.entGetflags 0x0006A063#32) := by decide
theorem test_decode_entAdd : decode ⟨0x000FFF06#32, 0x12345000#32, 0#32⟩ = .legal (.entAdd 0xFFF#12 0x12345000#32) := by decide
theorem test_decode_entDel : decode ⟨0x00000107#32, 0x00400003#32, 0#32⟩ = .legal (.entDel 0x001#12 0x00400003#32) := by decide
theorem test_decode_entTest : decode ⟨0x00004008#32, 0x0006A063#32, 0#32⟩ = .legal (.entTest 0x040#12 0x0006A063#32) := by decide
theorem test_decode_entLd : decode ⟨0x00000009#32, 0x00002000#32, 0#32⟩ = .legal (.entLd 0x00002000#32) := by decide
theorem test_decode_entSt : decode ⟨0x0000000A#32, 0x00002004#32, 0x12345678#32⟩ = .legal (.entSt 0x00002004#32 0x12345678#32) := by decide
theorem test_decode_bmSetall : decode ⟨0x00000010#32, 0#32, 0#32⟩ = .legal .bmSetall := by decide
theorem test_decode_bmFreereg : decode ⟨0x00000011#32, 0x00000800#32, 0x00002000#32⟩ = .legal (.bmFreereg 0x00000800#32 0x00002000#32) := by decide
theorem test_decode_bmRsvreg : decode ⟨0x00000012#32, 0x00001FFF#32, 0x00000001#32⟩ = .legal (.bmRsvreg 0x00001FFF#32 0x00000001#32) := by decide
theorem test_decode_bmTest : decode ⟨0x00000013#32, 0x00001000#32, 0#32⟩ = .legal (.bmTest 0x00001000#32) := by decide
theorem test_decode_bmMark : decode ⟨0x00000014#32, 0x00002000#32, 0#32⟩ = .legal (.bmMark 0x00002000#32) := by decide
theorem test_decode_bmFree : decode ⟨0x00000015#32, 0x00001000#32, 0#32⟩ = .legal (.bmFree 0x00001000#32) := by decide
theorem test_decode_bmFind : decode ⟨0x00000016#32, 0#32, 0#32⟩ = .legal .bmFind := by decide
theorem test_decode_bmFindrun : decode ⟨0x00000017#32, 0x00000002#32, 0#32⟩ = .legal (.bmFindrun 0x00000002#32) := by decide
theorem test_decode_bmAlloc : decode ⟨0x00000018#32, 0#32, 0#32⟩ = .legal .bmAlloc := by decide
theorem test_decode_bmAllocrun : decode ⟨0x00000019#32, 0x00000002#32, 0#32⟩ = .legal (.bmAllocrun 0x00000002#32) := by decide
theorem test_decode_pgEnable : decode ⟨0x00000020#32, 0x00010000#32, 0#32⟩ = .legal (.pgEnable 0x00010000#32) := by decide
theorem test_decode_vaDir : decode ⟨0x00000021#32, 0xC0000000#32, 0#32⟩ = .legal (.vaDir 0xC0000000#32) := by decide
theorem test_decode_vaTbl : decode ⟨0x00000022#32, 0xC0103000#32, 0#32⟩ = .legal (.vaTbl 0xC0103000#32) := by decide
theorem test_decode_walk : decode ⟨0x00000023#32, 0x00401ABC#32, 0#32⟩ = .legal (.walk 0x00401ABC#32) := by decide
theorem test_decode_xlate : decode ⟨0x00000024#32, 0x00401ABC#32, 0#32⟩ = .legal (.xlate 0x00401ABC#32) := by decide
theorem test_decode_map : decode ⟨0x00000025#32, 0x00005000#32, 0x00401000#32⟩ = .legal (.map 0x00005000#32 0x00401000#32) := by decide
theorem test_decode_unmap : decode ⟨0x00000026#32, 0x00401000#32, 0#32⟩ = .legal (.unmap 0x00401000#32) := by decide
theorem test_decode_pageAlloc : decode ⟨0x00000027#32, 0x00404000#32, 0#32⟩ = .legal (.pageAlloc 0x00404000#32) := by decide
theorem test_decode_pageFree : decode ⟨0x00000028#32, 0x00404000#32, 0#32⟩ = .legal (.pageFree 0x00404000#32) := by decide
theorem test_decode_invlpg : decode ⟨0x00000030#32, 0x00000FFF#32, 0#32⟩ = .legal (.invlpg 0x00000FFF#32) := by decide
theorem test_decode_crRd : decode ⟨0x00000731#32, 0#32, 0#32⟩ = .legal (.crRd 7#12) := by decide
theorem test_decode_crWr : decode ⟨0x00000132#32, 0x00066000#32, 0#32⟩ = .legal (.crWr 1#12 0x00066000#32) := by decide

/-- The gaps of R57 beside its first and last rows. -/
theorem test_decode_gap_0B : decode ⟨0x0000000B#32, 0#32, 0#32⟩ = .illegal (.unknownOpcode 0x0B#8) := by decide
theorem test_decode_gap_33 : decode ⟨0x00000033#32, 0#32, 0#32⟩ = .illegal (.unknownOpcode 0x33#8) := by decide
/-- R59 (c), (b), (d). -/
theorem test_decode_stray_immediate : decode ⟨0x00000125#32, 0#32, 0#32⟩ = .illegal .strayImmediate := by decide
theorem test_decode_reserved_bits : decode ⟨0x80000018#32, 0#32, 0#32⟩ = .illegal .reservedBits := by decide
theorem test_decode_no_such_register : decode ⟨0x00000832#32, 0#32, 0#32⟩ = .illegal .noSuchRegister := by decide
/-- The operand ports above the word are bits 63:32 and 95:64. -/
theorem test_table_word : decodeTableWord 96 (0x25 + 0x5000 * 2 ^ 32 + 0x401000 * 2 ^ 64) = some (.map 0x5000#32 0x401000#32) := by decide

/-- R61's second example as a line of text. -/
theorem test_assemble_map : assembleText 0#32 "MAP 0x00000000, 0xC0000000 ; low page" = some [⟨0x25#32, 0#32, 0xC0000000#32⟩] := by decide
/-- R62: TLB.FLUSH stands for CR.RD #0 and CR.WR #0, RES0. -/
theorem test_assemble_tlb_flush : assembleText 1#32 "TLB.FLUSH" = some [⟨0x31#32, 0#32, 0#32⟩, ⟨0x32#32, 1#32, 0#32⟩] := by decide
/-- R124: a record that ends above 2^32 is clipped. -/
theorem test_free_record_clipped : freeRecord ⟨0xFFFFF000#64, 0x100000000#64, true⟩ = some (.bmFreereg 0xFFFFF000#32 0xFFFFFFFF#32) := by decide

/-! ### One step of each instruction (the vector in brackets) -/

/-- V-C4. -/
theorem test_entPack : (nxt (exec (.entPack 0x067#12 0x12345000#32) State.reset)).res0 = 0x12345067#32 := by decide
/-- V-C5. -/
theorem test_entPack_fatal : nxt (exec (.entPack 0x003#12 0x00400001#32) State.reset) =
    { State.reset with status := 0x110F#32, faultInfo := 0x00400001#32, faultCmd := 0x301#32 } := by decide
/-- V-C6. -/
theorem test_entSetframe : (nxt (exec (.entSetframe 0x0006A063#32 0x00123000#32) State.reset)).res0 = 0x00123063#32 := by decide
/-- V-C12. -/
theorem test_entGetframe : (nxt (exec (.entGetframe 0xFFFFFFFF#32) State.reset)).res0 = 0xFFFFF000#32 := by decide
/-- V-C14. -/
theorem test_entGetpfn : (nxt (exec (.entGetpfn 0xFFFFF001#32) State.reset)).res0 = 0x000FFFFF#32 := by decide
/-- V-C17. -/
theorem test_entGetflags : (nxt (exec (.entGetflags 0xFFFFFFFF#32) State.reset)).res0 = 0x00000FFF#32 := by decide
/-- V-C21. -/
theorem test_entAdd : (nxt (exec (.entAdd 0xFFF#12 0x12345000#32) State.reset)).res0 = 0x12345FFF#32 := by decide
/-- V-C24. -/
theorem test_entDel : (nxt (exec (.entDel 0xFFF#12 0xFFFFFFFF#32) State.reset)).res0 = 0xFFFFF000#32 := by decide
/-- V-C28. -/
theorem test_entTest : (nxt (exec (.entTest 0x003#12 0x00000001#32) State.reset)).res0 = 0#32 := by decide
/-- V-C38: the last word of the address space, byte by byte. -/
theorem test_entLd : (nxt (exec (.entLd 0xFFFFFFFC#32)
    { State.reset with mem := [(0xFFFFFFFC, 0x0D#8), (0xFFFFFFFD, 0xF0#8), (0xFFFFFFFE, 0xFE#8), (0xFFFFFFFF, 0xCA#8)] })).res0 =
      0xCAFEF00D#32 := by decide
/-- V-C35. -/
theorem test_entSt : (nxt (exec (.entSt 0x2004#32 0x12345678#32) State.reset)).mem =
    [(0x2004, 0x78#8), (0x2005, 0x56#8), (0x2006, 0x34#8), (0x2007, 0x12#8)] := by decide
/-- V-B1. -/
theorem test_bmSetall : (nxt (exec .bmSetall { sB with nframes := 40#32 })).mem.map (fun c => c.1) =
    [0x1000, 0x1001, 0x1002, 0x1003, 0x1004, 0x1005, 0x1006, 0x1007] := by decide
/-- V-B3. -/
theorem test_bmSetall_extent : nxt (exec .bmSetall sX) =
    { sX with status := 0x210F#32, faultInfo := 0xFFFFFFFC#32, faultCmd := 0x10#32 } := by decide
/-- V-B5's region on `S_B`: frame 0 is freed, frames 1 and 3 stay. -/
theorem test_bmFreereg : nxt (exec (.bmFreereg 0#32 0x1000#32) sB) = { sB with res0 := 1#32, mem := [(0x1000, 0x0A#8)] } := by decide
/-- V-B6. -/
theorem test_bmFreereg_less_than_a_frame : nxt (exec (.bmFreereg 0x1000#32 0xFFF#32) sB) = sB := by decide
/-- V-B13. -/
theorem test_bmRsvreg : nxt (exec (.bmRsvreg 0x3FFFF#32 2#32) sB) =
    { sB with res0 := 1#32, mem := [(0x1000, 0x0B#8), (0x1007, 0x80#8)] } := by decide
/-- V-B15. -/
theorem test_bmTest : (nxt (exec (.bmTest 0x1000#32) sB)).res0 = 1#32 := by decide
/-- V-B18: no extent check for a frame that does not exist. -/
theorem test_bmTest_beyond : (nxt (exec (.bmTest 0x40000#32) sX)).res0 = 1#32 := by decide
/-- V-B20. -/
theorem test_bmMark : nxt (exec (.bmMark 0x2000#32) sB) = { sB with mem := [(0x1000, 0x0F#8)] } := by decide
/-- V-B23: alignment before range. -/
theorem test_bmMark_misaligned : (nxt (exec (.bmMark 0x40001#32) sB)).status = 0x110F#32 := by decide
/-- V-B24. -/
theorem test_bmFree : nxt (exec (.bmFree 0x1000#32) sB) = { sB with res0 := 1#32, mem := [(0x1000, 0x09#8)] } := by decide
/-- V-B27. -/
theorem test_bmFind : nxt (exec .bmFind sB) = { sB with res0 := 0x2000#32 } := by decide
/-- V-B28. -/
theorem test_bmFind_none : nxt (exec .bmFind sF) = { sF with status := 1#32 } := by decide
/-- V-B35. -/
theorem test_bmFindrun : (nxt (exec (.bmFindrun 0x1C#32) sB)).res0 = 0x4000#32 := by decide
/-- V-B39. -/
theorem test_bmAlloc : nxt (exec .bmAlloc sB) = { sB with res0 := 0x2000#32, mem := [(0x1000, 0x0F#8)] } := by decide
/-- V-B42. -/
theorem test_bmAllocrun : nxt (exec (.bmAllocrun 2#32) sB) = { sB with res0 := 0x4000#32, mem := [(0x1000, 0x3B#8)] } := by decide
/-- V-W32. -/
theorem test_pgEnable : nxt (exec (.pgEnable 0x10000#32) { sT with ctrl := 0#32 }) = sM := by decide
/-- V-W1. -/
theorem test_vaDir : (nxt (exec (.vaDir 0xC0000000#32) State.reset)).res0 = 0x300#32 := by decide
/-- V-W4. -/
theorem test_vaTbl : (nxt (exec (.vaTbl 0xC0103000#32) State.reset)).res0 = 0x103#32 := by decide
/-- V-W9. -/
theorem test_walk : nxt (exec (.walk 0x401ABC#32) sM) = { sM with res0 := 0x5ABC#32, res1 := 0x5003#32 } := by decide
/-- V-W10: identity with paging off. -/
theorem test_xlate_identity : (nxt (exec (.xlate 0x401ABC#32) { sT with ctrl := 0#32 })).res0 = 0x401ABC#32 := by decide
/-- V-T3: a stale TLB entry is believed. -/
theorem test_xlate_stale : nxt (exec (.xlate 0x401ABC#32) sT) = { sT with res0 := 0x6ABC#32, res1 := 0x6003#32 } := by decide
/-- V-W8: the new table is in frame 17. -/
theorem test_map_new_table : (nxt (exec (.map 0x5000#32 0x401000#32) sW)).res1 = 0x11003#32 := by decide +kernel
/-- V-W13: the flags of the old PTE are kept. -/
theorem test_map : nxt (exec (.map 0x8000#32 0x403000#32) (store sM [(0x1100C#32, 0x60#32)])) =
    { store sM [(0x1100C#32, 0x8063#32)] with res0 := 0x8063#32, res1 := 0x11003#32 } := by decide
/-- V-W14 on `sM`: P of the PTE goes, the frame's bit stays. -/
theorem test_unmap : nxt (exec (.unmap 0x401000#32) sT) =
    { store sM [(0x11004#32, 0x5002#32)] with res0 := 0x5000#32, res1 := 0x5002#32 } := by decide
/-- V-W17 on `sM`. -/
theorem test_pageAlloc : nxt (exec (.pageAlloc 0x404000#32) sM) =
    { store sM [(0x1000#32, 0x7FFFF#32), (0x11010#32, 0x12003#32)] with res0 := 0x12000#32, res1 := 0x12003#32 } := by decide +kernel
/-- V-W28: the data frame is rolled back. -/
theorem test_pageAlloc_rolls_back : nxt (exec (.pageAlloc 0x401000#32) sL) = { sL with status := 1#32 } := by decide +kernel
/-- V-W19's shape on `sM`: the frame's bit and the PTE's P go. -/
theorem test_pageFree : nxt (exec (.pageFree 0x401000#32) sT) =
    { store sM [(0x1000#32, 0x3FFDF#32), (0x11004#32, 0x5002#32)] with res0 := 0x5000#32, res1 := 0x5002#32 } := by decide
/-- V-W23. -/
theorem test_pageFree_fatal : nxt (exec (.pageFree 0x401000#32) sO) =
    { sO with status := 0x210F#32, faultInfo := 0x100000#32, faultCmd := 0x28#32 } := by decide
/-- V-T4: any address of the page. -/
theorem test_invlpg : nxt (exec (.invlpg 0x401FFF#32) sT) = sM := by decide
/-- V-T18: STATUS is read before it is written. -/
theorem test_crRd_status : nxt (exec (.crRd 4#12) { State.reset with status := 1#32 }) = { State.reset with res0 := 1#32 } := by decide
/-- R110: a halted block executes CR.RD, STATUS stays. -/
theorem test_crRd_halted : nxt (exec (.crRd 5#12) sH) = { sH with res0 := 0x1800#32 } := by decide
/-- V-T7. -/
theorem test_crWr_ctrl : nxt (exec (.crWr 0#12 0xFFFFFFFF#32) { sT with ctrl := 0#32 }) = sM := by decide
/-- V-T19. -/
theorem test_crWr_nframes : nxt (exec (.crWr 3#12 0x100001#32) State.reset) =
    { State.reset with status := 0x210F#32, faultInfo := 0x100001#32, faultCmd := 0x332#32 } := by decide
/-- The host's withFetchWord makes the next step run the word (log 2). -/
theorem test_withFetchWord : (nxt (step (sB.withFetchWord 32 0x18))).res0 = 0x2000#32 := by decide
/-- R59: an illegal word is fatal. -/
theorem test_illegal_word : nxt (step (State.reset.withFetchWord 32 0x33)) =
    { State.reset with status := 0x310F#32, faultInfo := 0x33#32, faultCmd := 0x33#32, draws := 1 } := by decide

/-! ### Witnesses: for each obligation with hypotheses, operands and a state that meet them, clause by clause -/

theorem wit_ready : State.reset.halted = false ∧ sB.halted = false ∧ sX.halted = false ∧ sW.halted = false ∧ sM.halted = false ∧
    sT.halted = false ∧ sO.halted = false ∧ sF.halted = false ∧ sL.halted = false ∧ sH.halted = true := by decide

theorem wit_DecodeEncodeRoundTrip : (Instr.crWr 7#12 0xFFFFFFFF#32).wf = true ∧ (Instr.map 0#32 0xFFFFFFFF#32).wf = true := by decide

/-- A command that uses both operands, one that uses `arg0` only, one that ignores both. -/
theorem wit_DecodedInstructionKeepsWordAndOperands :
    decode ⟨0x00000025#32, 0x00005000#32, 0x00401000#32⟩ = .legal (.map 0x00005000#32 0x00401000#32) ∧
    decode ⟨0x00000732#32, 0xFFFFFFFF#32, 6#32⟩ = .legal (.crWr 7#12 0xFFFFFFFF#32) ∧
    decode ⟨0x00000010#32, 5#32, 6#32⟩ = .legal .bmSetall := by decide

/-- One word of each illegal kind and a legal one at the boundary, in a ready state. -/
theorem wit_IllegalWordsAreFatalAndNoOthers : State.reset.halted = false ∧
    (0x0000000B#32 : Word).extractLsb' 0 8 = 0x0B#8 ∧ (0x00100018#32 : Word).extractLsb' 20 12 ≠ 0#12 ∧
    (0x00000125#32 : Word).extractLsb' 8 12 ≠ 0#12 ∧ ((0x00000831#32 : Word).extractLsb' 8 12).toNat = 8 ∧
    ((0x00000731#32 : Word).extractLsb' 8 12).toNat = 7 ∧ (0x00000731#32 : Word).extractLsb' 20 12 = 0#12 := by decide

theorem wit_StepRunsTheDecodedCommandOrWaits : State.reset.inbox = [] ∧
    ({ sB with inbox := [.command ⟨0x18#32, 0#32, 0#32⟩] } : State).inbox = [.command ⟨0x18#32, 0#32, 0#32⟩] ∧
    decode ⟨0x18#32, 0#32, 0#32⟩ = .legal .bmAlloc ∧ decode ⟨0x33#32, 0#32, 0#32⟩ = .illegal (.unknownOpcode 0x33#8) := by decide

theorem wit_HostStoreChangesOneByteOnly :
    ({ sT with inbox := [.storeByte 0xFFFFFFFF#32 1#8] } : State).inbox = [.storeByte 0xFFFFFFFF#32 1#8] := by decide

theorem wit_ResetClearsRegistersAndKeepsMemory : ({ sH with inbox := [.reset] } : State).inbox = [.reset] := by decide

theorem wit_StepKeepsEveryStateLegal : (sB.present ⟨0x18#32, 0#32, 0#32⟩).Inv ∧
    step (sB.present ⟨0x18#32, 0#32, 0#32⟩) = .next (nxt (step (sB.present ⟨0x18#32, 0#32, 0#32⟩))) :=
  ⟨inv_sB, answers .bmAlloc ((sB.present ⟨0x18#32, 0#32, 0#32⟩).accept [])⟩

theorem wit_EntryAddressesNeverWrap : sW.pdbr.extractLsb' 0 12 = 0#12 ∧ (0xFFFFF000#32 : Word).extractLsb' 0 12 = 0#12 := by decide

/-- EntPackBuildsAnEntry, EntSetframeReplacesTheAddress, PgEnableLoadsTheDirectory: an aligned and a misaligned address. -/
theorem wit_aligned4K : State.reset.halted = false ∧ (0xFFFFF000#32 : Word).extractLsb' 0 12 = 0#12 ∧
    (0xFFFFF800#32 : Word).extractLsb' 0 12 ≠ 0#12 ∧ (0x00000001#32 : Word).extractLsb' 0 12 ≠ 0#12 := by decide

/-- EntLdReadsOneWord, EntStWritesOneWord: an aligned and a misaligned address. -/
theorem wit_aligned4 : State.reset.halted = false ∧ (0xFFFFFFFC#32 : Word).extractLsb' 0 2 = 0#2 ∧
    (0x00002002#32 : Word).extractLsb' 0 2 ≠ 0#2 ∧ (0x00002001#32 : Word).extractLsb' 0 2 ≠ 0#2 := by decide

theorem wit_CodecLawsHold : State.reset.halted = false ∧ (0x400000#32 : Word).extractLsb' 0 12 = 0#12 ∧
    State.reset.gives (.entPack 3#12 0x400000#32) 0x400003#32 ∧ State.reset.gives (.entAdd 3#12 0#32) 3#32 ∧
    State.reset.gives (.entSetframe 0x6A063#32 0x400000#32) 0x400063#32 ∧ State.reset.gives (.entGetflags 0x6A063#32) 0x63#32 ∧
    State.reset.gives (.entGetframe 0x6A063#32) 0x6A000#32 ∧ State.reset.gives (.entAdd 3#12 0x6A063#32) 0x6A063#32 ∧
    State.reset.gives (.entDel 3#12 0x6A063#32) 0x6A060#32 :=
  ⟨by decide, by decide, ⟨_, answers _ _, by decide, by decide⟩, ⟨_, answers _ _, by decide, by decide⟩,
    ⟨_, answers _ _, by decide, by decide⟩, ⟨_, answers _ _, by decide, by decide⟩, ⟨_, answers _ _, by decide, by decide⟩,
    ⟨_, answers _ _, by decide, by decide⟩, ⟨_, answers _ _, by decide, by decide⟩⟩

/-- BmSetallMarksEveryFrame and BmFreeregFreesWholeFrames: a bitmap that fits, one that ends exactly at 2^32, one word too high. -/
theorem wit_bitmapFits : sB.halted = false ∧ sB.bitmapFits ∧ ({ sX with bmbase := 0xFFFFFFF8#32 } : State).bitmapFits ∧ sX.halted = false ∧
    ¬ sX.bitmapFits := by decide

theorem wit_BmRsvregReservesTouchedFrames : sB.halted = false ∧ sB.bitmapFits ∧ ¬ sX.bitmapFits ∧ (0#32 : Word) = 0#32 ∧ (1#32 : Word) ≠ 0#32 := by
  decide

/-- BmTestReadsTheFramesBit, BmMarkSetsOneBit, BmFreeClearsOneBit: a misaligned address, the first frame that does not exist, the last one that
does with a bitmap too high and with one that fits. -/
theorem wit_frameAddress : sB.halted = false ∧ (0x3F001#32 : Word).extractLsb' 0 12 ≠ 0#12 ∧ (0x40000#32 : Word).extractLsb' 0 12 = 0#12 ∧
    sB.nframes.toNat ≤ ((0x40000#32 : Word) >>> 12).toNat ∧ (0x3F000#32 : Word).extractLsb' 0 12 = 0#12 ∧
    ((0x3F000#32 : Word) >>> 12).toNat < sX.nframes.toNat ∧ sX.halted = false ∧ ¬ sX.bitmapFits ∧
    ((0x3F000#32 : Word) >>> 12).toNat < sB.nframes.toNat ∧ sB.bitmapFits := by decide

/-- BmFindAnswersTheLeastFreeFrame, BmAllocTakesTheLeastFreeFrame: a first free frame, the last frame as the only free one, none. -/
theorem wit_leastFree : sB.bitmapFits ∧ sB.leastFree 2 ∧ sL.bitmapFits ∧ sL.leastFree 63 ∧ sF.bitmapFits ∧ sF.noFree ∧ ¬ sX.bitmapFits := by
  unfold State.leastFree State.noFree
  decide +kernel

/-- BmFindrunAnswersTheLowestRun, BmAllocrunTakesTheLowestRun: a run, a count of 0, a count one above NFRAMES. -/
theorem wit_leastRun : sB.bitmapFits ∧ (2#32 : Word) ≠ 0#32 ∧ sB.leastRun (2#32 : Word).toNat 4 ∧ (0#32 : Word) = 0#32 ∧
    (∀ f, ¬ sB.freeRun (65#32 : Word).toNat f) ∧ ¬ sX.bitmapFits := by
  have h : sB.freeRun 2 4 ∧ ¬ sB.freeRun 2 0 ∧ ¬ sB.freeRun 2 1 ∧ ¬ sB.freeRun 2 2 ∧ ¬ sB.freeRun 2 3 := by
    refine ⟨⟨by decide, fun g h1 h2 => ?_⟩, fun h => ?_, fun h => ?_, fun h => ?_, fun h => ?_⟩
    · have : g = 4 ∨ g = 5 := by omega
      rcases this with rfl | rfl <;> decide
    · exact absurd (h.2 0 (by decide) (by decide)) (by decide)
    · exact absurd (h.2 1 (by decide) (by decide)) (by decide)
    · exact absurd (h.2 3 (by decide) (by decide)) (by decide)
    · exact absurd (h.2 3 (by decide) (by decide)) (by decide)
  refine ⟨by decide, by decide, ⟨h.1, fun g hg => ?_⟩, rfl, fun f hf => ?_, by decide⟩
  · interval_cases g
    · exact h.2.1
    · exact h.2.2.1
    · exact h.2.2.2.1
    · exact h.2.2.2.2
  · have h1 : f + 65 ≤ 64 := hf.1
    omega

theorem wit_AllocatedFrameIsUsedUntilFreed : sB.Inv ∧ sB.halted = false ∧ exec .bmAlloc sB = .next (nxt (exec .bmAlloc sB)) ∧
    statusResult (nxt (exec .bmAlloc sB)).status = 0#4 := ⟨inv_sB, by decide, answers _ _, by decide⟩

theorem wit_SuccessiveAllocationsAscend :
    let t := nxt (exec .bmAlloc sB)
    sB.Inv ∧ sB.halted = false ∧ exec .bmAlloc sB = .next t ∧ statusResult t.status = 0#4 ∧
    exec .bmAlloc t = .next (nxt (exec .bmAlloc t)) ∧ statusResult (nxt (exec .bmAlloc t)).status = 0#4 :=
  ⟨inv_sB, by decide, answers _ _, by decide, answers _ _, by decide⟩

/-- Each of the three ends: an outcome, a fatal fault, the halted block; bytes at both edges of the bitmap. -/
theorem wit_ScannerWritesOnlyTheBitmapRes0AndItsOutcome : Instr.bmSetall.opc.extractLsb' 4 4 = 1#4 ∧
    (Instr.bmAllocrun 2#32).opc.extractLsb' 4 4 = 1#4 ∧ exec .bmSetall sB = .next (nxt (exec .bmSetall sB)) ∧ sB.halted = false ∧
    exec .bmSetall sX = .next (nxt (exec .bmSetall sX)) ∧ sX.halted = false ∧ (nxt (exec .bmSetall sX)).halted = true ∧
    exec .bmSetall sH = .next (nxt (exec .bmSetall sH)) ∧ sH.halted = true ∧ ¬ sB.inBitmap 0xFFF#32 ∧ ¬ sB.inBitmap 0x1008#32 :=
  ⟨by decide, by decide, answers _ _, by decide, answers _ _, by decide, by decide, answers _ _, by decide, by decide, by decide⟩

/-- WalkReadsTheTables, UnmapClearsPresent, PageAllocFailsWithoutWriting, PageFreeUnmapsAndFrees: a mapped page, an unmapped one at
each level, each check failing alone. -/
theorem wit_mapped : sM.halted = false ∧ sM.mapped 0x401000#32 ∧ ¬ sM.mapped 0x402000#32 ∧ ¬ sM.mapped 0x801000#32 ∧
    (0x401000#32 : Word).extractLsb' 0 12 = 0#12 ∧ (0x402000#32 : Word).extractLsb' 0 12 = 0#12 ∧
    (0x401800#32 : Word).extractLsb' 0 12 ≠ 0#12 ∧ sM.bitmapFits ∧ (sM.pteValue 0x401000#32 >>> 12).toNat < sM.nframes.toNat ∧
    sO.mapped 0x401000#32 ∧ sO.nframes.toNat ≤ (sO.pteValue 0x401000#32 >>> 12).toNat ∧
    ({ sM with bmbase := 0xFFFFFFFC#32 } : State).mapped 0x401000#32 ∧ ¬ ({ sM with bmbase := 0xFFFFFFFC#32 } : State).bitmapFits := by
  unfold State.mapped
  decide

theorem wit_XlateWithoutFill : sT.halted = false ∧ sW.ctrl.getLsbD 0 = false ∧ sT.ctrl.getLsbD 0 = true ∧
    sT.tlb.lookup ((0x401FFF#32 : Word).extractLsb' 12 20) = some 0x6003#32 ∧
    sT.tlb.lookup ((0x402000#32 : Word).extractLsb' 12 20) = none ∧ ¬ sT.mapped 0x402000#32 := by
  unfold State.mapped
  decide

theorem wit_XlateMissFillsAsAdmitted : sM.halted = false ∧ sM.ctrl.getLsbD 0 = true ∧
    sM.tlb.lookup ((0x401ABC#32 : Word).extractLsb' 12 20) = none ∧ sM.mapped 0x401ABC#32 := by
  unfold State.mapped
  decide

theorem wit_MapWritesThePteOfAnExistingTable : sM.halted = false ∧ (0x8000#32 : Word).extractLsb' 0 12 = 0#12 ∧
    (0x7FF000#32 : Word).extractLsb' 0 12 = 0#12 ∧ (sM.pdeValue 0x7FF000#32).getLsbD 0 = true := by decide

theorem wit_MapCreatesTheTable : sW.Inv ∧ sW.halted = false ∧ (0x5000#32 : Word).extractLsb' 0 12 = 0#12 ∧
    (0x401000#32 : Word).extractLsb' 0 12 = 0#12 ∧ (sW.pdeValue 0x401000#32).getLsbD 0 = false ∧ sW.bitmapFits ∧ sW.leastFree 17 := by
  refine ⟨inv_sW, ?_⟩
  unfold State.leastFree
  decide +kernel

theorem wit_MapFailsWithoutWriting : sW.halted = false ∧ (0x5001#32 : Word).extractLsb' 0 12 ≠ 0#12 ∧
    (0x5000#32 : Word).extractLsb' 0 12 = 0#12 ∧ (0x401001#32 : Word).extractLsb' 0 12 ≠ 0#12 ∧ (0x401000#32 : Word).extractLsb' 0 12 = 0#12 ∧
    (sX.pdeValue 0x401000#32).getLsbD 0 = false ∧ ¬ sX.bitmapFits ∧ (sF.pdeValue 0x401000#32).getLsbD 0 = false ∧ sF.bitmapFits ∧ sF.noFree := by
  unfold State.noFree
  decide +kernel

/-- The clauses of PageAllocFailsWithoutWriting that `wit_mapped` does not meet: a bitmap too high, no free frame, the roll-back. -/
theorem wit_PageAllocFailsWithoutWriting : ¬ sX.mapped 0x401000#32 ∧ ¬ sX.bitmapFits ∧ ¬ sF.mapped 0x401000#32 ∧ sF.bitmapFits ∧ sF.noFree ∧
    sL.Inv ∧ sL.halted = false ∧ (0x401000#32 : Word).extractLsb' 0 12 = 0#12 ∧ sL.bitmapFits ∧
    ({ sL with mem := sL.memWithBit 63 }.pdeValue 0x401000#32).getLsbD 0 = false ∧
    sL.leastFree 63 ∧ (∀ g, g < sL.nframes.toNat → g ≠ 63 → sL.bit g = true) := by
  have h := inv_sL
  unfold State.mapped State.noFree State.leastFree
  refine ⟨by decide, by decide, by decide, by decide, by decide +kernel, h, ?_⟩
  decide +kernel

/-- The bitmap apart from the page's entries. -/
theorem wit_PageAllocMapsTheLeastFreeFrame : sM.Inv ∧ sM.halted = false ∧ (0x404000#32 : Word).extractLsb' 0 12 = 0#12 ∧
    ¬ sM.mapped 0x404000#32 ∧ sM.bitmapFits ∧ sM.leastFree 18 ∧
    ({ sM with mem := sM.memWithBit 18 }.pdeValue 0x404000#32).getLsbD 0 = true ∧
    sM.bitmapWordOf 18 ≠ sM.pdePlace 0x404000#32 ∧ sM.bitmapWordOf 18 ≠ sM.ptePlace 0x404000#32 := by
  refine ⟨inv_sM, ?_⟩
  unfold State.mapped State.leastFree
  decide +kernel

/-- The word of the frame's bit is the PDE's word: the page is unmapped, and the bit that is set makes the PDE present. -/
theorem wit_PageAllocMapsTheLeastFreeFrame_over_pde :
    let s : State := { sW with bmbase := 0x10000#32 }
    s.Inv ∧ s.halted = false ∧ (0x1000#32 : Word).extractLsb' 0 12 = 0#12 ∧ ¬ s.mapped 0x1000#32 ∧ s.bitmapFits ∧ s.leastFree 0 ∧
    s.bitmapWordOf 0 = s.pdePlace 0x1000#32 ∧ ({ s with mem := s.memWithBit 0 }.pdeValue 0x1000#32).getLsbD 0 = true := by
  have h := inv_sW
  refine ⟨⟨h.1, h.2.1, by decide, h.2.2.2⟩, ?_⟩
  unfold State.mapped State.leastFree
  decide +kernel

/-- The word of the frame's bit is the PTE's word. -/
theorem wit_PageAllocMapsTheLeastFreeFrame_over_pte :
    let s : State := { sM with bmbase := 0x11000#32 }
    s.Inv ∧ s.halted = false ∧ (0x400000#32 : Word).extractLsb' 0 12 = 0#12 ∧ ¬ s.mapped 0x400000#32 ∧ s.bitmapFits ∧ s.leastFree 0 ∧
    s.bitmapWordOf 0 = s.ptePlace 0x400000#32 ∧ ({ s with mem := s.memWithBit 0 }.pdeValue 0x400000#32).getLsbD 0 = true := by
  have h := inv_sM
  refine ⟨⟨h.1, h.2.1, by decide, h.2.2.2⟩, ?_⟩
  unfold State.mapped State.leastFree
  decide +kernel

theorem wit_PageAllocCreatesTheTable : sM.Inv ∧ sM.halted = false ∧ (0xC00000#32 : Word).extractLsb' 0 12 = 0#12 ∧
    sM.bitmapFits ∧ sM.leastFree 18 ∧ 18 < 19 ∧ 19 < sM.nframes.toNat ∧ sM.bit 19 = false ∧
    (∀ h, 18 < h → h < 19 → sM.bit h = true) ∧ ({ sM with mem := sM.memWithBit 18 }.pdeValue 0xC00000#32).getLsbD 0 = false := by
  have h : ∀ h, 18 < h → h < 19 → sM.bit h = true := fun h h1 h2 => by omega
  unfold State.leastFree
  exact ⟨inv_sM, by decide, by decide, by decide, by decide +kernel, by decide, by decide, by decide, h, by decide⟩

/-- MapThenTranslateGivesTheFrame where the table must be created, the directory's frame being in use. -/
theorem wit_MapThenTranslateGivesTheFrame_new_table :
    let s : State := { sW with ctrl := 1#32 }
    s.Inv ∧ s.halted = false ∧ s.bit (s.pdbr >>> 12).toNat = true ∧ (s.pdeValue 0x401000#32).getLsbD 0 = false ∧
    exec (.map 0x5000#32 0x401000#32) s = .next (nxt (exec (.map 0x5000#32 0x401000#32) s)) ∧
    statusResult (nxt (exec (.map 0x5000#32 0x401000#32) s)).status = 0#4 ∧
    (nxt (exec (.map 0x5000#32 0x401000#32) s)).ctrl.getLsbD 0 = true ∧ (0x401FFF#32 : Word) &&& 0xFFFFF000#32 = 0x401000#32 := by
  intro s
  exact ⟨⟨.inr rfl, inv_sW.2⟩, by decide, by decide, by decide, answers _ _, by decide +kernel, by decide +kernel, by decide⟩

/-- MapThenTranslateGivesTheFrame where the table exists and is not the directory. -/
theorem wit_MapThenTranslateGivesTheFrame_old_table : sM.Inv ∧ sM.halted = false ∧ sM.bit (sM.pdbr >>> 12).toNat = true ∧
    sM.pdeValue 0x402000#32 &&& 0xFFFFF000#32 ≠ sM.pdbr ∧
    exec (.map 0x5000#32 0x402000#32) sM = .next (nxt (exec (.map 0x5000#32 0x402000#32) sM)) ∧
    statusResult (nxt (exec (.map 0x5000#32 0x402000#32) sM)).status = 0#4 ∧
    (nxt (exec (.map 0x5000#32 0x402000#32) sM)).ctrl.getLsbD 0 = true ∧ (0x402000#32 : Word) &&& 0xFFFFF000#32 = 0x402000#32 :=
  ⟨inv_sM, by decide, by decide, by decide, answers _ _, by decide⟩

/-- PageRoundTripReusesTheFrame where the page's table exists and where it must be created. -/
theorem wit_PageRoundTripReusesTheFrame : sM.Inv ∧ sM.halted = false ∧ sM.bit (sM.pdbr >>> 12).toNat = true ∧
    sM.pdeValue 0x404000#32 &&& 0xFFFFF000#32 ≠ sM.pdbr ∧ (sM.pdeValue 0xC00000#32).getLsbD 0 = false ∧
    (∀ a, sM.inBitmap a → sM.bit (a >>> 12).toNat = true ∧ a &&& 0xFFFFF000#32 ≠ sM.pdbr ∧
      a &&& 0xFFFFF000#32 ≠ sM.pdeValue 0x404000#32 &&& 0xFFFFF000#32) ∧
    exec (.pageAlloc 0x404000#32) sM = .next (nxt (exec (.pageAlloc 0x404000#32) sM)) ∧
    statusResult (nxt (exec (.pageAlloc 0x404000#32) sM)).status = 0#4 ∧
    exec (.pageAlloc 0xC00000#32) sM = .next (nxt (exec (.pageAlloc 0xC00000#32) sM)) ∧
    statusResult (nxt (exec (.pageAlloc 0xC00000#32) sM)).status = 0#4 := by
  refine ⟨inv_sM, by decide, by decide, by decide, by decide, fun a ha => ?_, answers _ _, by decide +kernel, answers _ _, by decide +kernel⟩
  have h1 : 0x1000 ≤ a.toNat := ha.1
  have h2 : a.toNat < 0x1008 := ha.2
  have : a.toNat ∈ [0x1000, 0x1001, 0x1002, 0x1003, 0x1004, 0x1005, 0x1006, 0x1007] := by
    simp only [List.mem_cons, List.not_mem_nil, or_false]
    omega
  have key : ∀ k ∈ [0x1000, 0x1001, 0x1002, 0x1003, 0x1004, 0x1005, 0x1006, 0x1007],
      sM.bit ((BitVec.ofNat 32 k) >>> 12).toNat = true ∧ (BitVec.ofNat 32 k) &&& 0xFFFFF000#32 ≠ sM.pdbr ∧
        (BitVec.ofNat 32 k) &&& 0xFFFFF000#32 ≠ sM.pdeValue 0x404000#32 &&& 0xFFFFF000#32 := by decide
  have := key _ this
  rwa [BitVec.ofNat_toNat, BitVec.setWidth_eq] at this

theorem wit_UnmappedPageIsNotPresent : sM.Inv ∧ sM.halted = false ∧
    exec (.unmap 0x401000#32) sM = .next (nxt (exec (.unmap 0x401000#32) sM)) ∧
    statusResult (nxt (exec (.unmap 0x401000#32) sM)).status = 0#4 ∧ (0x401FFF#32 : Word) &&& 0xFFFFF000#32 = 0x401000#32 ∧
    (nxt (exec (.unmap 0x401000#32) sM)).ctrl.getLsbD 0 = true := ⟨inv_sM, by decide, answers _ _, by decide⟩

/-- MappingCommandsDropThePagesEntry for each of the four commands. -/
theorem wit_MappingCommandsDropThePagesEntry : sT.halted = false ∧
    exec (.map 0x5000#32 0x401000#32) sT = .next (nxt (exec (.map 0x5000#32 0x401000#32) sT)) ∧
    statusResult (nxt (exec (.map 0x5000#32 0x401000#32) sT)).status = 0#4 ∧
    exec (.unmap 0x401000#32) sT = .next (nxt (exec (.unmap 0x401000#32) sT)) ∧
    statusResult (nxt (exec (.unmap 0x401000#32) sT)).status = 0#4 ∧
    exec (.pageAlloc 0x402000#32) sT = .next (nxt (exec (.pageAlloc 0x402000#32) sT)) ∧
    statusResult (nxt (exec (.pageAlloc 0x402000#32) sT)).status = 0#4 ∧
    exec (.pageFree 0x401000#32) sT = .next (nxt (exec (.pageFree 0x401000#32) sT)) ∧
    statusResult (nxt (exec (.pageFree 0x401000#32) sT)).status = 0#4 :=
  ⟨by decide, answers _ _, by decide, answers _ _, by decide, answers _ _, by decide +kernel, answers _ _, by decide⟩

theorem wit_XlateAfterInvlpgWalksMemory :
    let t := nxt (exec (.invlpg 0x401FFF#32) sT)
    sT.halted = false ∧ sT.ctrl.getLsbD 0 = true ∧ (0x401FFF#32 : Word).extractLsb' 12 20 = (0x401000#32 : Word).extractLsb' 12 20 ∧
    exec (.invlpg 0x401FFF#32) sT = .next t ∧ exec (.xlate 0x401000#32) t = .next (nxt (exec (.xlate 0x401000#32) t)) ∧
    exec (.walk 0x401000#32) t = .next (nxt (exec (.walk 0x401000#32) t)) := by
  intro t
  exact ⟨by decide, by decide, by decide, answers _ _, answers _ _, answers _ _⟩

theorem wit_CrRdReadsTheRegister : (7#12 : BitVec 12).toNat ≤ 7 ∧ sB.halted = false ∧ sH.halted = true ∧ 8 ≤ (8#12 : BitVec 12).toNat := by decide

theorem wit_CrWrWritesTheRegister : sB.halted = false ∧ (0x66000#32 : Word).extractLsb' 0 12 = 0#12 ∧ (0x66004#32 : Word).extractLsb' 0 12 ≠ 0#12 ∧
    (0x1004#32 : Word).extractLsb' 0 2 = 0#2 ∧ (0x1002#32 : Word).extractLsb' 0 2 ≠ 0#2 ∧ (0x100000#32 : Word).toNat ≤ 0x100000 ∧
    0x100000 < (0x100001#32 : Word).toNat ∧ 4 ≤ (4#12 : BitVec 12).toNat ∧ (7#12 : BitVec 12).toNat ≤ 7 ∧ 8 ≤ (8#12 : BitVec 12).toNat := by decide

theorem wit_OnlyTheNamedCommandsWriteEachRegister : exec .bmFind sB = .next (nxt (exec .bmFind sB)) ∧
    exec .bmSetall sB = .next (nxt (exec .bmSetall sB)) ∧ Instr.bmSetall.opc ∈ [0x0A#8, 0x10#8, 0x20#8, 0x30#8, 0x32#8] ∧
    Instr.bmFind.opc ≠ 0x32#8 ∧ Instr.bmFind.opc ≠ 0x20#8 ∧ Instr.bmFind.opc ∉ [0x23#8, 0x24#8, 0x25#8, 0x26#8, 0x27#8, 0x28#8] ∧
    ¬ (sB.halted = false ∧ (nxt (exec .bmFind sB)).halted = true) ∧
    Instr.bmFind.opc ∉ [0x20#8, 0x24#8, 0x25#8, 0x26#8, 0x27#8, 0x28#8, 0x30#8, 0x32#8] ∧
    Instr.bmFind.opc ∉ [0x0A#8, 0x10#8, 0x11#8, 0x12#8, 0x14#8, 0x15#8, 0x18#8, 0x19#8, 0x25#8, 0x26#8, 0x27#8, 0x28#8] :=
  ⟨answers _ _, answers _ _, by decide⟩

theorem wit_OnlyXlateFillsTheTlb : (∀ va, Instr.walk 0x401000#32 ≠ .xlate va) ∧
    exec (.walk 0x401000#32) sT = .next (nxt (exec (.walk 0x401000#32) sT)) ∧
    (⟨0x401#20, 0x6003#32⟩ : TlbEntry) ∈ (nxt (exec (.walk 0x401000#32) sT)).tlb :=
  ⟨fun va h => (by cases h), answers _ _, by decide⟩

theorem wit_RecoverableOutcomesWriteNoMemory : sF.halted = false ∧ sM.halted = false ∧ exec .bmAlloc sF = .next (nxt (exec .bmAlloc sF)) ∧
    statusResult (nxt (exec .bmAlloc sF)).status = 1#4 ∧ exec (.walk 0x402000#32) sM = .next (nxt (exec (.walk 0x402000#32) sM)) ∧
    statusResult (nxt (exec (.walk 0x402000#32) sM)).status = 2#4 ∧
    exec (.pageAlloc 0x401000#32) sM = .next (nxt (exec (.pageAlloc 0x401000#32) sM)) ∧
    statusResult (nxt (exec (.pageAlloc 0x401000#32) sM)).status = 3#4 :=
  ⟨by decide, by decide, answers _ _, by decide, answers _ _, by decide, answers _ _, by decide⟩

theorem wit_FatalFaultsArePrecise : sB.halted = false ∧ exec (.bmMark 0x40000#32) sB = .next (nxt (exec (.bmMark 0x40000#32) sB)) ∧
    (nxt (exec (.bmMark 0x40000#32) sB)).halted = true := ⟨by decide, answers _ _, by decide⟩

theorem wit_HaltedBlockRefusesAllButCrRd : sH.halted = true ∧ decode ⟨0x731#32, 0#32, 0#32⟩ = .legal (.crRd 7#12) ∧
    (∀ n, decode ⟨0x831#32, 0#32, 0#32⟩ ≠ .legal (.crRd n)) ∧ ∀ n, decode ⟨0x18#32, 0#32, 0#32⟩ ≠ .legal (.crRd n) := by
  have h1 : decode ⟨0x831#32, 0#32, 0#32⟩ = .illegal .noSuchRegister := by decide
  have h2 : decode ⟨0x18#32, 0#32, 0#32⟩ = .legal .bmAlloc := by decide
  exact ⟨by decide, by decide, fun n h => (by rw [h1] at h; cases h), fun n h => (by rw [h2] at h; cases h)⟩

theorem wit_OnlyResetLeavesTheHaltedState :
    let s := sH.present ⟨0x18#32, 0#32, 0#32⟩
    s.halted = true ∧ step s = .next (nxt (step s)) ∧ ∀ rest, s.inbox ≠ .reset :: rest := by
  intro s
  exact ⟨by decide, answers .bmAlloc (s.accept []), fun rest h => (by cases h)⟩

end Sys2Proof.Machine.Tests
end

