-- ==== Sys2Proof/Proofs/Scope.lean ====
section
/-! Proofs for spec/00_scope.md: what one step does with each kind of waiting host action, and O5. -/

namespace Sys2Proof.Machine

/-- A waiting block stays as it is (R122). -/
theorem step_of_inbox_nil {s : State} (h : s.inbox = []) : step s = .next s := by
  simp only [step, stepInbox, h]

/-- R12: the step that takes a command runs it whole, in the state that has accepted it. -/
theorem step_of_inbox_command {s : State} {c : Command} {rest : List HostAction} (h : s.inbox = .command c :: rest) :
    step s = runCommand c (s.accept rest) := by
  simp only [step, stepInbox, h]

theorem runCommand_of_legal {c : Command} {i : Instr} (h : decode c = .legal i) (s : State) : runCommand c s = exec i s := by
  simp only [runCommand, h]

/-- R60: every reason for which a word is illegal has the one fatal end. -/
theorem runCommand_of_illegal {c : Command} {why : IllegalWord} (h : decode c = .illegal why) (s : State) :
    runCommand c s = execIllegal c.word s := by
  simp only [runCommand, h]

/-- Settles O5, by the kind of the oldest host action: none, or a command, which is then split by what `decode` answers. The accepted
state that O5 writes out field by field is `State.accept` by definition. -/
theorem stepRunsTheDecodedCommandOrWaits : Obligations.StepRunsTheDecodedCommandOrWaits := by
  intro s
  refine ⟨step_of_inbox_nil, fun c rest hcmd => ⟨fun i hlegal => ?legal, fun why hillegal => ?illegal⟩⟩
  case legal => exact (step_of_inbox_command hcmd).trans (runCommand_of_legal hlegal (s.accept rest))
  case illegal => exact (step_of_inbox_command hcmd).trans (runCommand_of_illegal hillegal (s.accept rest))

end Sys2Proof.Machine
end

section
/-! Proofs for spec/10_state.md: what each command may write before it ends, said once for all commands (`Effect`, `Ends`,
`exec_answers`, `exec_cases`), and from it O9, O10, O8, O56, O55, O33; the fill of the TLB, O38; what the decoder keeps, O2. -/

namespace Sys2Proof.Machine

/-! ### The bitmap as a command leaves it -/

/-- `m` is a memory that a BM.* command may leave: canonical where the memory before was, and the same outside the bitmap (R76). -/
structure BitmapWritten (s : State) (m : Memory) : Prop where
  wf : s.mem.wf → m.wf
  outside : ∀ a, ¬ s.inBitmap a → m.readByte a = s.mem.readByte a

theorem BitmapWritten.none (s : State) : BitmapWritten s s.mem := ⟨id, fun _ _ => rfl⟩

theorem BitmapWritten.setBits {s : State} (h : s.bitmapFits) {first n : Nat} (hn : first + n ≤ s.frameCount) :
    BitmapWritten s (s.setBits first n).mem :=
  ⟨fun hm => State.wf_setBits hm first n,
    fun _ ha => State.readByte_setBits h (le_trans hn s.frameCount_le_bits) ha⟩

theorem BitmapWritten.clearBits {s : State} (h : s.bitmapFits) {first n : Nat} (hn : first + n ≤ s.frameCount) :
    BitmapWritten s (s.clearBits first n).mem :=
  ⟨fun hm => State.wf_clearBits hm first n,
    fun _ ha => State.readByte_clearBits h (le_trans hn s.frameCount_le_bits) ha⟩

theorem BitmapWritten.setBit {s : State} (h : s.bitmapFits) {f : Nat} (hf : f < s.frameCount) :
    BitmapWritten s (s.setBit f).mem := BitmapWritten.setBits (n := 1) h hf

theorem BitmapWritten.clearBit {s : State} (h : s.bitmapFits) {f : Nat} (hf : f < s.frameCount) :
    BitmapWritten s (s.clearBit f).mem := BitmapWritten.clearBits (n := 1) h hf

theorem BitmapWritten.fillBitmap {s : State} (h : s.bitmapFits) : BitmapWritten s (s.fillBitmap s.bmWords).mem :=
  ⟨fun hm => State.wf_fillBitmap hm s.bmWords, fun _ ha => State.readByte_fillBitmap h le_rfl ha⟩

/-- A range clipped at NFRAMES may be empty with its start past NFRAMES; then no bit is written. -/
theorem BitmapWritten.clearBits_clipped {s : State} (h : s.bitmapFits) (first last : Nat) :
    BitmapWritten s (s.clearBits first (min last s.frameCount - first)).mem := by
  by_cases he : min last s.frameCount - first = 0
  · rw [he]; exact BitmapWritten.none s
  · exact BitmapWritten.clearBits h (by omega)

theorem BitmapWritten.setBits_clipped {s : State} (h : s.bitmapFits) (first last : Nat) :
    BitmapWritten s (s.setBits first (min last s.frameCount - first)).mem := by
  by_cases he : min last s.frameCount - first = 0
  · rw [he]; exact BitmapWritten.none s
  · exact BitmapWritten.setBits h (by omega)

/-! ### What a command may write -/

/-- The commands that write RES0 and nothing else before they end (R57). -/
abbrev resultOpcodes : List (BitVec 8) :=
  [0x01#8, 0x02#8, 0x03#8, 0x04#8, 0x05#8, 0x06#8, 0x07#8, 0x08#8, 0x09#8, 0x13#8, 0x16#8, 0x17#8, 0x21#8, 0x22#8, 0x31#8]
/-- The commands that write the bitmap and RES0 (R57). -/
abbrev bitmapOpcodes : List (BitVec 8) := [0x11#8, 0x12#8, 0x14#8, 0x15#8, 0x18#8, 0x19#8]
/-- The commands that write entries (R57). -/
abbrev mappingOpcodes : List (BitVec 8) := [0x25#8, 0x26#8, 0x27#8, 0x28#8]
/-- The commands that walk the tables: WALK, XLATE and those that write entries (R57). -/
abbrev walkOpcodes : List (BitVec 8) := [0x23#8, 0x24#8, 0x25#8, 0x26#8, 0x27#8, 0x28#8]

/-- What a command that does not fault has written when it reaches `finish(code)`, by the opcodes that write alike (R57). -/
inductive Effect (i : Instr) (s : State) : ResultCode → State → Prop
  /-- RES0 only -/
  | result {code : ResultCode} (v : Word)
      (hi : i.opc ∈ resultOpcodes := by simp [Instr.opc])
      (hc : code ∈ [.ok, .outOfPhys] := by decide) : Effect i s code (s.setRes0 v)
  /-- ENT.ST: one word of memory -/
  | wordStore (pa v : Word) (hi : i.opc = 0x0A#8 := by rfl) : Effect i s .ok (s.memWrite32 pa v)
  /-- BM.SETALL: the bitmap, with no result -/
  | bitmap (m : Memory) (hm : BitmapWritten s m) (hi : i.opc = 0x10#8 := by rfl) : Effect i s .ok { s with mem := m }
  /-- the other BM.* commands that write: the bitmap and RES0 -/
  | bitmapResult {code : ResultCode} (m : Memory) (v : Word)
      (hm : BitmapWritten s m) (hi : i.opc ∈ bitmapOpcodes := by simp [Instr.opc])
      (hc : code ∈ [.ok, .outOfPhys] := by decide) : Effect i s code ({ s with mem := m }.setRes0 v)
  /-- a walk or mapping command that changes no entry: RES0 and RES1 -/
  | walked {code : ResultCode} (v w : Word) (hi : i.opc ∈ walkOpcodes := by simp [Instr.opc])
      (hc : code ≠ .fatal := by decide) : Effect i s code ((s.setRes0 v).setRes1 w)
  /-- XLATE after a miss: the results, and the TLB as the fill draw leaves it (R30) -/
  | filled (vpn : BitVec 20) (pte v w : Word) (hp : pte.getLsbD 0 = true) (hi : i.opc = 0x24#8 := by rfl) :
      Effect i s .ok (((s.tlbMaybeFill vpn pte).setRes0 v).setRes1 w)
  /-- a mapping command that went through: memory, the results, and the page's TLB entry gone -/
  | mapping (m : Memory) (vpn : BitVec 20) (v w : Word) (hm : s.mem.wf → m.wf)
      (hi : i.opc ∈ mappingOpcodes := by simp [Instr.opc]) : Effect i s .ok ((({ s with mem := m }.tlbRemove vpn).setRes0 v).setRes1 w)
  /-- PAGE.ALLOC that found a data frame but no table frame and gave the data frame back (R100) -/
  | rolledBack (m : Memory) (v w : Word) (hm : s.mem.wf → m.wf) (hi : i.opc = 0x27#8 := by rfl) :
      Effect i s .outOfPhys (({ s with mem := m }.setRes0 v).setRes1 w)
  /-- INVLPG -/
  | invalidated (vpn : BitVec 20) (hi : i.opc = 0x30#8 := by rfl) : Effect i s .ok (s.tlbRemove vpn)
  /-- a write of CTRL or PDBR, which empties the TLB (R31) -/
  | directory (c d : Word) (hc : (s.ctrl = 0#32 ∨ s.ctrl = 1#32) → (c = 0#32 ∨ c = 1#32))
      (hd : aligned4K s.pdbr = true → aligned4K d = true) (hi : i.opc ∈ [0x20#8, 0x32#8] := by simp [Instr.opc]) :
      Effect i s .ok ({ s with ctrl := c, pdbr := d }.tlbFlush)
  /-- a write of BMBASE, NFRAMES or a register that ignores it -/
  | geometry (b n : Word) (hb : aligned4 s.bmbase = true → aligned4 b = true)
      (hn : s.nframes.toNat ≤ maxFrames → n.toNat ≤ maxFrames) (hi : i.opc = 0x32#8 := by rfl) :
      Effect i s .ok { s with bmbase := b, nframes := n }

/-- How a command ends in a block that is not halted: in a fatal fault, with no other effect (R109), or by `finish` after its effect. -/
inductive Ends (i : Instr) (s : State) : State → Prop
  | fatal (cause : FaultCause) (info : Word) (hc : cause = .illegalCommand → i.opc ∈ [0x31#8, 0x32#8]) :
      Ends i s (s.raiseFatal cause info i.word)
  | finished {code : ResultCode} {u : State} (hu : Effect i s code u) : Ends i s (u.finish code)

/-- The command answers a next state, and it is one of those in which the command may end. -/
def Answers (i : Instr) (s : State) (r : Result) : Prop := ∃ t, r = .next t ∧ Ends i s t

theorem answers_of_ready {i : Instr} {s : State} {body : State → State} (h : s.halted = false) (hb : Ends i s (body s)) :
    Answers i s (runUnlessHalted s body) :=
  ⟨body s, runUnlessHalted_of_ready h body, hb⟩

/-- A check in front of a command: where it fails, the command faults (R111). -/
theorem Ends.checked {i : Instr} {s t : State} {p : Prop} [Decidable p] {cause : FaultCause} {info : Word}
    (hc : cause ≠ .illegalCommand) (ht : p → Ends i s t) : Ends i s (if p then t else s.raiseFatal cause info i.word) := by
  split
  · next h => exact ht h
  · exact .fatal cause info fun h => absurd h hc

/-- A check in front of a command, written the other way round. -/
theorem Ends.checkedNot {i : Instr} {s t : State} {p : Prop} [Decidable p] {cause : FaultCause} {info : Word}
    (hc : cause ≠ .illegalCommand) (ht : ¬ p → Ends i s t) : Ends i s (if p then s.raiseFatal cause info i.word else t) := by
  split
  · exact .fatal cause info fun h => absurd h hc
  · next h => exact ht h

theorem Ends.result_ok {i : Instr} {s : State} (v : Word) (hi : i.opc ∈ resultOpcodes := by simp [Instr.opc]) :
    Ends i s ((s.setRes0 v).finish .ok) :=
  .finished (.result v hi)

/-- A range of bits set, with a result. -/
theorem Ends.bits_set {i : Instr} {s : State} {first n : Nat} {v : Word} (hm : BitmapWritten s (s.setBits first n).mem)
    (hi : i.opc ∈ bitmapOpcodes := by simp [Instr.opc]) : Ends i s (((s.setBits first n).setRes0 v).finish .ok) := by
  rw [State.setBits_eq]
  exact .finished (.bitmapResult _ v hm hi)

/-- A range of bits cleared, with a result. -/
theorem Ends.bits_cleared {i : Instr} {s : State} {first n : Nat} {v : Word} (hm : BitmapWritten s (s.clearBits first n).mem)
    (hi : i.opc ∈ bitmapOpcodes := by simp [Instr.opc]) : Ends i s (((s.clearBits first n).setRes0 v).finish .ok) := by
  rw [State.clearBits_eq]
  exact .finished (.bitmapResult _ v hm hi)

/-! ### The scanner's ends -/

theorem answers_bmSetall {s : State} (h : s.halted = false) : Answers .bmSetall s (execBmSetall s) := by
  refine answers_of_ready h (Ends.checked (by decide) fun hfit => ?_)
  rw [State.fillBitmap_eq]
  exact .finished (.bitmap _ (.fillBitmap (s.bmCheck_iff.mp hfit)))

theorem answers_bmFreereg (base len : Word) {s : State} (h : s.halted = false) :
    Answers (.bmFreereg base len) s (execBmFreereg base len s) := by
  refine answers_of_ready h (Ends.checked (by decide) fun hfit => ?_)
  exact .bits_cleared (.clearBits_clipped (s.bmCheck_iff.mp hfit) _ _)

theorem answers_bmRsvreg (base len : Word) {s : State} (h : s.halted = false) :
    Answers (.bmRsvreg base len) s (execBmRsvreg base len s) := by
  refine answers_of_ready h (Ends.checked (by decide) fun hfit => ?_)
  split
  · exact .finished (.bitmapResult s.mem _ (.none s))
  · exact .bits_set (.setBits_clipped (s.bmCheck_iff.mp hfit) _ _)

theorem answers_bmTest (addr : Word) {s : State} (h : s.halted = false) : Answers (.bmTest addr) s (execBmTest addr s) := by
  refine answers_of_ready h (Ends.checked (by decide) fun _ => ?_)
  split
  · exact .result_ok _
  · exact .checked (by decide) fun _ => .result_ok _

theorem answers_bmMark (addr : Word) {s : State} (h : s.halted = false) : Answers (.bmMark addr) s (execBmMark addr s) := by
  refine answers_of_ready h (Ends.checked (by decide) fun _ => Ends.checkedNot (by decide) fun hlt =>
    Ends.checked (by decide) fun hfit => ?_)
  exact .finished (.bitmapResult _ _ (.setBit (s.bmCheck_iff.mp hfit) (not_le.mp hlt)))

theorem answers_bmFree (addr : Word) {s : State} (h : s.halted = false) : Answers (.bmFree addr) s (execBmFree addr s) := by
  refine answers_of_ready h (Ends.checked (by decide) fun _ => Ends.checkedNot (by decide) fun hlt =>
    Ends.checked (by decide) fun hfit => ?_)
  exact .finished (.bitmapResult _ _ (.clearBit (s.bmCheck_iff.mp hfit) (not_le.mp hlt)))

theorem answers_bmFind {s : State} (h : s.halted = false) : Answers .bmFind s (execBmFind s) := by
  refine answers_of_ready h (Ends.checked (by decide) fun _ => ?_)
  split
  · exact .finished (.result _)
  · exact .result_ok _

theorem answers_bmFindrun (count : Word) {s : State} (h : s.halted = false) :
    Answers (.bmFindrun count) s (execBmFindrun count s) := by
  refine answers_of_ready h (Ends.checked (by decide) fun _ => ?_)
  split
  · exact .finished (.result _)
  · exact .result_ok _

/-- A frame the single-frame search answers exists (R77). -/
theorem State.lt_of_firstFree {s : State} {f : Nat} (h : s.firstFree = some f) : f < s.frameCount := by
  rcases s.firstFree_cases with ⟨g, hg, hleast⟩ | ⟨hnone, -⟩
  · obtain rfl : g = f := Option.some.inj (hg.symm.trans h)
    exact hleast.1
  · exact absurd (hnone.symm.trans h) (by simp)

/-- A run the multi-frame search answers lies below NFRAMES (R78). -/
theorem State.le_of_firstRun {s : State} {n f : Nat} (h : s.firstRun n = some f) : f + n ≤ s.frameCount := by
  have hn : n ≠ 0 := by rintro rfl; rw [s.firstRun_zero] at h; cases h
  rcases s.firstRun_cases hn with ⟨g, hg, hleast⟩ | ⟨hnone, -⟩
  · obtain rfl : g = f := Option.some.inj (hg.symm.trans h)
    exact hleast.1.1
  · exact absurd (hnone.symm.trans h) (by simp)

theorem answers_bmAlloc {s : State} (h : s.halted = false) : Answers .bmAlloc s (execBmAlloc s) := by
  refine answers_of_ready h (Ends.checked (by decide) fun hfit => ?_)
  split
  · exact .finished (.bitmapResult s.mem _ (.none s))
  · next f hf =>
    exact .finished (.bitmapResult _ _ (.setBit (s.bmCheck_iff.mp hfit) (State.lt_of_firstFree hf)))

theorem answers_bmAllocrun (count : Word) {s : State} (h : s.halted = false) :
    Answers (.bmAllocrun count) s (execBmAllocrun count s) := by
  refine answers_of_ready h (Ends.checked (by decide) fun hfit => ?_)
  split
  · exact .finished (.bitmapResult s.mem _ (.none s))
  · next f hf =>
    exact .bits_set (.setBits (s.bmCheck_iff.mp hfit) (State.le_of_firstRun hf))

/-! ### The walker's ends -/

/-- A walk that comes through ends at a present entry (R90). -/
theorem State.present_of_walkTables {s : State} {va e pa : Word} (h : s.walkTables va = .present e pa) : e.getLsbD 0 = true := by
  by_cases hm : s.mapped va
  · obtain ⟨rfl, -⟩ := WalkResult.present.inj ((State.walkTables_of_mapped hm).symm.trans h)
    exact hm.2
  · obtain ⟨pa', hpde | hpte⟩ := State.walkTables_of_not_mapped hm
    · exact absurd (hpde.symm.trans h) (by simp)
    · exact absurd (hpte.symm.trans h) (by simp)

/-- The state `EnsureTable` answers differs in memory only, and that memory is canonical where the memory before was (R91, log 1). -/
theorem State.eq_of_ensureTable_ready {s s₁ : State} {va pde : Word} (h : s.ensureTable va = .ready pde s₁) :
    ∃ m, s₁ = { s with mem := m } ∧ (s.mem.wf → m.wf) := by
  cases hp : (s.pdeValue va).getLsbD 0 with
  | true =>
    obtain ⟨-, rfl⟩ := TableResult.ready.inj ((State.ensureTable_of_present hp).symm.trans h)
    exact ⟨s.mem, rfl, id⟩
  | false =>
    by_cases hx : s.bitmapFits
    · rcases s.firstFree_cases with ⟨f, -, hf⟩ | ⟨-, hn⟩
      · obtain ⟨-, rfl⟩ := TableResult.ready.inj ((State.ensureTable_of_leastFree hp hx hf).symm.trans h)
        exact ⟨(s.withTable va f).mem, State.withTable_eq s va f, fun hm => State.wf_withTable hm va f⟩
      · exact absurd ((State.ensureTable_of_noFree hp hx hn).symm.trans h) (by simp)
    · exact absurd ((State.ensureTable_of_bad_extent hp hx).symm.trans h) (by simp)

/-- `EnsureTable` does not fail on the extent of a bitmap that fits (R91). -/
theorem State.ensureTable_ne_badExtent {s : State} (h : s.bitmapFits) (va : Word) : s.ensureTable va ≠ .badExtent := by
  rcases s.ensureTable_cases va with ⟨-, hx⟩ | hnone | ⟨pde, m, hready⟩
  · exact absurd h hx
  · simp [hnone]
  · simp [hready]

/-- `SetPte` after memory changed, and the results of the mapping command (R92). -/
theorem Ends.pte_set {i : Instr} {s : State} {m : Memory} {pde va frame v w : Word} (hm : s.mem.wf → m.wf)
    (hi : i.opc ∈ mappingOpcodes := by simp [Instr.opc]) :
    Ends i s (((({ s with mem := m }.setPte pde va frame).setRes0 v).setRes1 w).finish .ok) :=
  .finished (.mapping (({ s with mem := m } : State).memWrite32 (pteAddr pde va) (({ s with mem := m } : State).newPte pde va frame)).mem
    (vpnOf va) v w (fun h => Memory.wf_write32 (hm h) _ _) hi)

theorem Ends.notPresent {i : Instr} {s : State} (e : Word) (hi : i.opc ∈ walkOpcodes := by simp [Instr.opc]) :
    Ends i s (s.finishNotPresent e) :=
  .finished (.walked 0#32 e hi)

theorem answers_pgEnable (dir : Word) {s : State} (h : s.halted = false) : Answers (.pgEnable dir) s (execPgEnable dir s) := by
  refine answers_of_ready h (Ends.checked (by decide) fun hdir => ?_)
  refine .finished (.directory (s.ctrl ||| 1#32) dir (fun hctrl => ?_) fun _ => hdir)
  rcases hctrl with h0 | h1
  · simp [h0]
  · simp [h1]

theorem answers_walk (va : Word) {s : State} (h : s.halted = false) : Answers (.walk va) s (execWalk va s) := by
  refine answers_of_ready h ?_
  split
  · exact .notPresent _
  · exact .notPresent _
  · exact .finished (.walked _ _)

theorem answers_xlate (va : Word) {s : State} (h : s.halted = false) : Answers (.xlate va) s (execXlate va s) := by
  refine answers_of_ready h ?_
  split
  · split
    · exact .finished (.walked _ _)
    · split
      · exact .notPresent _
      · exact .notPresent _
      · next e pa hwalk => exact .finished (.filled _ e _ _ (State.present_of_walkTables hwalk))
  · exact .finished (.walked _ _)

theorem answers_map (phys virt : Word) {s : State} (h : s.halted = false) :
    Answers (.map phys virt) s (execMap phys virt s) := by
  refine answers_of_ready h (Ends.checked (by decide) fun _ => Ends.checked (by decide) fun _ => ?_)
  split
  · exact .fatal _ _ fun h => by cases h
  · exact .finished (.walked _ _)
  · next pde s₁ hready =>
    obtain ⟨m, rfl, hm⟩ := State.eq_of_ensureTable_ready hready
    exact .pte_set hm

theorem answers_unmap (virt : Word) {s : State} (h : s.halted = false) : Answers (.unmap virt) s (execUnmap virt s) := by
  refine answers_of_ready h (Ends.checked (by decide) fun _ => ?_)
  split
  · exact .notPresent _
  · exact .notPresent _
  · exact .finished (.mapping _ _ _ _ fun hm => Memory.wf_write32 hm _ _)

/-- PAGE.ALLOC: where a frame was found, the bitmap fits, so the second extent check cannot fail (R109; log 13). -/
theorem answers_pageAlloc (virt : Word) {s : State} (h : s.halted = false) :
    Answers (.pageAlloc virt) s (execPageAlloc virt s) := by
  refine answers_of_ready h (Ends.checked (by decide) fun _ => ?_)
  split
  · exact .finished (.walked _ _)
  · refine .checked (by decide) fun hfit => ?_
    split
    · exact .finished (.walked _ _)
    · next f hf =>
      have hfit' : (s.setBit f).bitmapFits := s.bmCheck_iff.mp hfit
      split
      · next hbad => exact absurd hbad (State.ensureTable_ne_badExtent hfit' virt)
      · exact .finished (.rolledBack _ _ _ fun hm => State.wf_clearBit (State.wf_setBit hm f) f)
      · next pde s₁ hready =>
        obtain ⟨m, rfl, hm⟩ := State.eq_of_ensureTable_ready hready
        exact .pte_set fun hs => hm (State.wf_setBit hs f)

theorem answers_pageFree (virt : Word) {s : State} (h : s.halted = false) :
    Answers (.pageFree virt) s (execPageFree virt s) := by
  refine answers_of_ready h (Ends.checked (by decide) fun _ => ?_)
  split
  · exact .notPresent _
  · exact .notPresent _
  · refine .checkedNot (by decide) fun _ => .checked (by decide) fun _ => ?_
    exact .finished (.mapping _ _ _ _ fun hm => Memory.wf_write32 (State.wf_clearBit hm _) _ _)

/-! ### The ends of CR.RD and CR.WR -/

theorem answers_crRd (n : BitVec 12) {s : State} (h : s.halted = false) : Answers (.crRd n) s (execCrRd n s) := by
  unfold execCrRd
  split
  · simp only [h, Bool.false_eq_true, if_false]
    exact ⟨_, rfl, .result_ok _⟩
  · exact answers_of_ready h (.fatal _ _ fun _ => by simp [Instr.opc])

/-- The value a write of CTRL leaves is 0 or 1 (R20). -/
theorem ctrlValue_legal (v : Word) : ctrlValue v = 0#32 ∨ ctrlValue v = 1#32 := by
  unfold ctrlValue
  rw [BitVec.and_one_eq_setWidth_ofBool_getLsbD]
  cases v.getLsbD 0 <;> decide

theorem ends_writeCR (n : BitVec 12) (v : Word) (s : State) :
    Ends (.crWr n v) s (s.writeCR n.toNat v (Instr.crWr n v).word) := by
  unfold State.writeCR
  split
  · exact .finished (.directory _ s.pdbr (fun _ => ctrlValue_legal v) id)
  · exact .checked (by decide) fun hv => .finished (.directory s.ctrl v id fun _ => hv)
  · exact .checked (by decide) fun hv => .finished (.geometry v s.nframes (fun _ => hv) id)
  · exact .checkedNot (by decide) fun hv => .finished (.geometry s.bmbase v id fun _ => not_lt.mp hv)
  · exact .finished (.geometry s.bmbase s.nframes id id)

theorem answers_crWr (n : BitVec 12) (v : Word) {s : State} (h : s.halted = false) : Answers (.crWr n v) s (execCrWr n v s) := by
  unfold execCrWr
  split
  · exact answers_of_ready h (ends_writeCR n v s)
  · exact answers_of_ready h (.fatal _ _ fun _ => by simp [Instr.opc])

/-! ### All commands -/

/-- Every command of a block that is not halted answers a next state, in which it ended by its effect or in a fatal fault. -/
theorem exec_answers (i : Instr) {s : State} (h : s.halted = false) : Answers i s (exec i s) := by
  unfold exec
  cases i with
  | entPack flags addr => exact answers_of_ready h (Ends.checked (by decide) fun _ => .result_ok _)
  | entSetframe entry addr => exact answers_of_ready h (Ends.checked (by decide) fun _ => .result_ok _)
  | entGetframe entry => exact answers_of_ready h (.result_ok _)
  | entGetpfn entry => exact answers_of_ready h (.result_ok _)
  | entGetflags entry => exact answers_of_ready h (.result_ok _)
  | entAdd mask entry => exact answers_of_ready h (.result_ok _)
  | entDel mask entry => exact answers_of_ready h (.result_ok _)
  | entTest mask entry => exact answers_of_ready h (.result_ok _)
  | entLd addr => exact answers_of_ready h (Ends.checked (by decide) fun _ => .result_ok _)
  | entSt addr value => exact answers_of_ready h (Ends.checked (by decide) fun _ => .finished (.wordStore addr value))
  | bmSetall => exact answers_bmSetall h
  | bmFreereg base len => exact answers_bmFreereg base len h
  | bmRsvreg base len => exact answers_bmRsvreg base len h
  | bmTest addr => exact answers_bmTest addr h
  | bmMark addr => exact answers_bmMark addr h
  | bmFree addr => exact answers_bmFree addr h
  | bmFind => exact answers_bmFind h
  | bmFindrun count => exact answers_bmFindrun count h
  | bmAlloc => exact answers_bmAlloc h
  | bmAllocrun count => exact answers_bmAllocrun count h
  | pgEnable dir => exact answers_pgEnable dir h
  | vaDir va => exact answers_of_ready h (.result_ok _)
  | vaTbl va => exact answers_of_ready h (.result_ok _)
  | walk va => exact answers_walk va h
  | xlate va => exact answers_xlate va h
  | map phys virt => exact answers_map phys virt h
  | unmap virt => exact answers_unmap virt h
  | pageAlloc virt => exact answers_pageAlloc virt h
  | pageFree virt => exact answers_pageFree virt h
  | invlpg va => exact answers_of_ready h (.finished (.invalidated _))
  | crRd n => exact answers_crRd n h
  | crWr n value => exact answers_crWr n value h

/-- A halted block executes CR.RD only, which writes RES0, and refuses every other command (R110). -/
theorem exec_of_halted (i : Instr) {s t : State} (h : s.halted = true) (ht : exec i s = .next t) :
    t = s ∨ ∃ n, i = .crRd n ∧ t = s.setRes0 (s.readCR n.toNat) := by
  have refuses {body : State → State} (he : runUnlessHalted s body = .next t) : t = s :=
    Host.Outcome.next.inj (he.symm.trans (runUnlessHalted_of_halted h body))
  unfold exec at ht
  cases i with
  | crRd n =>
    simp only [execCrRd, h, if_true] at ht
    split at ht
    · exact .inr ⟨n, rfl, (Host.Outcome.next.inj ht).symm⟩
    · exact .inl (refuses ht)
  | crWr n value =>
    simp only [execCrWr] at ht
    split at ht
    · exact .inl (refuses ht)
    · exact .inl (refuses ht)
  | _ => exact .inl (refuses ht)

/-- Everything a command can do: a halted block refuses it or reads a register; otherwise it ends by its effect or in a fatal fault. -/
theorem exec_cases {i : Instr} {s t : State} (ht : exec i s = .next t) :
    (s.halted = true ∧ (t = s ∨ ∃ n, i = .crRd n ∧ t = s.setRes0 (s.readCR n.toNat))) ∨ (s.halted = false ∧ Ends i s t) := by
  cases h : s.halted with
  | true => exact .inl ⟨rfl, exec_of_halted i h ht⟩
  | false =>
    obtain ⟨u, hu, hends⟩ := exec_answers i h
    obtain rfl : u = t := Host.Outcome.next.inj (hu.symm.trans ht)
    exact .inr ⟨rfl, hends⟩

/-! ### What an effect leaves alone -/

/-- The commands that may change the TLB (R57). -/
abbrev tlbOpcodes : List (BitVec 8) := [0x20#8, 0x24#8, 0x25#8, 0x26#8, 0x27#8, 0x28#8, 0x30#8, 0x32#8]
/-- The commands that may write memory (R57). -/
abbrev memoryOpcodes : List (BitVec 8) :=
  [0x0A#8, 0x10#8, 0x11#8, 0x12#8, 0x14#8, 0x15#8, 0x18#8, 0x19#8, 0x25#8, 0x26#8, 0x27#8, 0x28#8]
/-- The commands that leave RES0 alone (R57). -/
abbrev noResultOpcodes : List (BitVec 8) := [0x0A#8, 0x10#8, 0x20#8, 0x30#8, 0x32#8]

theorem Effect.code_ne_fatal {i : Instr} {s u : State} {code : ResultCode} (hu : Effect i s code u) : code ≠ .fatal := by
  cases hu with
  | result v hi hc => rintro rfl; exact absurd hc (by decide)
  | bitmapResult m v hm hi hc => rintro rfl; exact absurd hc (by decide)
  | walked v w hi hc => exact hc
  | _ => decide

/-- STATUS and the record of a fault are written by the end of a command only (R24 to R26). -/
theorem Effect.keeps_record {i : Instr} {s u : State} {code : ResultCode} (hu : Effect i s code u) :
    u.status = s.status ∧ u.faultInfo = s.faultInfo ∧ u.faultCmd = s.faultCmd := by
  cases hu <;> exact ⟨rfl, rfl, rfl⟩

theorem Effect.keeps_bmbase_nframes {i : Instr} {s u : State} {code : ResultCode} (hu : Effect i s code u)
    (h : i.opc ≠ 0x32#8) : u.bmbase = s.bmbase ∧ u.nframes = s.nframes := by
  cases hu with
  | geometry b n hb hn hi => exact absurd hi h
  | _ => exact ⟨rfl, rfl⟩

theorem Effect.keeps_ctrl_pdbr {i : Instr} {s u : State} {code : ResultCode} (hu : Effect i s code u)
    (h : i.opc ≠ 0x32#8) (h' : i.opc ≠ 0x20#8) : u.ctrl = s.ctrl ∧ u.pdbr = s.pdbr := by
  cases hu with
  | directory c d hc hd hi => exact absurd hi (by simp [h, h'])
  | _ => exact ⟨rfl, rfl⟩

theorem Effect.keeps_res0 {i : Instr} {s u : State} {code : ResultCode} (hu : Effect i s code u)
    (h : i.opc ∈ noResultOpcodes) : u.res0 = s.res0 := by
  cases hu with
  | result v hi => exact absurd h ((by decide : ∀ o ∈ resultOpcodes, o ∉ noResultOpcodes) _ hi)
  | bitmapResult m v hm hi => exact absurd h ((by decide : ∀ o ∈ bitmapOpcodes, o ∉ noResultOpcodes) _ hi)
  | walked v w hi => exact absurd h ((by decide : ∀ o ∈ walkOpcodes, o ∉ noResultOpcodes) _ hi)
  | filled vpn pte v w hp hi => exact absurd h (by simp [hi])
  | mapping m vpn v w hm hi => exact absurd h ((by decide : ∀ o ∈ mappingOpcodes, o ∉ noResultOpcodes) _ hi)
  | rolledBack m v w hm hi => exact absurd h (by simp [hi])
  | _ => rfl

theorem Effect.keeps_res1 {i : Instr} {s u : State} {code : ResultCode} (hu : Effect i s code u)
    (h : i.opc ∉ walkOpcodes) : u.res1 = s.res1 := by
  cases hu with
  | walked v w hi => exact absurd hi h
  | filled vpn pte v w hp hi => exact absurd h (by simp [hi])
  | mapping m vpn v w hm hi => exact absurd ((by decide : mappingOpcodes ⊆ walkOpcodes) hi) h
  | rolledBack m v w hm hi => exact absurd h (by simp [hi])
  | _ => rfl

theorem Effect.keeps_tlb {i : Instr} {s u : State} {code : ResultCode} (hu : Effect i s code u)
    (h : i.opc ∉ tlbOpcodes) : u.tlb = s.tlb := by
  cases hu with
  | filled vpn pte v w hp hi => exact absurd h (by simp [hi])
  | mapping m vpn v w hm hi => exact absurd ((by decide : mappingOpcodes ⊆ tlbOpcodes) hi) h
  | invalidated vpn hi => exact absurd h (by simp [hi])
  | directory c d hc hd hi => exact absurd ((by decide : [0x20#8, 0x32#8] ⊆ tlbOpcodes) hi) h
  | _ => rfl

theorem Effect.keeps_mem {i : Instr} {s u : State} {code : ResultCode} (hu : Effect i s code u)
    (h : i.opc ∉ memoryOpcodes) : u.mem = s.mem := by
  cases hu with
  | wordStore pa v hi => exact absurd h (by simp [hi])
  | bitmap m hm hi => exact absurd h (by simp [hi])
  | bitmapResult m v hm hi => exact absurd ((by decide : bitmapOpcodes ⊆ memoryOpcodes) hi) h
  | mapping m vpn v w hm hi => exact absurd ((by decide : mappingOpcodes ⊆ memoryOpcodes) hi) h
  | rolledBack m v w hm hi => exact absurd h (by simp [hi])
  | _ => rfl

/-- Only the fill draw of XLATE brings an entry into the TLB; every other effect drops entries (R29, R31). -/
theorem Effect.mem_tlb {i : Instr} {s u : State} {code : ResultCode} (hu : Effect i s code u) (h : i.opc ≠ 0x24#8) {e : TlbEntry}
    (he : e ∈ u.tlb) : e ∈ s.tlb := by
  cases hu with
  | filled vpn pte v w hp hi => exact absurd hi h
  | mapping m vpn v w hm hi => exact (Tlb.mem_remove.mp he).1
  | invalidated vpn hi => exact (Tlb.mem_remove.mp he).1
  | directory c d hc hd hi => exact absurd he List.not_mem_nil
  | _ => exact he

/-- A BM.* command writes the bitmap and RES0 and ends OK or OUT_OF_PHYS (R76). -/
theorem Effect.of_scanner {i : Instr} {s u : State} {code : ResultCode} (hu : Effect i s code u)
    (h : i.opc.extractLsb' 4 4 = 1#4) :
    code ∈ [.ok, .outOfPhys] ∧ u = { s with res0 := u.res0, mem := u.mem } ∧ BitmapWritten s u.mem := by
  have others : ∀ o ∈ [0x0A#8, 0x20#8, 0x30#8, 0x32#8] ++ walkOpcodes, o.extractLsb' 4 4 ≠ 1#4 := by decide
  cases hu with
  | result v hi hc => exact ⟨hc, rfl, .none s⟩
  | bitmap m hm hi => exact ⟨by decide, rfl, hm⟩
  | bitmapResult m v hm hi hc => exact ⟨hc, rfl, hm⟩
  | wordStore pa v hi => exact absurd h (others _ (by simp [hi]))
  | walked v w hi => exact absurd h (others _ (List.mem_append_right _ hi))
  | filled vpn pte v w hp hi => exact absurd h (others _ (by simp [hi]))
  | mapping m vpn v w hm hi =>
    exact absurd h (others _ (List.mem_append_right _ ((by decide : mappingOpcodes ⊆ walkOpcodes) hi)))
  | rolledBack m v w hm hi => exact absurd h (others _ (by simp [hi]))
  | invalidated vpn hi => exact absurd h (others _ (by simp [hi]))
  | directory c d hc hd hi => exact absurd h ((by decide : ∀ o ∈ [0x20#8, 0x32#8], o.extractLsb' 4 4 ≠ 1#4) _ hi)
  | geometry b n hb hn hi => exact absurd h (others _ (by simp [hi]))

/-! ### The invariant -/

/-- An effect keeps a legal state legal (R20 to R28). -/
theorem Effect.inv {i : Instr} {s u : State} {code : ResultCode} (hu : Effect i s code u) (h : s.Inv) : u.Inv := by
  obtain ⟨hctrl, hpdbr, hbmbase, hnframes, hstatus, hrecord, htlb, hmem⟩ := h
  cases hu with
  | result v hi => exact ⟨hctrl, hpdbr, hbmbase, hnframes, hstatus, hrecord, htlb, hmem⟩
  | wordStore pa v hi => exact ⟨hctrl, hpdbr, hbmbase, hnframes, hstatus, hrecord, htlb, Memory.wf_write32 hmem pa v⟩
  | bitmap m hm hi => exact ⟨hctrl, hpdbr, hbmbase, hnframes, hstatus, hrecord, htlb, hm.wf hmem⟩
  | bitmapResult m v hm hi => exact ⟨hctrl, hpdbr, hbmbase, hnframes, hstatus, hrecord, htlb, hm.wf hmem⟩
  | walked v w hi => exact ⟨hctrl, hpdbr, hbmbase, hnframes, hstatus, hrecord, htlb, hmem⟩
  | filled vpn pte v w hp hi =>
    exact ⟨hctrl, hpdbr, hbmbase, hnframes, hstatus, hrecord, Tlb.wf_maybeFill htlb _ vpn hp, hmem⟩
  | mapping m vpn v w hm hi =>
    exact ⟨hctrl, hpdbr, hbmbase, hnframes, hstatus, hrecord, Tlb.wf_remove htlb vpn, hm hmem⟩
  | rolledBack m v w hm hi => exact ⟨hctrl, hpdbr, hbmbase, hnframes, hstatus, hrecord, htlb, hm hmem⟩
  | invalidated vpn hi => exact ⟨hctrl, hpdbr, hbmbase, hnframes, hstatus, hrecord, Tlb.wf_remove htlb vpn, hmem⟩
  | directory c d hc hd hi => exact ⟨hc hctrl, hd hpdbr, hbmbase, hnframes, hstatus, hrecord, Tlb.wf_nil, hmem⟩
  | geometry b n hb hn hi => exact ⟨hctrl, hpdbr, hb hbmbase, hn hnframes, hstatus, hrecord, htlb, hmem⟩

/-- `finish` of a block that is not halted keeps a legal state legal (R24). -/
theorem State.Inv.finish {s : State} (h : s.Inv) (hready : s.halted = false) {code : ResultCode} (hc : code ≠ .fatal) :
    (s.finish code).Inv := by
  obtain ⟨hctrl, hpdbr, hbmbase, hnframes, hstatus, hrecord, htlb, hmem⟩ := h
  exact ⟨hctrl, hpdbr, hbmbase, hnframes, statusLegal_withResult hstatus hready hc, fun _ => hrecord hready, htlb, hmem⟩

/-- A fatal fault of a block that is not halted leaves a legal, halted state (R109). -/
theorem State.Inv.raiseFatal {s : State} (h : s.Inv) (hready : s.halted = false) (cause : FaultCause) (info word : Word) :
    (s.raiseFatal cause info word).Inv := by
  obtain ⟨hctrl, hpdbr, hbmbase, hnframes, hstatus, -, htlb, hmem⟩ := h
  exact ⟨hctrl, hpdbr, hbmbase, hnframes, statusLegal_withFatal hstatus hready cause,
    fun hh => absurd hh (by simp), htlb, hmem⟩

theorem Ends.inv {i : Instr} {s t : State} (ht : Ends i s t) (h : s.Inv) (hready : s.halted = false) : t.Inv := by
  cases ht with
  | fatal cause info hc => exact h.raiseFatal hready cause info i.word
  | @finished code u hu =>
    have hu_ready : u.halted = false := by rw [State.halted, hu.keeps_record.1]; exact hready
    exact (hu.inv h).finish hu_ready hu.code_ne_fatal

theorem exec_inv {i : Instr} {s t : State} (h : s.Inv) (ht : exec i s = .next t) : t.Inv := by
  rcases exec_cases ht with ⟨-, rfl | ⟨n, -, rfl⟩⟩ | ⟨hready, hends⟩
  · exact h
  · exact h
  · exact hends.inv h hready

theorem execIllegal_inv {word : Word} {s t : State} (h : s.Inv) (ht : execIllegal word s = .next t) : t.Inv := by
  rcases runUnlessHalted_cases ht with ⟨-, rfl⟩ | ⟨hready, rfl⟩
  · exact h
  · exact h.raiseFatal hready .illegalCommand word word

theorem runCommand_inv {c : Command} {s t : State} (h : s.Inv) (ht : runCommand c s = .next t) : t.Inv := by
  cases hd : decode c with
  | legal i => exact exec_inv h ((runCommand_of_legal hd s).symm.trans ht)
  | illegal why => exact execIllegal_inv h ((runCommand_of_illegal hd s).symm.trans ht)

theorem State.Inv.accept {s : State} (h : s.Inv) (rest : List HostAction) : (s.accept rest).Inv := by
  obtain ⟨hctrl, hpdbr, hbmbase, hnframes, hstatus, hrecord, htlb, hmem⟩ := h
  exact ⟨hctrl, hpdbr, hbmbase, hnframes, hstatus, hrecord, Tlb.wf_evict htlb _, hmem⟩

/-- Settles O10: the reset values are legal, and the TLB and memory list nothing. -/
theorem resetStateIsLegal : Obligations.ResetStateIsLegal :=
  ⟨.inl rfl, by decide, by decide, by decide, by decide, fun _ => ⟨rfl, rfl⟩, Tlb.wf_nil, Memory.wf_nil⟩

/-- Reset gives the reset state with the memory there was (R32, R121). -/
theorem State.inv_applyReset {s : State} (h : s.mem.wf) : s.applyReset.Inv := by
  obtain ⟨hctrl, hpdbr, hbmbase, hnframes, hstatus, hrecord, htlb, -⟩ := resetStateIsLegal
  exact ⟨hctrl, hpdbr, hbmbase, hnframes, hstatus, hrecord, htlb, h⟩

theorem State.Inv.hostStoreByte {s : State} (h : s.Inv) (addr : Word) (b : Byte) (rest : List HostAction) :
    (hostStoreByte addr b { s with inbox := rest }).Inv := by
  obtain ⟨hctrl, hpdbr, hbmbase, hnframes, hstatus, hrecord, htlb, hmem⟩ := h
  exact ⟨hctrl, hpdbr, hbmbase, hnframes, hstatus, hrecord, htlb, Memory.wf_writeByte hmem addr b⟩

theorem step_of_inbox_storeByte {s : State} {addr : Word} {b : Byte} {rest : List HostAction}
    (h : s.inbox = .storeByte addr b :: rest) : step s = .next (hostStoreByte addr b { s with inbox := rest }) := by
  simp only [step, stepInbox, h]

theorem step_of_inbox_reset {s : State} {rest : List HostAction} (h : s.inbox = .reset :: rest) :
    step s = .next (State.applyReset { s with inbox := rest }) := by
  simp only [step, stepInbox, h]

/-- Settles O9, by the oldest host action: none, a command, a byte store or a reset. A command keeps the invariant since its effect
does (`Effect.inv`) and its end is `finish` or a fatal fault out of a state that is not halted (`Ends.inv`). -/
theorem stepKeepsEveryStateLegal : Obligations.StepKeepsEveryStateLegal := by
  intro s t h ht
  match hin : s.inbox with
  | [] =>
    obtain rfl : s = t := Host.Outcome.next.inj ((step_of_inbox_nil hin).symm.trans ht)
    exact h
  | .command c :: rest => exact runCommand_inv (h.accept rest) ((step_of_inbox_command hin).symm.trans ht)
  | .storeByte addr b :: rest =>
    obtain rfl := Host.Outcome.next.inj ((step_of_inbox_storeByte hin).symm.trans ht)
    exact h.hostStoreByte addr b rest
  | .reset :: rest =>
    obtain rfl := Host.Outcome.next.inj ((step_of_inbox_reset hin).symm.trans ht)
    obtain ⟨-, -, -, -, -, -, -, hmem⟩ := h
    exact State.inv_applyReset hmem

/-- Settles O8, register by register. -/
theorem resetStateHoldsTheResetValues : Obligations.ResetStateHoldsTheResetValues :=
  ⟨rfl, rfl, rfl, rfl, rfl, rfl, rfl, rfl, rfl, rfl, rfl, rfl⟩

/-! ### Who writes what -/

/-- The opcode 0x24 is XLATE's alone (R57). -/
theorem eq_xlate_of_opc {i : Instr} (h : i.opc = 0x24#8) : ∃ va, i = .xlate va := by
  cases i with
  | xlate va => exact ⟨va, rfl⟩
  | _ => simp [Instr.opc] at h

/-- Settles O56: by how the command ends; `Effect.mem_tlb` says why an effect brings no entry. -/
theorem onlyXlateFillsTheTlb : Obligations.OnlyXlateFillsTheTlb := by
  intro i s t hi ht e he
  have hopc : i.opc ≠ 0x24#8 := fun h => let ⟨va, hva⟩ := eq_xlate_of_opc h; hi va hva
  rcases exec_cases ht with ⟨-, rfl | ⟨n, -, rfl⟩⟩ | ⟨-, hends⟩
  · exact he
  · exact he
  · cases hends with
    | fatal cause info hc => exact he
    | finished hu => exact hu.mem_tlb hopc he

/-- A write of RESULT leaves every other bit of STATUS (R24). -/
theorem withResult_and (st : Word) (code : ResultCode) : withResult st code &&& 0xFFFFFFF0#32 = st &&& 0xFFFFFFF0#32 := by
  unfold withResult
  ext j hj
  cases code <;> (interval_cases j <;> simp [resultNumber])

/-- Settles O55, by how the command ends: refused or reading a register in the halted state, in a fatal fault, or by its effect, whose
`keeps_` lemmas are the clauses. -/
theorem onlyTheNamedCommandsWriteEachRegister : Obligations.OnlyTheNamedCommandsWriteEachRegister := by
  intro i s t ht
  rcases exec_cases ht with ⟨-, rfl | ⟨n, rfl, rfl⟩⟩ | ⟨hready, hends⟩
  · exact ⟨fun _ => ⟨rfl, rfl⟩, fun _ _ => ⟨rfl, rfl⟩, fun _ => rfl, fun _ => rfl,
      fun _ => ⟨rfl, rfl, rfl⟩, fun _ => rfl, fun _ => rfl⟩
  · exact ⟨fun _ => ⟨rfl, rfl⟩, fun _ _ => ⟨rfl, rfl⟩, fun h => absurd h (by simp [Instr.opc]), fun _ => rfl,
      fun _ => ⟨rfl, rfl, rfl⟩, fun _ => rfl, fun _ => rfl⟩
  · cases hends with
    | fatal cause info hc =>
      exact ⟨fun _ => ⟨rfl, rfl⟩, fun _ _ => ⟨rfl, rfl⟩, fun _ => rfl, fun _ => rfl,
        fun h => absurd ⟨hready, State.halted_raiseFatal s cause info i.word⟩ h, fun _ => rfl, fun _ => rfl⟩
    | @finished code u hu =>
      obtain ⟨hstatus, hinfo, hcmd⟩ := hu.keeps_record
      exact ⟨hu.keeps_bmbase_nframes, hu.keeps_ctrl_pdbr, hu.keeps_res0, hu.keeps_res1,
        fun _ => ⟨hinfo, hcmd, by rw [State.finish_status, withResult_and, hstatus]⟩, hu.keeps_tlb, hu.keeps_mem⟩

/-- Settles O33, by how the command ends; `Effect.of_scanner` says what a BM.* command writes. -/
theorem scannerWritesOnlyTheBitmapRes0AndItsOutcome : Obligations.ScannerWritesOnlyTheBitmapRes0AndItsOutcome := by
  intro i s t hi ht
  rcases exec_cases ht with ⟨hhalted, rfl | ⟨n, rfl, -⟩⟩ | ⟨hready, hends⟩
  · exact ⟨.inr (.inr ⟨hhalted, rfl⟩), fun _ _ => rfl⟩
  · exact absurd hi (by simp [Instr.opc])
  · cases hends with
    | fatal cause info hc =>
      refine ⟨.inr (.inl ⟨hready, (causeNumber cause).zeroExtend 32, info, ?_, State.raiseFatal_eq s cause info i.word⟩),
        fun _ _ => rfl⟩
      cases cause with
      | alignmentViolation => exact .inl rfl
      | invalidOperation => exact .inr rfl
      | illegalCommand =>
        have others : ∀ o ∈ [0x31#8, 0x32#8], o.extractLsb' 4 4 ≠ 1#4 := by decide
        exact absurd hi (others _ (hc rfl))
    | @finished code u hu =>
      obtain ⟨hcode, hu_eq, hm⟩ := hu.of_scanner hi
      refine ⟨.inl ⟨hready, (resultNumber code).zeroExtend 32, ?_, congrArg (State.finish · code) hu_eq⟩, hm.outside⟩
      rcases List.mem_pair.mp hcode with rfl | rfl
      · exact .inl rfl
      · exact .inr rfl

/-! ### The fill of the TLB -/

/-- The state after XLATE on a miss, with paging on and the page mapped (R97). -/
theorem execXlate_of_miss {va : Word} {s : State} (hready : s.halted = false) (hpaging : s.paging = true)
    (hmiss : s.tlb.lookup (vpnOf va) = none) (hm : s.mapped va) :
    execXlate va s = .next ((((s.tlbMaybeFill (vpnOf va) (s.pteValue va)).setRes0 (physAddr (s.pteValue va) va)).setRes1
      (s.pteValue va)).finish .ok) := by
  simp only [execXlate, runUnlessHalted_of_ready hready, hpaging, if_true, hmiss, State.walkTables_of_mapped hm]

/-- An entry inserted where the page has none is added and nothing goes (R28). -/
theorem Tlb.mem_insert_of_lookup_eq_none {t : Tlb} {x e : TlbEntry} (h : t.lookup x.vpn = none) :
    e ∈ t.insert x ↔ e ∈ t ∨ e = x := by
  have hne := Tlb.lookup_eq_none.mp h
  rw [Tlb.mem_insert]
  constructor
  · rintro (rfl | ⟨he, -⟩)
    · exact .inr rfl
    · exact .inl he
  · rintro (he | rfl)
    · exact .inr ⟨he, hne e he⟩
    · exact .inl rfl

/-- What is no page's entry before a removal is none after it. -/
theorem Tlb.lookup_remove_eq_none {t : Tlb} {v : BitVec 20} (h : t.lookup v = none) (w : BitVec 20) : (t.remove w).lookup v = none :=
  Tlb.lookup_eq_none.mpr fun e he => Tlb.lookup_eq_none.mp h e (Tlb.mem_remove.mp he).1

/-- Settles O38, by the three outcomes of the fill draw (`Tlb.maybeFill_cases`). -/
theorem xlateMissFillsAsAdmitted : Obligations.XlateMissFillsAsAdmitted := by
  intro va s hready hpaging hmiss hm
  refine ⟨_, execXlate_of_miss hready hpaging hmiss hm, rfl, ?_⟩
  show s.tlb.maybeFill (Config.tlbFill s.draws) (vpnOf va) (s.pteValue va) = s.tlb ∨ _
  rcases Tlb.maybeFill_cases s.tlb (Config.tlbFill s.draws) (vpnOf va) (s.pteValue va) with
    hkeep | ⟨hroom, -, hinsert⟩ | ⟨hpos, e, he, hreplace⟩
  · exact .inl hkeep
  · refine .inr (.inl ⟨hroom, fun x => ?_⟩)
    show x ∈ s.tlb.maybeFill _ _ _ ↔ _
    rw [hinsert]
    exact Tlb.mem_insert_of_lookup_eq_none hmiss
  · refine .inr (.inr ⟨hpos, e, he, fun x => ?_⟩)
    show x ∈ s.tlb.maybeFill _ _ _ ↔ _
    rw [hreplace, Tlb.mem_insert_of_lookup_eq_none (Tlb.lookup_remove_eq_none hmiss e.vpn), Tlb.mem_remove]
    rfl

/-! ### What the decoder keeps -/

/-- The three fields of a word, put together again (R55). -/
theorem commandWord_of_fields {w : Word} (h : rsvOf w = 0#12) : commandWord (immOf w) (opcOf w) = w := by
  unfold commandWord
  rw [← h]
  unfold rsvOf immOf opcOf
  rw [BitVec.extractLsb'_append_extractLsb'_eq_extractLsb' (by rfl), BitVec.extractLsb'_append_extractLsb'_eq_extractLsb' (by rfl)]
  exact BitVec.extractLsb'_eq_self

/-- The instruction has the opcode, the immediate and the operands it was read from, an ignored operand being 0 (R15, R57). -/
structure ReadFrom (opc : BitVec 8) (imm : BitVec 12) (arg0 arg1 : Word) (i : Instr) : Prop where
  wf : i.wf = true
  opc_eq : i.opc = opc
  imm_eq : i.imm = imm
  arg0_eq : i.arg0 = if opc ∈ [0x10#8, 0x16#8, 0x18#8, 0x31#8] then 0#32 else arg0
  arg1_eq : i.arg1 = if opc ∈ [0x02#8, 0x0A#8, 0x11#8, 0x12#8, 0x25#8] then arg1 else 0#32

theorem withoutImm_eq_legal {imm : BitVec 12} {i j : Instr} (h : withoutImm imm i = .legal j) : imm = 0#12 ∧ j = i := by
  unfold withoutImm at h
  split at h
  · next h0 => exact ⟨h0, (Decoded.legal.inj h).symm⟩
  · cases h

theorem withRegister_eq_legal {n : BitVec 12} {i j : Instr} (h : withRegister n i = .legal j) : crNumberOk n = true ∧ j = i := by
  unfold withRegister at h
  split at h
  · next hn => exact ⟨hn, (Decoded.legal.inj h).symm⟩
  · cases h

/-- The opcode read is the instruction's own, so what ignored operands are can be seen at the instruction. -/
theorem ReadFrom.of_toNat {opc : BitVec 8} {imm : BitVec 12} {a0 a1 : Word} {i : Instr} {k : Nat} (hk : opc.toNat = k)
    (hopc : i.opc.toNat = k) (hwf : i.wf = true) (himm : i.imm = imm)
    (h0 : i.arg0 = if i.opc ∈ [0x10#8, 0x16#8, 0x18#8, 0x31#8] then 0#32 else a0)
    (h1 : i.arg1 = if i.opc ∈ [0x02#8, 0x0A#8, 0x11#8, 0x12#8, 0x25#8] then a1 else 0#32) : ReadFrom opc imm a0 a1 i := by
  obtain rfl : i.opc = opc := BitVec.eq_of_toNat_eq (hopc.trans hk.symm)
  exact ⟨hwf, rfl, himm, h0, h1⟩

/-- By the rows of the opcode map (R57): the four with an immediate, the two with a register number, an unknown opcode, all others. -/
theorem readFrom_of_decodeOpcode {opc : BitVec 8} {imm : BitVec 12} {a0 a1 : Word} {i : Instr}
    (h : decodeOpcode opc imm a0 a1 = .legal i) : ReadFrom opc imm a0 a1 i := by
  unfold decodeOpcode at h
  split at h
  case h_1 hk | h_6 hk | h_7 hk | h_8 hk =>
    obtain rfl := Decoded.legal.inj h
    exact .of_toNat hk rfl rfl rfl rfl rfl
  case h_31 hk | h_32 hk =>
    obtain ⟨hn, rfl⟩ := withRegister_eq_legal h
    exact .of_toNat hk rfl hn rfl rfl rfl
  case h_33 => cases h
  all_goals
    next hk =>
      obtain ⟨himm, rfl⟩ := withoutImm_eq_legal h
      exact .of_toNat hk rfl rfl himm.symm rfl rfl

/-- Settles O2: the fields of the word, whose reserved bits are 0, make up the instruction's own word, and `ReadFrom` says which
operands are kept. -/
theorem decodedInstructionKeepsWordAndOperands : Obligations.DecodedInstructionKeepsWordAndOperands := by
  intro c i h
  unfold decode at h
  split at h
  · next hrsv =>
    have hread := readFrom_of_decodeOpcode h
    have hword : i.word = c.word := by
      rw [Instr.word, hread.imm_eq, hread.opc_eq, commandWord_of_fields hrsv]
    exact ⟨hread.wf, hword, fun hused => hread.arg0_eq.trans (if_neg hused), fun hignored => hread.arg0_eq.trans (if_pos hignored),
      fun hused => hread.arg1_eq.trans (if_pos hused), fun hignored => hread.arg1_eq.trans (if_neg hignored)⟩
  · cases h

end Sys2Proof.Machine
end

section
/-! Proofs for spec/20_memory.md: the bytes of a word and the frame bits in them, O11 and O13; what leaves no TLB entry for a page, O50; XLATE
after a miss, O52; a host store, O6; where entries lie, O12. -/

namespace Sys2Proof.Machine

/-! ### The bytes of a word -/

/-- Bit `j` of the word at `pa` is bit `j mod 8` of byte `pa + floor(j / 8)` (R39). -/
theorem Memory.getLsbD_read32 (m : Memory) (pa : Word) {j : Nat} (hj : j < 32) :
    (m.read32 pa).getLsbD j = (m.readByte (pa + BitVec.ofNat 32 (j / 8))).getLsbD (j % 8) := by
  simp only [Memory.read32, BitVec.getLsbD_append]
  by_cases h8 : j < 8
  · obtain ⟨hk, hr⟩ : j / 8 = 0 ∧ j % 8 = j := by omega
    simp [h8, hk, hr]
  by_cases h16 : j < 16
  · obtain ⟨hk, hr⟩ : j / 8 = 1 ∧ j % 8 = j - 8 := by omega
    simp [h8, hk, hr, show j - 8 < 8 by omega]
  by_cases h24 : j < 24
  · obtain ⟨hk, hr⟩ : j / 8 = 2 ∧ j % 8 = j - 8 - 8 := by omega
    simp [h8, hk, hr, show ¬ j - 8 < 8 by omega, show j - 8 - 8 < 8 by omega]
  · obtain ⟨hk, hr⟩ : j / 8 = 3 ∧ j % 8 = j - 8 - 8 - 8 := by omega
    simp [h8, hk, hr, show ¬ j - 8 < 8 by omega, show ¬ j - 8 - 8 < 8 by omega]

/-- Byte `pa + k` holds bits `8k+7 : 8k` of the word at `pa` (R39). -/
theorem Memory.readByte_add_eq_extractLsb' (m : Memory) (pa : Word) {k : Nat} (hk : k < 4) :
    m.readByte (pa + BitVec.ofNat 32 k) = (m.read32 pa).extractLsb' (8 * k) 8 := by
  apply BitVec.eq_of_getLsbD_eq
  intro i hi
  obtain ⟨hdiv, hmod⟩ : (8 * k + i) / 8 = k ∧ (8 * k + i) % 8 = i := by omega
  rw [BitVec.getLsbD_extractLsb', Memory.getLsbD_read32 m pa (by omega), hdiv, hmod]
  simp [hi]

/-- A word is the disjunction of its four bytes, each shifted to its place. -/
theorem eq_or_shifted_bytes (v : Word) :
    v = (v.extractLsb' 0 8).zeroExtend 32 ||| ((v.extractLsb' 8 8).zeroExtend 32 <<< 8) |||
      ((v.extractLsb' 16 8).zeroExtend 32 <<< 16) ||| ((v.extractLsb' 24 8).zeroExtend 32 <<< 24) := by
  ext i hi
  interval_cases i <;> simp

/-- Settles O11: the bytes are the word's fields (`Memory.readByte_add_eq_extractLsb'`), and a word is put together from its fields. -/
theorem wordsAreLittleEndian : Obligations.WordsAreLittleEndian := by
  intro m pa
  have byte0 : m.readByte pa = (m.read32 pa).extractLsb' 0 8 := by
    simpa using Memory.readByte_add_eq_extractLsb' m pa (k := 0) (by decide)
  have byte1 := Memory.readByte_add_eq_extractLsb' m pa (k := 1) (by decide)
  have byte2 := Memory.readByte_add_eq_extractLsb' m pa (k := 2) (by decide)
  have byte3 := Memory.readByte_add_eq_extractLsb' m pa (k := 3) (by decide)
  refine ⟨?_, byte0, byte1, byte2, byte3⟩
  rw [byte0, byte1, byte2, byte3]
  exact eq_or_shifted_bytes (m.read32 pa)

/-- The byte of frame `f`'s bitmap word that holds its bit lies at `BMBASE + floor(f / 8)`, modulo 2^32 (R43). -/
theorem State.bitWordAddr_add (s : State) (f : Nat) :
    s.bitWordAddr f + BitVec.ofNat 32 (f % 32 / 8) = BitVec.ofNat 32 (s.bmbase.toNat + f / 8) := by
  rw [State.bitWordAddr, State.bmWordAddr, ← BitVec.ofNat_add]
  congr 1
  simp only [bmWordBits]
  omega

/-- Settles O13: bit `f mod 32` of the bitmap word is bit `f mod 8` of the byte that `State.bitWordAddr_add` names. -/
theorem frameBitLiesInItsByte : Obligations.FrameBitLiesInItsByte := by
  intro s f
  have hmod : f % 32 % 8 = f % 8 := Nat.mod_mod_of_dvd f (by decide)
  calc s.bit f = (s.mem.read32 (s.bitWordAddr f)).getLsbD (f % 32) := rfl
    _ = (s.mem.readByte (s.bitWordAddr f + BitVec.ofNat 32 (f % 32 / 8))).getLsbD (f % 32 % 8) :=
      Memory.getLsbD_read32 s.mem _ (Nat.mod_lt f (by decide))
    _ = (s.mem.readByte (BitVec.ofNat 32 (s.bmbase.toNat + f / 8))).getLsbD (f % 8) := by rw [State.bitWordAddr_add, hmod]

/-! ### Commands that drop the page's TLB entry -/

/-- Where the command that left `t` ended OK, the TLB of `t` has no entry for the page (R102 (c)). -/
def State.DropsOnOk (vpn : BitVec 20) (t : State) : Prop := statusResult t.status = 0#4 → t.tlb.lookup vpn = none

theorem State.DropsOnOk.of_lookup {vpn : BitVec 20} {t : State} (h : t.tlb.lookup vpn = none) : t.DropsOnOk vpn := fun _ => h

/-- A fatal fault is no OK end (R109). -/
theorem State.DropsOnOk.raiseFatal {vpn : BitVec 20} (s : State) (cause : FaultCause) (info word : Word) :
    (s.raiseFatal cause info word).DropsOnOk vpn := fun h => absurd h (by simp)

/-- `finish` with another code than OK is no OK end (R24). -/
theorem State.DropsOnOk.finish {vpn : BitVec 20} (s : State) {code : ResultCode} (hc : resultNumber code ≠ 0#4 := by decide) :
    (s.finish code).DropsOnOk vpn := fun h => absurd h (by simpa using hc)

/-- A check in front of a command: where it fails, the command faults (R111). -/
theorem State.DropsOnOk.checked {vpn : BitVec 20} {s t : State} {p : Prop} [Decidable p] {cause : FaultCause} {info word : Word}
    (ht : t.DropsOnOk vpn) : (if p then t else s.raiseFatal cause info word).DropsOnOk vpn := by
  split
  · exact ht
  · exact .raiseFatal s cause info word

/-- `SetPte` leaves no entry for the page (R92). -/
theorem State.lookup_tlb_setPte (s : State) (pde va frame : Word) : (s.setPte pde va frame).tlb.lookup (vpnOf va) = none :=
  Tlb.lookup_remove s.tlb (vpnOf va)

/-- The state a command leaves in a block that is not halted. -/
theorem dropsOnOk_of_ready {vpn : BitVec 20} {s t : State} {body : State → State} (hready : s.halted = false)
    (hb : (body s).DropsOnOk vpn) (ht : runUnlessHalted s body = .next t) : t.DropsOnOk vpn := by
  obtain rfl : body s = t := Host.Outcome.next.inj ((runUnlessHalted_of_ready hready body).symm.trans ht)
  exact hb

/-- MAP ends OK only by `SetPte` (R98). -/
theorem execMap_dropsOnOk {phys virt : Word} {s t : State} (hready : s.halted = false) (ht : execMap phys virt s = .next t) :
    t.DropsOnOk (vpnOf virt) := by
  refine dropsOnOk_of_ready hready (.checked (.checked ?_)) ht
  split
  · exact .raiseFatal _ _ _ _
  · exact .finish _
  · next pde s₁ _ => exact .of_lookup (s₁.lookup_tlb_setPte pde virt phys)

/-- UNMAP ends OK only after the removal of the page's entry (R99). -/
theorem execUnmap_dropsOnOk {virt : Word} {s t : State} (hready : s.halted = false) (ht : execUnmap virt s = .next t) :
    t.DropsOnOk (vpnOf virt) := by
  refine dropsOnOk_of_ready hready (.checked ?_) ht
  split
  · exact .finish _
  · exact .finish _
  · exact .of_lookup (Tlb.lookup_remove s.tlb (vpnOf virt))

/-- PAGE.ALLOC ends OK only by `SetPte` (R100). -/
theorem execPageAlloc_dropsOnOk {virt : Word} {s t : State} (hready : s.halted = false) (ht : execPageAlloc virt s = .next t) :
    t.DropsOnOk (vpnOf virt) := by
  refine dropsOnOk_of_ready hready (.checked ?_) ht
  split
  · exact .finish _
  · refine .checked ?_
    split
    · exact .finish _
    · next f _ =>
      split
      · exact .raiseFatal _ _ _ _
      · exact .finish _
      · next pde s₁ _ => exact .of_lookup (s₁.lookup_tlb_setPte pde virt (frameAddr f))

/-- PAGE.FREE ends OK only after the removal of the page's entry (R101). -/
theorem execPageFree_dropsOnOk {virt : Word} {s t : State} (hready : s.halted = false) (ht : execPageFree virt s = .next t) :
    t.DropsOnOk (vpnOf virt) := by
  refine dropsOnOk_of_ready hready (.checked ?_) ht
  split
  · exact .finish _
  · exact .finish _
  · split
    · exact .raiseFatal _ _ _ _
    · exact .checked (.of_lookup (Tlb.lookup_remove s.tlb (vpnOf virt)))

/-- Settles O50, by the four commands. -/
theorem mappingCommandsDropThePagesEntry : Obligations.MappingCommandsDropThePagesEntry := by
  intro i s t virt hi hready ht hok
  rcases hi with ⟨phys, rfl⟩ | rfl | rfl | rfl
  · exact execMap_dropsOnOk hready ht hok
  · exact execUnmap_dropsOnOk hready ht hok
  · exact execPageAlloc_dropsOnOk hready ht hok
  · exact execPageFree_dropsOnOk hready ht hok

/-! ### XLATE after a miss -/

/-- With paging on and no entry for the page, XLATE ends in the state in which WALK ends, but for the TLB and the count of draws (R96, R97). -/
theorem eq_walk_of_execXlate_of_miss {va : Word} {s u w : State} (hready : s.halted = false) (hpaging : s.paging = true)
    (hmiss : s.tlb.lookup (vpnOf va) = none) (hu : execXlate va s = .next u) (hw : execWalk va s = .next w) :
    u = { w with tlb := u.tlb, draws := u.draws } := by
  simp only [execXlate, execWalk, runUnlessHalted_of_ready hready, hpaging, if_true, hmiss, Host.Outcome.next.injEq] at hu hw
  subst hu hw
  cases s.walkTables va with
  | absentAtPde e pa => rfl
  | absentAtPte e pa => rfl
  | present e pa => rfl

/-- INVLPG in a block that is not halted drops the page's entry and ends OK (R104). -/
theorem exec_invlpg_of_ready {s : State} (hready : s.halted = false) (va : Word) :
    exec (.invlpg va) s = .next ((s.tlbRemove (vpnOf va)).finish .ok) :=
  runUnlessHalted_of_ready hready fun s => (s.tlbRemove (vpnOf va)).finish .ok

/-- Settles O52: INVLPG leaves no entry for the page, so XLATE misses and walks memory. -/
theorem xlateAfterInvlpgWalksMemory : Obligations.XlateAfterInvlpgWalksMemory := by
  intro va va' s t u w hready hpaging hpage ht hu hw
  obtain rfl := Host.Outcome.next.inj ((exec_invlpg_of_ready hready va).symm.trans ht)
  have hmiss : ((s.tlbRemove (vpnOf va)).finish .ok).tlb.lookup (vpnOf va') = none := by
    rw [show vpnOf va' = vpnOf va from hpage.symm]
    exact Tlb.lookup_remove s.tlb (vpnOf va)
  have hready' : ((s.tlbRemove (vpnOf va)).finish .ok).halted = false := by simpa using hready
  rw [eq_walk_of_execXlate_of_miss hready' hpaging hmiss hu hw]
  exact ⟨rfl, rfl, rfl⟩

/-! ### Host stores and entry addresses -/

/-- Settles O6: the store's own step (`step_of_inbox_storeByte`) and the rule of a byte read after a byte store. -/
theorem hostStoreChangesOneByteOnly : Obligations.HostStoreChangesOneByteOnly := by
  intro s addr b rest hin
  refine ⟨_, step_of_inbox_storeByte hin, rfl, ?stored, fun a ha => ?others⟩
  case stored => exact (Memory.readByte_writeByte s.mem addr addr b).trans (if_pos rfl)
  case others => exact (Memory.readByte_writeByte s.mem addr a b).trans (if_neg ha)

/-- Settles O12: the directory's address is aligned by the premise, a table's because it is a frame field. -/
theorem entryAddressesNeverWrap : Obligations.EntryAddressesNeverWrap := by
  intro s pde va haligned
  refine ⟨State.pdePlace_toNat haligned va, ?_⟩
  rw [pteAddr_eq, ptePlaceIn_toNat (and_frameMask_aligned pde), and_frameMask_toNat]

end Sys2Proof.Machine
end

section
/-! Proofs for spec/30_encoding.md: decoding what the encoder writes, O1; which words are legal, O3; the spec's written-out words, O4; and for
spec/44_tlb_control.md the two control-register commands, O53 and O54. -/

namespace Sys2Proof.Machine

/-! ### Encoding, then decoding -/

/-- The decoder reads from an encoded command the instruction's own opcode, immediate and operands (R55, R60). -/
theorem decode_encode_eq_decodeOpcode (i : Instr) : decode (encode i) = decodeOpcode i.opc i.imm i.arg0 i.arg1 := by
  simp only [decode, encode, Instr.word, rsvOf_commandWord, opcOf_commandWord, immOf_commandWord, if_true]

/-- Each row of the opcode map gives back the instruction whose fields it is given; only a register number is checked (R57, R59 (d)). -/
theorem decodeOpcode_of_wf {i : Instr} (hwf : i.wf = true) : decodeOpcode i.opc i.imm i.arg0 i.arg1 = .legal i := by
  cases i with
  | crRd n => exact if_pos hwf
  | crWr n value => exact if_pos hwf
  | _ => rfl

/-- Settles O1: the fields of the encoded word are the instruction's, and its row of the map reads them back. -/
theorem decodeEncodeRoundTrip : Obligations.DecodeEncodeRoundTrip := fun i hwf =>
  (decode_encode_eq_decodeOpcode i).trans (decodeOpcode_of_wf hwf)

/-- Settles O4: the seven words are those the encoder writes (O1); the four illegal ones are evaluated. -/
theorem specWordsDecodeAsWritten : Obligations.SpecWordsDecodeAsWritten := by
  refine ⟨?pack, ?map, ?crWr, ?freereg, ?crRd, ?st, ?test, by decide, by decide, by decide, by decide⟩
  case pack => exact decodeEncodeRoundTrip (.entPack 0x003#12 0x00400000#32) rfl
  case map => exact decodeEncodeRoundTrip (.map 0#32 0xC0000000#32) rfl
  case crWr => exact decodeEncodeRoundTrip (.crWr 1#12 0x00066000#32) rfl
  case freereg => exact decodeEncodeRoundTrip (.bmFreereg 0x800#32 0x2000#32) rfl
  case crRd => exact decodeEncodeRoundTrip (.crRd 7#12) rfl
  case st => exact decodeEncodeRoundTrip (.entSt 0x1004#32 0xFFFFFFFF#32) rfl
  case test => exact decodeEncodeRoundTrip (.entTest 0x801#12 0x00400003#32) rfl

/-! ### The legal words -/

/-- The opcodes of the map (R57). -/
abbrev mapOpcodes : List (BitVec 8) :=
  [0x01#8, 0x02#8, 0x03#8, 0x04#8, 0x05#8, 0x06#8, 0x07#8, 0x08#8, 0x09#8, 0x0A#8] ++
    [0x10#8, 0x11#8, 0x12#8, 0x13#8, 0x14#8, 0x15#8, 0x16#8, 0x17#8, 0x18#8, 0x19#8] ++
    [0x20#8, 0x21#8, 0x22#8, 0x23#8, 0x24#8, 0x25#8, 0x26#8, 0x27#8, 0x28#8] ++ [0x30#8, 0x31#8, 0x32#8]
/-- The opcodes of the commands that take an immediate or a register number (R57). -/
abbrev immediateOpcodes : List (BitVec 8) := [0x01#8, 0x06#8, 0x07#8, 0x08#8, 0x31#8, 0x32#8]
/-- The opcodes of CR.RD and CR.WR (R57). -/
abbrev registerOpcodes : List (BitVec 8) := [0x31#8, 0x32#8]

/-- The opcode is in the map and the immediate is one that it allows: none of R59's kinds (a), (c), (d). -/
structure LegalFields (opc : BitVec 8) (imm : BitVec 12) : Prop where
  opc_mem : opc ∈ mapOpcodes
  imm_eq_zero : opc ∉ immediateOpcodes → imm = 0#12
  imm_lt_eight : opc ∈ registerOpcodes → imm.toNat < 8

/-- The fields of an instruction with a legal command word are legal. -/
theorem legalFields_of_wf {i : Instr} (hwf : i.wf = true) : LegalFields i.opc i.imm where
  opc_mem := by cases i <;> simp [Instr.opc]
  imm_eq_zero h := by
    cases i with
    | entPack _ _ | entAdd _ _ | entDel _ _ | entTest _ _ | crRd _ | crWr _ _ => exact absurd (by simp [Instr.opc]) h
    | _ => rfl
  imm_lt_eight h := by
    cases i with
    | crRd n => exact Nat.lt_succ_of_le (of_decide_eq_true hwf)
    | crWr n value => exact Nat.lt_succ_of_le (of_decide_eq_true hwf)
    | _ => exact absurd h (by simp [Instr.opc])

/-- Legal fields select an instruction, by the rows of the opcode map (R57, R58): the four with an immediate, the two with a register
number, an unknown opcode, which the premise excludes, and all others. -/
theorem exists_decodeOpcode_eq_legal {opc : BitVec 8} {imm : BitVec 12} (h : LegalFields opc imm) (arg0 arg1 : Word) :
    ∃ i, decodeOpcode opc imm arg0 arg1 = .legal i := by
  obtain ⟨hmap, hzero, hreg⟩ := h
  unfold decodeOpcode
  split
  case h_1 | h_6 | h_7 | h_8 => exact ⟨_, rfl⟩
  case h_31 hk | h_32 hk =>
    exact ⟨_, if_pos (decide_eq_true (Nat.le_of_lt_succ (hreg (by simp [← BitVec.toNat_inj, hk]))))⟩
  case h_33 =>
    simp only [mapOpcodes, List.cons_append, List.nil_append, List.mem_cons, List.not_mem_nil, or_false, ← BitVec.toNat_inj] at hmap
    grind
  all_goals
    next hk => exact ⟨_, if_pos (hzero (by simp [← BitVec.toNat_inj, hk]))⟩

/-- R58, R59: the words that the decoder accepts are those with reserved bits 0 and legal fields. -/
theorem exists_decode_eq_legal_iff (c : Command) :
    (∃ i, decode c = .legal i) ↔ rsvOf c.word = 0#12 ∧ LegalFields (opcOf c.word) (immOf c.word) := by
  constructor
  · rintro ⟨i, hi⟩
    obtain ⟨hwf, hword, -⟩ := decodedInstructionKeepsWordAndOperands c i hi
    rw [← hword, Instr.word, rsvOf_commandWord, opcOf_commandWord, immOf_commandWord]
    exact ⟨rfl, legalFields_of_wf hwf⟩
  · rintro ⟨hrsv, hfields⟩
    simpa only [decode, hrsv, if_true] using exists_decodeOpcode_eq_legal hfields c.arg0 c.arg1

/-- An illegal word in a block that is not halted: fatal IllegalCommand with the word in FAULTINFO and FAULTCMD (R59, R108). -/
theorem execIllegal_of_ready {s : State} (hready : s.halted = false) (word : Word) :
    execIllegal word s = .next (s.fatallyEnded 3#32 word word) := by
  rw [execIllegal, runUnlessHalted_of_ready hready, State.raiseFatal_illegal]

/-- Settles O3: R59's four kinds are the ways in which a word fails to be one that the decoder accepts (`exists_decode_eq_legal_iff`). -/
theorem illegalWordsAreFatalAndNoOthers : Obligations.IllegalWordsAreFatalAndNoOthers := by
  intro c s hready
  refine ⟨fun hkind => ?illegal, fun hnone => ?legal⟩
  case illegal =>
    cases hd : decode c with
    | legal i =>
      obtain ⟨hrsv, hmap, hzero, hreg⟩ := (exists_decode_eq_legal_iff c).mp ⟨i, hd⟩
      rcases hkind with hopc | hbits | ⟨himm, hopc⟩ | ⟨hopc, hn⟩
      · exact absurd hmap hopc
      · exact absurd hrsv hbits
      · exact absurd (hzero hopc) himm
      · exact absurd (hreg hopc) (not_lt.mpr hn)
    | illegal why => rw [runCommand_of_illegal hd, execIllegal_of_ready hready]
  case legal =>
    obtain ⟨hmap, hrsv, hzero, hreg⟩ := by simpa only [not_or, not_and, not_not, not_le] using hnone
    obtain ⟨i, hd⟩ := (exists_decode_eq_legal_iff c).mpr ⟨hrsv, hmap, fun hopc => by_contra fun himm => hopc (hzero himm), hreg⟩
    exact ⟨i, hd, runCommand_of_legal hd s⟩

/-! ### CR.RD and CR.WR -/

theorem crNumberOk_iff {n : BitVec 12} : crNumberOk n = true ↔ n.toNat ≤ 7 := decide_eq_true_iff

theorem not_crNumberOk {n : BitVec 12} (h8 : 8 ≤ n.toNat) : ¬ crNumberOk n = true :=
  fun h => absurd (crNumberOk_iff.mp h) (not_le.mpr h8)

theorem word_crRd (n : BitVec 12) : (Instr.crRd n).word = 0x31#32 ||| (n.zeroExtend 32 <<< 8) := commandWord_eq n 0x31#8

theorem word_crWr (n : BitVec 12) (value : Word) : (Instr.crWr n value).word = 0x32#32 ||| (n.zeroExtend 32 <<< 8) :=
  commandWord_eq n 0x32#8

/-- The register file in the order of R19. -/
theorem State.readCR_eq_getD (s : State) {n : Nat} (hn : n ≤ 7) :
    s.readCR n = [s.ctrl, s.pdbr, s.bmbase, s.nframes, s.status, s.faultInfo, s.faultCmd, tlbCap].getD n 0#32 := by
  interval_cases n <;> rfl

theorem exec_crRd_of_le {n : BitVec 12} (hn : n.toNat ≤ 7) (s : State) :
    exec (.crRd n) s = .next (if s.halted then s.setRes0 (s.readCR n.toNat) else (s.setRes0 (s.readCR n.toNat)).finish .ok) :=
  if_pos (crNumberOk_iff.mpr hn)

/-- Settles O53, by whether the register exists and whether the block is halted. -/
theorem crRdReadsTheRegister : Obligations.CrRdReadsTheRegister := by
  intro n s
  refine ⟨fun hn hready => ?ready, fun hn hhalted => ?halted, fun h8 hready => ?missing⟩
  case ready =>
    rw [exec_crRd_of_le hn, hready, State.readCR_eq_getD s hn]
    rfl
  case halted =>
    rw [exec_crRd_of_le hn, hhalted, State.readCR_eq_getD s hn]
    rfl
  case missing =>
    calc exec (.crRd n) s = execIllegal (Instr.crRd n).word s := if_neg (not_crNumberOk h8)
      _ = .next (s.fatallyEnded 3#32 _ _) := by rw [execIllegal_of_ready hready, word_crRd]

theorem State.writeCR_ctrl (s : State) (v word : Word) :
    s.writeCR 0 v word = { s with ctrl := v &&& 1#32, tlb := [] }.ended 0#32 := rfl

theorem State.writeCR_pdbr (s : State) (v word : Word) : s.writeCR 1 v word =
    if v.extractLsb' 0 12 = 0#12 then { s with pdbr := v, tlb := [] }.ended 0#32 else s.fatallyEnded 1#32 v word := by
  simp only [State.writeCR, aligned4K_iff, State.raiseFatal_alignment]
  rfl

theorem State.writeCR_bmbase (s : State) (v word : Word) : s.writeCR 2 v word =
    if v.extractLsb' 0 2 = 0#2 then { s with bmbase := v }.ended 0#32 else s.fatallyEnded 1#32 v word := by
  simp only [State.writeCR, aligned4_iff, State.raiseFatal_alignment]
  rfl

theorem State.writeCR_nframes (s : State) (v word : Word) : s.writeCR 3 v word =
    if 0x100000 < v.toNat then s.fatallyEnded 2#32 v word else { s with nframes := v }.ended 0#32 := by
  simp only [State.writeCR, State.raiseFatal_invalid]
  rfl

/-- CR4 to CR7 ignore writes (R19). -/
theorem State.writeCR_ignored (s : State) {n : Nat} (h4 : 4 ≤ n) (h7 : n ≤ 7) (v word : Word) : s.writeCR n v word = s.ended 0#32 := by
  interval_cases n <;> rfl

/-- CR.WR of a register that exists ends in whatever state the write leaves (R106). -/
theorem exec_crWr_of_writeCR {n : BitVec 12} {value : Word} {s t : State} (hready : s.halted = false) (hn : n.toNat ≤ 7)
    (ht : s.writeCR n.toNat value (0x32#32 ||| (n.zeroExtend 32 <<< 8)) = t) : exec (.crWr n value) s = .next t := by
  rw [← word_crWr n value] at ht
  rw [← ht]
  exact (if_pos (crNumberOk_iff.mpr hn)).trans (runUnlessHalted_of_ready hready _)

/-- Settles O54: a register that exists is written as its `State.writeCR` rule says; any other number is an illegal word. -/
theorem crWrWritesTheRegister : Obligations.CrWrWritesTheRegister := by
  intro n value s hready
  refine ⟨?ctrl, ?pdbr, ?pdbrMisaligned, ?bmbase, ?bmbaseMisaligned, ?nframes, ?nframesTooLarge, ?ignored, ?missing⟩
  case ctrl =>
    rintro rfl
    exact exec_crWr_of_writeCR hready (by decide) (s.writeCR_ctrl value _)
  case pdbr =>
    rintro rfl ha
    exact exec_crWr_of_writeCR hready (by decide) ((s.writeCR_pdbr value _).trans (if_pos ha))
  case pdbrMisaligned =>
    rintro rfl ha
    exact exec_crWr_of_writeCR hready (by decide) ((s.writeCR_pdbr value _).trans (if_neg ha))
  case bmbase =>
    rintro rfl ha
    exact exec_crWr_of_writeCR hready (by decide) ((s.writeCR_bmbase value _).trans (if_pos ha))
  case bmbaseMisaligned =>
    rintro rfl ha
    exact exec_crWr_of_writeCR hready (by decide) ((s.writeCR_bmbase value _).trans (if_neg ha))
  case nframes =>
    rintro rfl hle
    exact exec_crWr_of_writeCR hready (by decide) ((s.writeCR_nframes value _).trans (if_neg (not_lt.mpr hle)))
  case nframesTooLarge =>
    rintro rfl hlt
    exact exec_crWr_of_writeCR hready (by decide) ((s.writeCR_nframes value _).trans (if_pos hlt))
  case ignored =>
    intro h4 h7
    exact exec_crWr_of_writeCR hready h7 (s.writeCR_ignored h4 h7 value _)
  case missing =>
    intro h8
    calc exec (.crWr n value) s = execIllegal (Instr.crWr n value).word s := if_neg (not_crNumberOk h8)
      _ = .next (s.fatallyEnded 3#32 _ _) := by rw [execIllegal_of_ready hready, word_crWr]

end Sys2Proof.Machine
end

section
/-! Proofs for spec/41_entry_codec.md: what each codec command does in a block that is not halted, O14 to O19; the codec's laws, O20. -/

namespace Sys2Proof.Machine

/-! ### Command words -/

/-- A command without an immediate has its opcode as its word (R55). -/
theorem word_of_imm_eq_zero {i : Instr} (h : i.imm = 0#12) : i.word = i.opc.zeroExtend 32 := by
  rw [Instr.word, h, commandWord_eq]
  exact BitVec.or_zero

theorem word_entPack (flags : BitVec 12) (addr : Word) :
    (Instr.entPack flags addr).word = 0x1#32 ||| (flags.zeroExtend 32 <<< 8) := commandWord_eq flags 0x01#8
theorem word_entSetframe (entry addr : Word) : (Instr.entSetframe entry addr).word = 0x2#32 :=
  word_of_imm_eq_zero (i := .entSetframe entry addr) rfl
theorem word_entGetframe (entry : Word) : (Instr.entGetframe entry).word = 0x3#32 :=
  word_of_imm_eq_zero (i := .entGetframe entry) rfl
theorem word_entGetpfn (entry : Word) : (Instr.entGetpfn entry).word = 0x4#32 :=
  word_of_imm_eq_zero (i := .entGetpfn entry) rfl
theorem word_entGetflags (entry : Word) : (Instr.entGetflags entry).word = 0x5#32 :=
  word_of_imm_eq_zero (i := .entGetflags entry) rfl
theorem word_entAdd (mask : BitVec 12) (entry : Word) :
    (Instr.entAdd mask entry).word = 0x6#32 ||| (mask.zeroExtend 32 <<< 8) := commandWord_eq mask 0x06#8
theorem word_entDel (mask : BitVec 12) (entry : Word) :
    (Instr.entDel mask entry).word = 0x7#32 ||| (mask.zeroExtend 32 <<< 8) := commandWord_eq mask 0x07#8
theorem word_entTest (mask : BitVec 12) (entry : Word) :
    (Instr.entTest mask entry).word = 0x8#32 ||| (mask.zeroExtend 32 <<< 8) := commandWord_eq mask 0x08#8
theorem word_entLd (addr : Word) : (Instr.entLd addr).word = 0x9#32 :=
  word_of_imm_eq_zero (i := .entLd addr) rfl
theorem word_entSt (addr value : Word) : (Instr.entSt addr value).word = 0xA#32 :=
  word_of_imm_eq_zero (i := .entSt addr value) rfl

theorem encode_of_word {i : Instr} {word : Word} (h : i.word = word) : encode i = ⟨word, i.arg0, i.arg1⟩ :=
  congrArg (fun w => Command.mk w i.arg0 i.arg1) h

/-! ### The two forms of a codec command -/

/-- A command that checks nothing ends OK with its value in RES0 (R66 to R71). -/
theorem runUnlessHalted_result {s : State} (hready : s.halted = false) (v : Word) :
    runUnlessHalted s (fun s => (s.setRes0 v).finish .ok) = .next ({ s with res0 := v }.ended 0#32) :=
  runUnlessHalted_of_ready hready fun s => (s.setRes0 v).finish .ok

/-- A command that first checks the alignment of an address: where the check fails it faults on that address (R64, R65, R72, R73). -/
theorem exec_of_alignment_check {i : Instr} {s : State} {aligned : Bool} {p : Prop} {addr word : Word} (body : State → State)
    (hready : s.halted = false) (hp : aligned = true ↔ p) (hword : i.word = word)
    (hi : exec i s = runUnlessHalted s fun s => if aligned then body s else s.raiseFatal .alignmentViolation addr i.word) :
    (p → exec i s = .next (body s)) ∧ (¬ p → exec i s = .next (s.fatallyEnded 1#32 addr word)) := by
  rw [hi, runUnlessHalted_of_ready hready, State.raiseFatal_alignment, hword]
  exact ⟨fun h => congrArg _ (if_pos (hp.mpr h)), fun h => congrArg _ (if_neg fun ha => h (hp.mp ha))⟩

/-! ### The commands -/

/-- Settles O14: a checked command whose word has the flags in IMM12. -/
theorem entPackBuildsAnEntry : Obligations.EntPackBuildsAnEntry := fun flags addr _ hready =>
  exec_of_alignment_check (fun s => (s.setRes0 (addr ||| zextImm flags)).finish .ok) hready aligned4K_iff
    (word_entPack flags addr) rfl

/-- Settles O15: a checked command; the address is its second operand. -/
theorem entSetframeReplacesTheAddress : Obligations.EntSetframeReplacesTheAddress := fun entry addr _ hready =>
  exec_of_alignment_check (fun s => (s.setRes0 ((entry &&& flagMask) ||| addr)).finish .ok) hready aligned4K_iff
    (word_entSetframe entry addr) rfl

/-- Settles O16: three commands that check nothing. -/
theorem entGetCommandsReadTheFields : Obligations.EntGetCommandsReadTheFields := fun entry _ hready =>
  ⟨runUnlessHalted_result hready (frameOf entry), runUnlessHalted_result hready (pfnOf entry),
    runUnlessHalted_result hready (flagsOf entry), encode_of_word (word_entGetframe entry),
    encode_of_word (word_entGetpfn entry), encode_of_word (word_entGetflags entry)⟩

/-- Settles O17: three commands that check nothing, each with the mask in IMM12. -/
theorem entMaskCommandsWorkOnTheFlags : Obligations.EntMaskCommandsWorkOnTheFlags := fun mask entry _ hready =>
  ⟨runUnlessHalted_result hready (entry ||| zextImm mask), runUnlessHalted_result hready (entry &&& ~~~zextImm mask),
    runUnlessHalted_result hready (if entry &&& zextImm mask = zextImm mask then 1#32 else 0#32),
    encode_of_word (word_entAdd mask entry), encode_of_word (word_entDel mask entry), encode_of_word (word_entTest mask entry)⟩

/-- Settles O18: a checked command that reads the word of memory. -/
theorem entLdReadsOneWord : Obligations.EntLdReadsOneWord := fun addr _ hready =>
  exec_of_alignment_check (fun s => (s.setRes0 (s.memRead32 addr)).finish .ok) hready aligned4_iff (word_entLd addr) rfl

/-- Settles O19: a checked command; then what a word store reads back and which bytes it leaves alone. -/
theorem entStWritesOneWord : Obligations.EntStWritesOneWord := by
  intro addr value s hready
  obtain ⟨hstores, hfaults⟩ := exec_of_alignment_check (fun s => (s.memWrite32 addr value).finish .ok) hready aligned4_iff
    (word_entSt addr value) rfl
  refine ⟨fun ha => ⟨_, hstores ha, rfl, ?written, fun a houtside => ?frame⟩, hfaults⟩
  case written => exact Memory.read32_write32_same s.mem addr value
  case frame => exact State.readByte_memWrite32 houtside

/-! ### The value a command leaves in RES0 -/

/-- A command that ends OK with `r` in RES0 gives `r` and no other value. -/
theorem State.gives_iff {s : State} (hready : s.halted = false) {i : Instr} {r : Word}
    (h : exec i s = .next ({ s with res0 := r }.ended 0#32)) (v : Word) : s.gives i v ↔ r = v := by
  constructor
  · rintro ⟨t, ht, -, hres⟩
    obtain rfl := Host.Outcome.next.inj (h.symm.trans ht)
    exact hres
  · intro hv
    exact ⟨_, h, (State.halted_finish (s.setRes0 r) .ok).trans hready, hv⟩

section
variable {s : State} (hready : s.halted = false)
include hready

theorem State.gives_entPack {addr : Word} (ha : addr.extractLsb' 0 12 = 0#12) (flags : BitVec 12) (v : Word) :
    s.gives (.entPack flags addr) v ↔ addr ||| flags.zeroExtend 32 = v :=
  have ⟨hpack, _⟩ := entPackBuildsAnEntry flags addr s hready
  State.gives_iff hready (hpack ha) v

theorem State.gives_entSetframe {addr : Word} (ha : addr.extractLsb' 0 12 = 0#12) (entry v : Word) :
    s.gives (.entSetframe entry addr) v ↔ (entry &&& 0xFFF#32) ||| addr = v :=
  have ⟨hset, _⟩ := entSetframeReplacesTheAddress entry addr s hready
  State.gives_iff hready (hset ha) v

theorem State.gives_entGetframe (entry v : Word) : s.gives (.entGetframe entry) v ↔ entry &&& 0xFFFFF000#32 = v :=
  have ⟨hframe, _⟩ := entGetCommandsReadTheFields entry s hready
  State.gives_iff hready hframe v

theorem State.gives_entGetpfn (entry v : Word) : s.gives (.entGetpfn entry) v ↔ entry >>> 12 = v :=
  have ⟨_, hpfn, _⟩ := entGetCommandsReadTheFields entry s hready
  State.gives_iff hready hpfn v

theorem State.gives_entGetflags (entry v : Word) : s.gives (.entGetflags entry) v ↔ entry &&& 0xFFF#32 = v :=
  have ⟨_, _, hflags, _⟩ := entGetCommandsReadTheFields entry s hready
  State.gives_iff hready hflags v

theorem State.gives_entAdd (mask : BitVec 12) (entry v : Word) :
    s.gives (.entAdd mask entry) v ↔ entry ||| mask.zeroExtend 32 = v :=
  have ⟨hadd, _⟩ := entMaskCommandsWorkOnTheFlags mask entry s hready
  State.gives_iff hready hadd v

theorem State.gives_entDel (mask : BitVec 12) (entry v : Word) :
    s.gives (.entDel mask entry) v ↔ entry &&& ~~~(mask.zeroExtend 32) = v :=
  have ⟨_, hdel, _⟩ := entMaskCommandsWorkOnTheFlags mask entry s hready
  State.gives_iff hready hdel v

theorem State.gives_entTest (mask : BitVec 12) (entry v : Word) : s.gives (.entTest mask entry) v ↔
    (if entry &&& mask.zeroExtend 32 = mask.zeroExtend 32 then 1#32 else 0#32) = v :=
  have ⟨_, _, htest, _⟩ := entMaskCommandsWorkOnTheFlags mask entry s hready
  State.gives_iff hready htest v

end

/-! ### The fields of an immediate and of an aligned address -/

/-- An immediate has no address bits (R56). -/
theorem zext_and_frameMask (m : BitVec 12) : m.zeroExtend 32 &&& 0xFFFFF000#32 = 0#32 := by
  ext i hi
  interval_cases i <;> simp

theorem zext_and_flagMask (m : BitVec 12) : m.zeroExtend 32 &&& 0xFFF#32 = m.zeroExtend 32 := by
  ext i hi
  interval_cases i <;> simp

/-- Clearing an immediate's bits clears no address bit. -/
theorem not_zext_and_frameMask (m : BitVec 12) : ~~~(m.zeroExtend 32) &&& 0xFFFFF000#32 = 0xFFFFF000#32 := by
  ext i hi
  interval_cases i <;> simp

theorem zext_ushiftRight (m : BitVec 12) : (m.zeroExtend 32) >>> 12 = 0#32 := by
  ext i hi
  simp

theorem zext_eq_zero_iff {m : BitVec 12} : m.zeroExtend 32 = 0#32 ↔ m = 0#12 := by
  rw [← BitVec.toNat_inj, ← BitVec.toNat_inj, BitVec.toNat_setWidth_of_le (by decide)]
  rfl

/-- An aligned address has no flag bits (R37). -/
theorem and_flagMask_of_aligned {a : Word} (ha : a.extractLsb' 0 12 = 0#12) : a &&& 0xFFF#32 = 0#32 :=
  BitVec.eq_of_toNat_eq ((and_flagMask_toNat a).trans (aligned4K_toNat.mp ha))

/-! ### Bits set and cleared -/

/-- Bits that were set read as set. -/
theorem or_and_self_right {w : Nat} (x y : BitVec w) : (x ||| y) &&& y = y := by
  ext i hi
  cases h : y[i] <;> simp [h]

theorem and_not_and_self {w : Nat} (x y : BitVec w) : (x &&& ~~~y) &&& y = 0#w := by
  rw [BitVec.and_assoc, BitVec.not_and_self]
  exact BitVec.and_zero

/-- Bits cleared and then set are set. -/
theorem and_not_or_self {w : Nat} (x y : BitVec w) : (x &&& ~~~y) ||| y = x ||| y := by
  ext i hi
  cases h : y[i] <;> simp [h]

/-- Bits set and then cleared are clear. -/
theorem or_and_not_self {w : Nat} (x y : BitVec w) : (x ||| y) &&& ~~~y = x &&& ~~~y := by
  rw [BitVec.and_or_distrib_right, BitVec.and_not_self]
  exact BitVec.or_zero

/-! ### The fields of an entry -/

/-- An entry is its address field and its flag field (R46). -/
theorem frame_or_flags (e : Word) : (e &&& 0xFFFFF000#32) ||| (e &&& 0xFFF#32) = e := by
  rw [← BitVec.and_or_distrib_left]
  exact BitVec.and_allOnes

/-- Setting flag bits keeps the address field. -/
theorem frame_or_zext (e : Word) (m : BitVec 12) : (e ||| m.zeroExtend 32) &&& 0xFFFFF000#32 = e &&& 0xFFFFF000#32 := by
  rw [BitVec.and_or_distrib_right, zext_and_frameMask, BitVec.or_zero]

/-- Clearing flag bits keeps the address field. -/
theorem frame_and_not_zext (e : Word) (m : BitVec 12) :
    (e &&& ~~~(m.zeroExtend 32)) &&& 0xFFFFF000#32 = e &&& 0xFFFFF000#32 := by
  rw [BitVec.and_assoc, not_zext_and_frameMask]

theorem flags_or_zext_of_aligned {a : Word} (ha : a.extractLsb' 0 12 = 0#12) (m : BitVec 12) :
    (a ||| m.zeroExtend 32) &&& 0xFFF#32 = m.zeroExtend 32 := by
  rw [BitVec.and_or_distrib_right, and_flagMask_of_aligned ha, zext_and_flagMask, BitVec.zero_or]

/-- The low bits are shifted out. -/
theorem or_zext_ushiftRight (e : Word) (m : BitVec 12) : (e ||| m.zeroExtend 32) >>> 12 = e >>> 12 := by
  rw [BitVec.ushiftRight_or_distrib, zext_ushiftRight, BitVec.or_zero]

/-- The flags of an entry whose address was replaced. -/
theorem flags_or_aligned {a : Word} (ha : a.extractLsb' 0 12 = 0#12) (e : Word) :
    ((e &&& 0xFFF#32) ||| a) &&& 0xFFF#32 = e &&& 0xFFF#32 := by
  rw [BitVec.and_or_distrib_right, and_flagMask_of_aligned ha, BitVec.or_zero, BitVec.and_assoc, BitVec.and_self]

/-- The address of an entry whose address was replaced. -/
theorem frame_or_aligned {a : Word} (ha : a.extractLsb' 0 12 = 0#12) (e : Word) :
    ((e &&& 0xFFF#32) ||| a) &&& 0xFFFFF000#32 = a := by
  have hmasks : 0xFFF#32 &&& 0xFFFFF000#32 = 0#32 := by decide
  rw [BitVec.and_or_distrib_right, and_frameMask_of_aligned ha, BitVec.and_assoc, hmasks, BitVec.and_zero, BitVec.zero_or]

/-! ### The laws -/

/-- Settles O20: with each command's value known (the `State.gives_` rules), every law is an equation of words. -/
theorem codecLawsHold : Obligations.CodecLawsHold := by
  intro m a e x y s hready ha
  simp only [State.gives_entPack hready ha, State.gives_entSetframe hready ha, State.gives_entGetframe hready,
    State.gives_entGetpfn hready, State.gives_entGetflags hready, State.gives_entAdd hready, State.gives_entDel hready,
    State.gives_entTest hready]
  refine ⟨?fieldsOfPack, ?packIsSetframeOfAdd, ?flagsOfSetframe, ?frameOfSetframe, ?frameOfAdd, ?frameOfDel, ?testAfterAdd,
    ?testAfterDel, ?addAfterDel, ?delAfterAdd, ?frameAndFlags⟩
  case fieldsOfPack =>
    rintro rfl
    exact ⟨(frame_or_zext a m).trans (and_frameMask_of_aligned ha), flags_or_zext_of_aligned ha m, or_zext_ushiftRight a m⟩
  case packIsSetframeOfAdd =>
    rintro rfl rfl
    rw [BitVec.zero_or, zext_and_flagMask, BitVec.or_comm]
  case flagsOfSetframe =>
    rintro rfl rfl
    exact flags_or_aligned ha e
  case frameOfSetframe =>
    rintro rfl
    exact frame_or_aligned ha e
  case frameOfAdd =>
    rintro rfl rfl
    exact frame_or_zext e m
  case frameOfDel =>
    rintro rfl rfl
    exact frame_and_not_zext e m
  case testAfterAdd =>
    rintro rfl
    exact if_pos (or_and_self_right e _)
  case testAfterDel =>
    rintro rfl
    rw [and_not_and_self]
    exact if_congr (eq_comm.trans zext_eq_zero_iff) rfl rfl
  case addAfterDel =>
    rintro rfl rfl
    exact and_not_or_self e _
  case delAfterAdd =>
    rintro rfl rfl
    exact or_and_not_self e _
  case frameAndFlags =>
    rintro rfl rfl
    exact frame_or_flags e

end Sys2Proof.Machine
end

section
/-! Proofs for spec/42_frame_bitmap.md: the checks and the search in front of a scanner command, said once for the commands that share
them; what the bit writes leave, O21 to O26; the four searching commands, O27 to O30, and two of them in a row, O31 and O32; and, for
spec/60_exceptions.md, what every command leaves at a recoverable outcome, O57. -/

namespace Sys2Proof.Machine

/-! ### What the bit writes leave -/

/-- `t` has frame `f`'s bit at `v`, every other bit of the bitmap as in `s`, and every byte outside the bit's word as in `s` (R76). -/
structure BitWritten (s t : State) (f : Nat) (v : Bool) : Prop where
  bits : ∀ g, g < 32 * s.bmWords → t.bit g = if g = f then v else s.bit g
  outside : SameBytesOutsideWord (s.bitmapWordOf f) s t

theorem BitWritten.setBit {s : State} (h : s.bitmapFits) {f : Nat} (hf : f < s.frameCount) : BitWritten s (s.setBit f) f true :=
  ⟨fun _ hg => State.bit_setBit h (lt_of_lt_of_le hf s.frameCount_le_bits) hg, fun _ ha => State.readByte_setBit ha⟩

theorem BitWritten.clearBit {s : State} (h : s.bitmapFits) {f : Nat} (hf : f < s.frameCount) : BitWritten s (s.clearBit f) f false :=
  ⟨fun _ hg => State.bit_clearBit h (lt_of_lt_of_le hf s.frameCount_le_bits) hg, fun _ ha => State.readByte_clearBit ha⟩

/-- `t` has the bits of the frames from `first` on and below `last` at `v`, every other bit of the bitmap as in `s`, and every byte
outside the bitmap as in `s` (R76). -/
structure RangeWritten (s t : State) (first last : Nat) (v : Bool) : Prop where
  bits : ∀ g, g < 32 * s.bmWords → t.bit g = if first ≤ g ∧ g < last then v else s.bit g
  outside : ∀ a, ¬ s.inBitmap a → t.mem.readByte a = s.mem.readByte a

theorem RangeWritten.of_empty (s : State) {first last : Nat} (h : last ≤ first) (v : Bool) : RangeWritten s s first last v :=
  ⟨fun _ _ => (if_neg (by omega)).symm, fun _ _ => rfl⟩

theorem RangeWritten.setBits {s : State} (h : s.bitmapFits) {first n : Nat} (hn : first + n ≤ s.frameCount) :
    RangeWritten s (s.setBits first n) first (first + n) true :=
  have hbits := le_trans hn s.frameCount_le_bits
  ⟨fun _ hg => State.bit_setBits h hbits hg, fun _ ha => State.readByte_setBits h hbits ha⟩

theorem RangeWritten.clearBits {s : State} (h : s.bitmapFits) {first n : Nat} (hn : first + n ≤ s.frameCount) :
    RangeWritten s (s.clearBits first n) first (first + n) false :=
  have hbits := le_trans hn s.frameCount_le_bits
  ⟨fun _ hg => State.bit_clearBits h hbits hg, fun _ ha => State.readByte_clearBits h hbits ha⟩

/-- A range given by its end, as the clipping at NFRAMES gives it: it is empty where it starts past that end (R80, R81). -/
theorem RangeWritten.upTo {s : State} {write : Nat → State} {first last : Nat} {v : Bool} (h0 : write 0 = s)
    (h : ∀ n, first + n ≤ s.frameCount → RangeWritten s (write n) first (first + n) v) (hlast : last ≤ s.frameCount) :
    RangeWritten s (write (last - first)) first last v := by
  rcases le_total last first with hempty | hle
  · rw [Nat.sub_eq_zero_of_le hempty, h0]
    exact .of_empty s hempty v
  · simpa only [Nat.add_sub_cancel' hle] using h (last - first) (by omega)

/-! ### Commands that check the extent first -/

/-- The fatal fault of a failed extent check, with everything it writes spelled out (R44, R109). -/
theorem State.raiseExtent_eq (s : State) (word : Word) : s.raiseExtent word = s.fatallyEnded 2#32 s.bmbase word :=
  s.raiseFatal_invalid s.bmbase word

/-- A command that first checks the bitmap's extent: where the check fails it faults on BMBASE (R44). -/
theorem exec_of_extent_check {i : Instr} {s : State} (body : State → State) (hready : s.halted = false) (himm : i.imm = 0#12)
    (hi : exec i s = runUnlessHalted s fun s => if s.bmCheck then body s else s.raiseExtent i.word) :
    (s.bitmapFits → exec i s = .next (body s)) ∧
    (¬ s.bitmapFits → exec i s = .next (s.fatallyEnded 2#32 s.bmbase (i.opc.zeroExtend 32))) := by
  rw [hi, runUnlessHalted_of_ready hready, State.raiseExtent_eq, word_of_imm_eq_zero himm]
  exact ⟨fun h => congrArg _ (if_pos (s.bmCheck_iff.mpr h)), fun h => congrArg _ (if_neg fun hc => h (s.bmCheck_iff.mp hc))⟩

/-- Settles O21: what filling the bitmap writes, word by word and outside it. -/
theorem bmSetallMarksEveryFrame : Obligations.BmSetallMarksEveryFrame := by
  intro s hready
  obtain ⟨hfills, hextent⟩ := exec_of_extent_check (i := .bmSetall) (fun s => (s.fillBitmap s.bmWords).finish .ok) hready rfl rfl
  refine ⟨fun hfit => ⟨_, hfills hfit, ?changes, fun i hi => ?words, fun a ha => ?frame⟩, hextent⟩
  case changes => exact congrArg (State.finish · .ok) (s.fillBitmap_eq s.bmWords)
  case words => exact State.read32_fillBitmap hfit le_rfl hi
  case frame => exact State.readByte_fillBitmap hfit le_rfl ha

/-- Settles O22: the range that is cleared ends below NFRAMES by the clipping. -/
theorem bmFreeregFreesWholeFrames : Obligations.BmFreeregFreesWholeFrames := by
  intro base len s hready first last
  obtain ⟨hclears, hextent⟩ := exec_of_extent_check (i := .bmFreereg base len) (fun s =>
    let count := min (regionEnd base len / pageSize) s.frameCount - first
    ((s.clearBits first count).setRes0 (BitVec.ofNat 32 count)).finish .ok) hready rfl rfl
  refine ⟨fun hfit => ?cleared, hextent⟩
  have hwritten : RangeWritten s (s.clearBits first (last - first)) first last false :=
    .upTo rfl (fun _ => .clearBits hfit) (min_le_right _ _)
  exact ⟨_, hclears hfit,
    congrArg (fun u : State => (u.setRes0 (BitVec.ofNat 32 (last - first))).finish .ok) (s.clearBits_eq first (last - first)),
    hwritten.bits, hwritten.outside⟩

/-- Settles O23, by whether the length is 0; the range that is set ends below NFRAMES by the clipping. -/
theorem bmRsvregReservesTouchedFrames : Obligations.BmRsvregReservesTouchedFrames := by
  intro base len s hready first last
  obtain ⟨hsets, hextent⟩ := exec_of_extent_check (i := .bmRsvreg base len) (fun s =>
    let count := min ((regionEnd base len + (pageSize - 1)) / pageSize) s.frameCount - first
    if len = 0#32 then (s.setRes0 0#32).finish .ok
    else ((s.setBits first count).setRes0 (BitVec.ofNat 32 count)).finish .ok) hready rfl rfl
  refine ⟨fun hfit hlen => ?empty, fun hfit hlen => ?set, hextent⟩
  case empty => exact (hsets hfit).trans (congrArg _ (if_pos hlen))
  case set =>
    have hwritten : RangeWritten s (s.setBits first (last - first)) first last true :=
      .upTo rfl (fun _ => .setBits hfit) (min_le_right _ _)
    exact ⟨_, (hsets hfit).trans (congrArg _ (if_neg hlen)),
      congrArg (fun u : State => (u.setRes0 (BitVec.ofNat 32 (last - first))).finish .ok) (s.setBits_eq first (last - first)),
      hwritten.bits, hwritten.outside⟩

/-! ### Commands on one frame -/

/-- A command on the frame at `addr`, in the order of its checks: alignment, the frame's number, the bitmap's extent (R82 to R84, R111). -/
theorem exec_of_frame_checks {i : Instr} {s : State} {addr : Word} (beyond body : State → State) (hready : s.halted = false)
    (himm : i.imm = 0#12)
    (hi : exec i s = runUnlessHalted s fun s =>
      if aligned4K addr then
        if s.frameCount ≤ frameIndex addr then beyond s else if s.bmCheck then body s else s.raiseExtent i.word
      else s.raiseFatal .alignmentViolation addr i.word) :
    (addr.extractLsb' 0 12 ≠ 0#12 → exec i s = .next (s.fatallyEnded 1#32 addr (i.opc.zeroExtend 32))) ∧
    (addr.extractLsb' 0 12 = 0#12 → s.nframes.toNat ≤ frameIndex addr → exec i s = .next (beyond s)) ∧
    (addr.extractLsb' 0 12 = 0#12 → frameIndex addr < s.nframes.toNat → ¬ s.bitmapFits →
      exec i s = .next (s.fatallyEnded 2#32 s.bmbase (i.opc.zeroExtend 32))) ∧
    (addr.extractLsb' 0 12 = 0#12 → frameIndex addr < s.nframes.toNat → s.bitmapFits → exec i s = .next (body s)) := by
  rw [hi, runUnlessHalted_of_ready hready, State.raiseExtent_eq, State.raiseFatal_alignment, word_of_imm_eq_zero himm]
  simp only [aligned4K_iff, State.bmCheck_iff]
  refine ⟨fun ha => ?misaligned, fun ha hge => ?beyond, fun ha hlt hbad => ?extent, fun ha hlt hfit => ?body⟩
  case misaligned => rw [if_neg ha]
  case beyond => rw [if_pos ha]; exact congrArg _ (if_pos hge)
  case extent => rw [if_pos ha, if_neg hbad]; exact congrArg _ (if_neg (not_le.mpr hlt))
  case body => rw [if_pos ha, if_pos hfit]; exact congrArg _ (if_neg (not_le.mpr hlt))

/-- Settles O24: a frame that does not exist reads 1, before the extent check. -/
theorem bmTestReadsTheFramesBit : Obligations.BmTestReadsTheFramesBit := fun addr _ hready =>
  exec_of_frame_checks (fun s => (s.setRes0 1#32).finish .ok) (fun s => (s.setRes0 (bitWord (s.bit (frameIndex addr)))).finish .ok)
    hready rfl rfl

/-- A command that writes one frame's bit: after the checks RES0 is the bit before, and memory is as the write leaves it (R83, R84). -/
theorem exec_of_bit_command {i : Instr} {s : State} {addr : Word} (write : State → Nat → State) {v : Bool} (hready : s.halted = false)
    (himm : i.imm = 0#12) (hmem : ∀ f, write s f = { s with mem := (write s f).mem })
    (hwrite : ∀ {f}, s.bitmapFits → f < s.frameCount → BitWritten s (write s f) f v)
    (hi : exec i s = runUnlessHalted s fun s =>
      if aligned4K addr then
        if s.frameCount ≤ frameIndex addr then s.raiseFatal .invalidOperation addr i.word
        else if s.bmCheck then ((write s (frameIndex addr)).setRes0 (bitWord (s.bit (frameIndex addr)))).finish .ok
        else s.raiseExtent i.word
      else s.raiseFatal .alignmentViolation addr i.word) :
    let f := frameIndex addr
    (addr.extractLsb' 0 12 ≠ 0#12 → exec i s = .next (s.fatallyEnded 1#32 addr (i.opc.zeroExtend 32))) ∧
    (addr.extractLsb' 0 12 = 0#12 → s.nframes.toNat ≤ f → exec i s = .next (s.fatallyEnded 2#32 addr (i.opc.zeroExtend 32))) ∧
    (addr.extractLsb' 0 12 = 0#12 → f < s.nframes.toNat → ¬ s.bitmapFits →
      exec i s = .next (s.fatallyEnded 2#32 s.bmbase (i.opc.zeroExtend 32))) ∧
    (addr.extractLsb' 0 12 = 0#12 → f < s.nframes.toNat → s.bitmapFits → ∃ t, exec i s = .next t ∧
      t = { s with res0 := bitWord (s.bit f), mem := t.mem }.ended 0#32 ∧
      (∀ g, g < 32 * s.bmWords → t.bit g = if g = f then v else s.bit g) ∧ SameBytesOutsideWord (s.bitmapWordOf f) s t) := by
  obtain ⟨hmisaligned, hbeyond, hextent, hwrites⟩ := exec_of_frame_checks
    (fun s => s.raiseFatal .invalidOperation addr i.word)
    (fun s => ((write s (frameIndex addr)).setRes0 (bitWord (s.bit (frameIndex addr)))).finish .ok) hready himm hi
  rw [State.raiseFatal_invalid, word_of_imm_eq_zero himm] at hbeyond
  refine ⟨hmisaligned, hbeyond, hextent, fun ha hlt hfit => ⟨_, hwrites ha hlt hfit, ?changes, ?bits, ?frame⟩⟩
  case changes =>
    exact congrArg (fun u : State => (u.setRes0 (bitWord (s.bit (frameIndex addr)))).finish .ok) (hmem (frameIndex addr))
  case bits => exact (hwrite hfit hlt).bits
  case frame => exact (hwrite hfit hlt).outside

/-- Settles O25: the bit write is `setbit`. -/
theorem bmMarkSetsOneBit : Obligations.BmMarkSetsOneBit := fun _ _ hready =>
  exec_of_bit_command State.setBit hready rfl (fun _ => rfl) (fun hfit hf => .setBit hfit hf) rfl

/-- Settles O26: the bit write is `clrbit`. -/
theorem bmFreeClearsOneBit : Obligations.BmFreeClearsOneBit := fun _ _ hready =>
  exec_of_bit_command State.clearBit hready rfl (fun _ => rfl) (fun hfit hf => .clearBit hfit hf) rfl

/-! ### Commands that search -/

/-- How a searching command ends: OUT_OF_PHYS with RES0 = 0 where it found nothing; otherwise, in the state that `take` leaves, with the
address of the frame it found (R85 to R88). -/
def State.endSearch (s : State) (found : Option Nat) (take : Nat → State) : State :=
  match found with
  | none => (s.setRes0 0#32).finish .outOfPhys
  | some f => ((take f).setRes0 (frameAddr f)).finish .ok

/-- A command that checks the extent and then searches, by what the search answers (R85 to R88). -/
theorem exec_of_search {i : Instr} {s : State} (search : State → Option Nat) (take : State → Nat → State) (hready : s.halted = false)
    (himm : i.imm = 0#12)
    (hi : exec i s = runUnlessHalted s fun s => if s.bmCheck then s.endSearch (search s) (take s) else s.raiseExtent i.word) :
    (∀ f, s.bitmapFits → search s = some f → exec i s = .next (((take s f).setRes0 (frameAddr f)).finish .ok)) ∧
    (s.bitmapFits → search s = none → exec i s = .next ({ s with res0 := 0#32 }.ended 1#32)) ∧
    (¬ s.bitmapFits → exec i s = .next (s.fatallyEnded 2#32 s.bmbase (i.opc.zeroExtend 32))) := by
  obtain ⟨hends, hextent⟩ := exec_of_extent_check (fun s => s.endSearch (search s) (take s)) hready himm hi
  exact ⟨fun f hfit hsome => (hends hfit).trans (congrArg (fun o => Host.Outcome.next (s.endSearch o (take s))) hsome),
    fun hfit hnone => (hends hfit).trans (congrArg (fun o => Host.Outcome.next (s.endSearch o (take s))) hnone), hextent⟩

/-- The run search finds nothing for a count of 0 or where there is no run (R78). -/
theorem State.firstRun_eq_none {s : State} {count : Word} (h : count = 0#32 ∨ ∀ f, ¬ s.freeRun count.toNat f) :
    s.firstRun count.toNat = none := by
  rcases h with rfl | hno
  · exact s.firstRun_zero
  · exact State.firstRun_of_none hno

/-- Settles O27: the single-frame search, with nothing taken. -/
theorem bmFindAnswersTheLeastFreeFrame : Obligations.BmFindAnswersTheLeastFreeFrame := by
  intro s hready
  obtain ⟨hfound, hnone, hextent⟩ := exec_of_search (i := .bmFind) State.firstFree (fun s _ => s) hready rfl rfl
  exact ⟨fun f hfit hleast => hfound f hfit (State.firstFree_of_leastFree hleast),
    fun hfit hno => hnone hfit (State.firstFree_of_noFree hno), hextent⟩

/-- Settles O28: the run search, with nothing taken. -/
theorem bmFindrunAnswersTheLowestRun : Obligations.BmFindrunAnswersTheLowestRun := by
  intro count s hready
  obtain ⟨hfound, hnone, hextent⟩ := exec_of_search (i := .bmFindrun count) (State.firstRun · count.toNat) (fun s _ => s) hready rfl rfl
  exact ⟨fun f hfit hcount hleast => hfound f hfit (State.firstRun_of_leastRun (BitVec.toNat_ne_iff_ne.mpr hcount) hleast),
    fun hfit hno => hnone hfit (State.firstRun_eq_none hno), hextent⟩

/-- BM.ALLOC by what the single-frame search answers (R87). -/
theorem exec_bmAlloc {s : State} (hready : s.halted = false) :
    (∀ f, s.bitmapFits → s.leastFree f → exec .bmAlloc s = .next (((s.setBit f).setRes0 (frameAddr f)).finish .ok)) ∧
    (s.bitmapFits → s.noFree → exec .bmAlloc s = .next ({ s with res0 := 0#32 }.ended 1#32)) ∧
    (¬ s.bitmapFits → exec .bmAlloc s = .next (s.fatallyEnded 2#32 s.bmbase 0x18#32)) := by
  obtain ⟨hfound, hnone, hextent⟩ := exec_of_search (i := .bmAlloc) State.firstFree State.setBit hready rfl rfl
  exact ⟨fun f hfit hleast => hfound f hfit (State.firstFree_of_leastFree hleast),
    fun hfit hno => hnone hfit (State.firstFree_of_noFree hno), hextent⟩

/-- Settles O29: the frame that BM.ALLOC takes has its bit set. -/
theorem bmAllocTakesTheLeastFreeFrame : Obligations.BmAllocTakesTheLeastFreeFrame := by
  intro s hready
  obtain ⟨htakes, hfull, hextent⟩ := exec_bmAlloc hready
  refine ⟨fun f hfit hleast => ?taken, hfull, hextent⟩
  have ⟨hexists, _⟩ := hleast
  have hwritten := BitWritten.setBit hfit hexists
  exact ⟨_, htakes f hfit hleast, rfl, hwritten.bits, hwritten.outside⟩

/-- Settles O30: the run search; the run that it found has its bits set. -/
theorem bmAllocrunTakesTheLowestRun : Obligations.BmAllocrunTakesTheLowestRun := by
  intro count s hready
  obtain ⟨hfound, hnone, hextent⟩ :=
    exec_of_search (i := .bmAllocrun count) (State.firstRun · count.toNat) (fun s f => s.setBits f count.toNat) hready rfl rfl
  refine ⟨fun f hfit hcount hleast => ?taken, fun hfit hno => hnone hfit (State.firstRun_eq_none hno), hextent⟩
  have hfirst := State.firstRun_of_leastRun (BitVec.toNat_ne_iff_ne.mpr hcount) hleast
  have hwritten := RangeWritten.setBits hfit (State.le_of_firstRun hfirst)
  exact ⟨_, hfound f hfit hfirst,
    congrArg (fun u : State => (u.setRes0 (frameAddr f)).finish .ok) (s.setBits_eq f count.toNat), hwritten.bits, hwritten.outside⟩

/-! ### Allocations that end OK -/

/-- BM.ALLOC ends OK only where the bitmap fits and a frame is free, and then it has taken the least one (R87). -/
theorem eq_of_bmAlloc_ok {s t : State} (hready : s.halted = false) (ht : exec .bmAlloc s = .next t)
    (hok : statusResult t.status = 0#4) :
    s.bitmapFits ∧ ∃ f, s.leastFree f ∧ t = ((s.setBit f).setRes0 (frameAddr f)).finish .ok := by
  obtain ⟨htakes, hfull, hextent⟩ := exec_bmAlloc hready
  by_cases hfit : s.bitmapFits
  · rcases s.firstFree_cases with ⟨f, -, hleast⟩ | ⟨-, hno⟩
    · exact ⟨hfit, f, hleast, Host.Outcome.next.inj (ht.symm.trans (htakes f hfit hleast))⟩
    · obtain rfl := Host.Outcome.next.inj (ht.symm.trans (hfull hfit hno))
      exact absurd ((statusResult_withResult s.status .outOfPhys).symm.trans hok) (by decide)
  · obtain rfl := Host.Outcome.next.inj (ht.symm.trans (hextent hfit))
    rw [← State.raiseExtent_eq] at hok
    exact absurd ((statusResult_withFatal s.status .invalidOperation).symm.trans hok) (by decide)

/-- A frame of a legal state has an address of its own (R23, R76). -/
theorem State.Inv.lt_maxFrames {s : State} (h : s.Inv) {f : Nat} (hf : f < s.frameCount) : f < 1048576 := by
  obtain ⟨-, -, -, hnframes, -⟩ := h
  exact lt_of_lt_of_le hf hnframes

/-- Settles O31: the frame is the least free one, whose bit BM.ALLOC sets; BM.FREE of its address then passes every check (O26). -/
theorem allocatedFrameIsUsedUntilFreed : Obligations.AllocatedFrameIsUsedUntilFreed := by
  intro s t hinv hready ht hok
  obtain ⟨hfit, f, ⟨hexists, hfree, -⟩, rfl⟩ := eq_of_bmAlloc_ok hready ht hok
  have hlt := hinv.lt_maxFrames hexists
  have hindex : (frameAddr f >>> 12).toNat = f := frameIndex_frameAddr hlt
  have hbits := lt_of_lt_of_le hexists s.frameCount_le_bits
  have hused : (s.setBit f).bit f = true := ((BitWritten.setBit hfit hexists).bits f hbits).trans (if_pos rfl)
  have hready' : (((s.setBit f).setRes0 (frameAddr f)).finish .ok).halted = false := by simpa using hready
  obtain ⟨-, -, -, hclears⟩ := bmFreeClearsOneBit (frameAddr f) _ hready'
  rw [hindex] at hclears
  obtain ⟨u, hu, hchanges, hcleared, -⟩ := hclears (frameAddr_aligned hlt) hexists hfit
  show s.bit (frameAddr f >>> 12).toNat = false ∧ (s.setBit f).bit (frameAddr f >>> 12).toNat = true ∧ _
  refine ⟨by rw [hindex, hfree], by rw [hindex, hused], u, hu, ?ok, ?wasUsed, ?isFree⟩
  case ok => rw [hchanges]; exact statusResult_withResult _ .ok
  case wasUsed => rw [hchanges]; exact if_pos hused
  case isFree => exact (congrArg u.bit hindex).trans ((hcleared f hbits).trans (if_pos rfl))

/-- Settles O32: below the first frame all bits were 1, and its own is 1 after, so the second frame lies above it. -/
theorem successiveAllocationsAscend : Obligations.SuccessiveAllocationsAscend := by
  intro s t u hinv hready ht hok hu hok'
  obtain ⟨hfit, f, ⟨hexists, -, hbelow⟩, rfl⟩ := eq_of_bmAlloc_ok hready ht hok
  have hready' : (((s.setBit f).setRes0 (frameAddr f)).finish .ok).halted = false := by simpa using hready
  obtain ⟨-, g, ⟨hexists', hfree, -⟩, rfl⟩ := eq_of_bmAlloc_ok hready' hu hok'
  have hexists' : g < s.frameCount := hexists'
  have hbits := (BitWritten.setBit hfit hexists).bits g (lt_of_lt_of_le hexists' s.frameCount_le_bits)
  have hfree : (s.setBit f).bit g = false := hfree
  have hlt : f < g := by
    rcases lt_trichotomy f g with hlt | rfl | hgt
    · exact hlt
    · simp [hbits] at hfree
    · simp [hbits, hbelow g hgt] at hfree
  show (frameAddr f).toNat < (frameAddr g).toNat
  rw [frameAddr_toNat (hinv.lt_maxFrames hexists), frameAddr_toNat (hinv.lt_maxFrames hexists')]
  omega

/-! ### Recoverable outcomes -/

/-- Where the command that ran in `s` and left `t` ended OUT_OF_PHYS, NOT_PRESENT or ALREADY_MAPPED, it wrote no memory and no TLB entry and
left RES0 = 0 (R107). -/
def State.QuietIfRecoverable (s t : State) : Prop :=
  (statusResult t.status = 1#4 ∨ statusResult t.status = 2#4 ∨ statusResult t.status = 3#4) →
    SameBytes s t ∧ t.tlb = s.tlb ∧ t.res0 = 0#32

theorem State.QuietIfRecoverable.ok (s u : State) : s.QuietIfRecoverable (u.finish .ok) := by
  simp [State.QuietIfRecoverable, resultNumber]

theorem State.QuietIfRecoverable.fatal (s u : State) (cause : FaultCause) (info word : Word) :
    s.QuietIfRecoverable (u.raiseFatal cause info word) := by
  simp [State.QuietIfRecoverable]

/-- A command that reports its outcome in RES0, RES1 and STATUS alone. -/
theorem State.QuietIfRecoverable.unchanged (s : State) (w : Word) (code : ResultCode) :
    s.QuietIfRecoverable (((s.setRes0 0#32).setRes1 w).finish code) := fun _ => ⟨fun _ => rfl, rfl, rfl⟩

/-- A check in front of a command: where it fails, the command faults (R111). -/
theorem State.QuietIfRecoverable.checked {s t u : State} {p : Prop} [Decidable p] {cause : FaultCause} {info word : Word}
    (ht : s.QuietIfRecoverable t) : s.QuietIfRecoverable (if p then t else u.raiseFatal cause info word) := by
  split
  · exact ht
  · exact .fatal s u cause info word

/-- A check in front of a command, written the other way round. -/
theorem State.QuietIfRecoverable.checkedNot {s t u : State} {p : Prop} [Decidable p] {cause : FaultCause} {info word : Word}
    (ht : s.QuietIfRecoverable t) : s.QuietIfRecoverable (if p then u.raiseFatal cause info word else t) := by
  split
  · exact .fatal s u cause info word
  · exact ht

/-- A search that found nothing writes RES0 and STATUS alone; one that found a frame ends OK. -/
theorem State.QuietIfRecoverable.endSearch (s : State) (found : Option Nat) (take : Nat → State) :
    s.QuietIfRecoverable (s.endSearch found take) := by
  cases found with
  | none => exact fun _ => ⟨fun _ => rfl, rfl, rfl⟩
  | some f => exact .ok s _

theorem quiet_of_ready {s t : State} {body : State → State} (hready : s.halted = false) (ht : runUnlessHalted s body = .next t)
    (hb : s.QuietIfRecoverable (body s)) : s.QuietIfRecoverable t := by
  obtain rfl : body s = t := Host.Outcome.next.inj ((runUnlessHalted_of_ready hready body).symm.trans ht)
  exact hb

/-- Memories in which the word at `pa` reads alike agree on its bytes (R39). -/
theorem Memory.readByte_of_read32_eq {m m' : Memory} {pa a : Word} (h : m'.read32 pa = m.read32 pa) (ha : inWord pa a) :
    m'.readByte a = m.readByte a := by
  obtain ⟨-, h0, h1, h2, h3⟩ := wordsAreLittleEndian m pa
  obtain ⟨-, h0', h1', h2', h3'⟩ := wordsAreLittleEndian m' pa
  rcases ha with rfl | rfl | rfl | rfl
  · rw [h0, h0', h]
  · rw [h1, h1', h]
  · rw [h2, h2', h]
  · rw [h3, h3', h]

/-- A word whose bit is clear stays as it is when the bit is set and cleared again. -/
theorem set_clear_bitMask {w : Word} {f : Nat} (h : w.getLsbD (f % 32) = false) : (w ||| bitMaskOf f) &&& ~~~bitMaskOf f = w := by
  apply BitVec.eq_of_getLsbD_eq
  intro j hj
  rw [or_and_not_self, getLsbD_and_not_bitMask w f j hj]
  split
  · next e => rw [e, h]
  · rfl

/-- A free frame's bit set and cleared again leaves every byte of memory as it was (R100). -/
theorem State.sameBytes_clearBit_setBit {s : State} {f : Nat} (h : s.bit f = false) : SameBytes s ((s.setBit f).clearBit f) := by
  intro a
  by_cases ha : inWord (s.bitWordAddr f) a
  · refine Memory.readByte_of_read32_eq ?_ ha
    calc ((s.setBit f).clearBit f).mem.read32 (s.bitWordAddr f)
        = (s.setBit f).mem.read32 (s.bitWordAddr f) &&& ~~~bitMaskOf f := Memory.read32_write32_same _ _ _
      _ = (s.mem.read32 (s.bitWordAddr f) ||| bitMaskOf f) &&& ~~~bitMaskOf f :=
        congrArg (· &&& _) (Memory.read32_write32_same _ _ _)
      _ = s.mem.read32 (s.bitWordAddr f) := set_clear_bitMask h
  · exact (State.readByte_clearBit (s := s.setBit f) ha).trans (State.readByte_setBit ha)

/-- The frame that the single-frame search answers is free (R77). -/
theorem State.bit_of_firstFree {s : State} {f : Nat} (h : s.firstFree = some f) : s.bit f = false := by
  rcases s.firstFree_cases with ⟨g, hg, -, hfree, -⟩ | ⟨hnone, -⟩
  · obtain rfl : g = f := Option.some.inj (hg.symm.trans h)
    exact hfree
  · exact absurd (hnone.symm.trans h) (by simp)

theorem quiet_walk {va : Word} {s t : State} (hready : s.halted = false) (ht : execWalk va s = .next t) : s.QuietIfRecoverable t := by
  refine quiet_of_ready hready ht ?_
  split
  · exact .unchanged s _ _
  · exact .unchanged s _ _
  · exact .ok s _

theorem quiet_xlate {va : Word} {s t : State} (hready : s.halted = false) (ht : execXlate va s = .next t) :
    s.QuietIfRecoverable t := by
  refine quiet_of_ready hready ht ?_
  split
  · split
    · exact .ok s _
    · split
      · exact .unchanged s _ _
      · exact .unchanged s _ _
      · exact .ok s _
  · exact .ok s _

theorem quiet_map {phys virt : Word} {s t : State} (hready : s.halted = false) (ht : execMap phys virt s = .next t) :
    s.QuietIfRecoverable t := by
  refine quiet_of_ready hready ht (.checked (.checked ?_))
  split
  · exact .fatal s _ _ _ _
  · exact .unchanged s _ _
  · exact .ok s _

theorem quiet_unmap {virt : Word} {s t : State} (hready : s.halted = false) (ht : execUnmap virt s = .next t) :
    s.QuietIfRecoverable t := by
  refine quiet_of_ready hready ht (.checked ?_)
  split
  · exact .unchanged s _ _
  · exact .unchanged s _ _
  · exact .ok s _

/-- PAGE.ALLOC: where no table frame is free, the data frame's bit, which was 0, is cleared again (R100). -/
theorem quiet_pageAlloc {virt : Word} {s t : State} (hready : s.halted = false) (ht : execPageAlloc virt s = .next t) :
    s.QuietIfRecoverable t := by
  refine quiet_of_ready hready ht (.checked ?_)
  split
  · exact .unchanged s _ _
  · refine .checked ?_
    split
    · exact .unchanged s _ _
    · next f hf =>
      split
      · exact .fatal s _ _ _ _
      · exact fun _ => ⟨State.sameBytes_clearBit_setBit (State.bit_of_firstFree hf), rfl, rfl⟩
      · exact .ok s _

theorem quiet_pageFree {virt : Word} {s t : State} (hready : s.halted = false) (ht : execPageFree virt s = .next t) :
    s.QuietIfRecoverable t := by
  refine quiet_of_ready hready ht (.checked ?_)
  split
  · exact .unchanged s _ _
  · exact .unchanged s _ _
  · exact .checkedNot (.checked (.ok s _))

theorem quiet_writeCR (s : State) (n : Nat) (v word : Word) : s.QuietIfRecoverable (s.writeCR n v word) := by
  unfold State.writeCR
  split
  · exact .ok s _
  · exact .checked (.ok s _)
  · exact .checked (.ok s _)
  · exact .checkedNot (.ok s _)
  · exact .ok s _

/-- Settles O57, by the command: after its checks it ends OK, or it searches, or it walks the tables. -/
theorem recoverableOutcomesWriteNoMemory : Obligations.RecoverableOutcomesWriteNoMemory := by
  intro i s t hready ht
  show s.QuietIfRecoverable t
  unfold exec at ht
  cases i with
  | entGetframe _ | entGetpfn _ | entGetflags _ | entAdd _ _ | entDel _ _ | entTest _ _ | vaDir _ | vaTbl _ | invlpg _ =>
    exact quiet_of_ready hready ht (.ok s _)
  | entPack _ _ | entSetframe _ _ | entLd _ | entSt _ _ | bmSetall | bmFreereg _ _ | pgEnable _ =>
    exact quiet_of_ready hready ht (.checked (.ok s _))
  | bmRsvreg base len =>
    refine quiet_of_ready hready ht (.checked ?_)
    split
    · exact .ok s _
    · exact .ok s _
  | bmTest addr =>
    refine quiet_of_ready hready ht (.checked ?_)
    split
    · exact .ok s _
    · exact .checked (.ok s _)
  | bmMark _ | bmFree _ => exact quiet_of_ready hready ht (.checked (.checkedNot (.checked (.ok s _))))
  | bmFind => exact quiet_of_ready hready ht (.checked (.endSearch s s.firstFree fun _ => s))
  | bmFindrun count => exact quiet_of_ready hready ht (.checked (.endSearch s (s.firstRun count.toNat) fun _ => s))
  | bmAlloc => exact quiet_of_ready hready ht (.checked (.endSearch s s.firstFree s.setBit))
  | bmAllocrun count =>
    exact quiet_of_ready hready ht (.checked (.endSearch s (s.firstRun count.toNat) fun f => s.setBits f count.toNat))
  | walk va => exact quiet_walk hready ht
  | xlate va => exact quiet_xlate hready ht
  | map phys virt => exact quiet_map hready ht
  | unmap virt => exact quiet_unmap hready ht
  | pageAlloc virt => exact quiet_pageAlloc hready ht
  | pageFree virt => exact quiet_pageFree hready ht
  | crRd n =>
    simp only [execCrRd, hready] at ht
    split at ht
    · obtain rfl := Host.Outcome.next.inj ht
      exact .ok s _
    · exact quiet_of_ready hready ht (.fatal s s _ _ _)
  | crWr n value =>
    simp only [execCrWr] at ht
    split at ht
    · exact quiet_of_ready hready ht (quiet_writeCR s _ _ _)
    · exact quiet_of_ready hready ht (.fatal s s _ _ _)

end Sys2Proof.Machine
end

section
/-! Proofs for spec/43_page_walker.md: what each walker command does in a block that is not halted, O34 to O37, O39 to O46; translations and
allocations after a mapping command, O47 to O49. -/

namespace Sys2Proof.Machine

/-! ### PG.ENABLE and VA.* -/

/-- Settles O34: a checked command; CTRL.PG and the empty TLB come with the new directory. -/
theorem pgEnableLoadsTheDirectory : Obligations.PgEnableLoadsTheDirectory := fun dir _ hready =>
  exec_of_alignment_check (fun s => { ({ s with pdbr := dir }.tlbFlush) with ctrl := s.ctrl ||| 1#32 }.finish .ok) hready
    aligned4K_iff (word_of_imm_eq_zero rfl) rfl

/-- Settles O35: two commands that check nothing. -/
theorem vaCommandsSplitTheAddress : Obligations.VaCommandsSplitTheAddress := fun va _ hready =>
  ⟨runUnlessHalted_result hready (dirIndex va), runUnlessHalted_result hready (tblIndex va),
    encode_of_word (i := .vaDir va) (word_of_imm_eq_zero rfl), encode_of_word (i := .vaTbl va) (word_of_imm_eq_zero rfl)⟩

/-! ### Commands that walk the tables -/

/-- How a command that needs a mapped page ends: NOT_PRESENT where the walk stops, otherwise as `through` does with the PTE and its
address (R96, R97, R99, R101). -/
def State.endWalk (s : State) (va : Word) (through : Word → Word → State) : State :=
  match s.walkTables va with
  | .absentAtPde e _ => s.finishNotPresent e
  | .absentAtPte e _ => s.finishNotPresent e
  | .present e pa => through e pa

theorem State.endWalk_of_mapped {s : State} {va : Word} (h : s.mapped va) (through : Word → Word → State) :
    s.endWalk va through = through (s.pteValue va) (s.ptePlace va) := by
  rw [State.endWalk, State.walkTables_of_mapped h]

theorem State.endWalk_of_not_mapped {s : State} {va : Word} (h : ¬ s.mapped va) (through : Word → Word → State) :
    s.endWalk va through = { s with res0 := 0#32, res1 := s.absentEntry va }.ended 2#32 := by
  obtain ⟨pa, hpde | hpte⟩ := State.walkTables_of_not_mapped h
  · rw [State.endWalk, hpde]; rfl
  · rw [State.endWalk, hpte]; rfl

theorem exec_walk {s : State} (hready : s.halted = false) (va : Word) :
    exec (.walk va) s = .next (s.endWalk va fun e _ => ((s.setRes0 (physAddr e va)).setRes1 e).finish .ok) :=
  runUnlessHalted_of_ready hready fun s => s.endWalk va fun e _ => ((s.setRes0 (physAddr e va)).setRes1 e).finish .ok

/-- Settles O36, by whether the walk comes through. -/
theorem walkReadsTheTables : Obligations.WalkReadsTheTables := by
  intro va s hready
  rw [exec_walk hready]
  exact ⟨fun hm => congrArg _ (State.endWalk_of_mapped hm _), fun hm => congrArg _ (State.endWalk_of_not_mapped hm _),
    encode_of_word (i := .walk va) (word_of_imm_eq_zero rfl)⟩

/-- With paging off XLATE is the identity (R97). -/
theorem exec_xlate_of_not_paging {va : Word} {s : State} (hready : s.halted = false) (hoff : s.paging = false) :
    exec (.xlate va) s = .next (((s.setRes0 va).setRes1 0#32).finish .ok) := by
  simp only [exec, execXlate, runUnlessHalted_of_ready hready, hoff, Bool.false_eq_true, if_false]

/-- On a TLB hit XLATE answers from the entry cached (R97). -/
theorem exec_xlate_of_hit {va e : Word} {s : State} (hready : s.halted = false) (hpaging : s.paging = true)
    (hhit : s.tlb.lookup (vpnOf va) = some e) :
    exec (.xlate va) s = .next (((s.setRes0 (physAddr e va)).setRes1 e).finish .ok) := by
  simp only [exec, execXlate, runUnlessHalted_of_ready hready, hpaging, if_true, hhit]

/-- On a TLB miss XLATE walks the tables (R97). -/
theorem exec_xlate_of_miss {va : Word} {s : State} (hready : s.halted = false) (hpaging : s.paging = true)
    (hmiss : s.tlb.lookup (vpnOf va) = none) :
    exec (.xlate va) s = .next (s.endWalk va fun e _ =>
      (((s.tlbMaybeFill (vpnOf va) e).setRes0 (physAddr e va)).setRes1 e).finish .ok) := by
  simp only [exec, execXlate, runUnlessHalted_of_ready hready, hpaging, if_true, hmiss]
  rfl

/-- Settles O37: the three ways past which no fill is drawn. -/
theorem xlateWithoutFill : Obligations.XlateWithoutFill := by
  intro va s hready
  refine ⟨fun hoff => exec_xlate_of_not_paging hready hoff, fun e hpaging hhit => exec_xlate_of_hit hready hpaging hhit,
    fun hpaging hmiss hm => ?stopped⟩
  case stopped => exact (exec_xlate_of_miss hready hpaging hmiss).trans (congrArg _ (State.endWalk_of_not_mapped hm _))

/-! ### UNMAP and PAGE.FREE -/

/-- Settles O42: a checked command that needs a mapped page. -/
theorem unmapClearsPresent : Obligations.UnmapClearsPresent := by
  intro virt s hready
  obtain ⟨hwalks, hmisaligned⟩ := exec_of_alignment_check (i := .unmap virt) (fun s => s.endWalk virt fun e pa =>
    ((((s.memWrite32 pa (clearPresent e)).tlbRemove (vpnOf virt)).setRes0 (frameOf e)).setRes1 (clearPresent e)).finish .ok)
    hready aligned4K_iff (word_of_imm_eq_zero rfl) rfl
  refine ⟨hmisaligned, fun ha hm => ?stopped, fun ha hm =>
    ⟨_, (hwalks ha).trans (congrArg _ (State.endWalk_of_mapped hm _)), rfl, ?written, fun a houtside => ?frame⟩⟩
  case stopped => exact (hwalks ha).trans (congrArg _ (State.endWalk_of_not_mapped hm _))
  case written => exact Memory.read32_write32_same s.mem (s.ptePlace virt) (clearPresent (s.pteValue virt))
  case frame => exact State.readByte_memWrite32 houtside

/-- How PAGE.FREE ends with the PTE `e` at `pa`, in the order of its checks: the frame's number, then the bitmap's extent (R101). -/
def State.freePage (s : State) (virt e pa : Word) : State :=
  if s.frameCount ≤ frameIndex e then s.raiseFatal .invalidOperation (frameOf e) (Instr.pageFree virt).word
  else if s.bmCheck then
    (((((s.clearBit (frameIndex e)).memWrite32 pa (clearPresent e)).tlbRemove (vpnOf virt)).setRes0
      (frameOf e)).setRes1 (clearPresent e)).finish .ok
  else s.raiseExtent (Instr.pageFree virt).word

/-- PAGE.FREE of a page mapped to a frame past NFRAMES (R101). -/
theorem State.freePage_of_beyond {s : State} {e : Word} (hbeyond : s.frameCount ≤ frameIndex e) (virt pa : Word) :
    s.freePage virt e pa = s.fatallyEnded 2#32 (frameOf e) 0x28#32 := by
  rw [State.freePage, if_pos hbeyond, State.raiseFatal_invalid, word_of_imm_eq_zero rfl]
  rfl

/-- PAGE.FREE where the bitmap runs past 2^32 (R101). -/
theorem State.freePage_of_bad_extent {s : State} {e : Word} (hlt : frameIndex e < s.frameCount) (hbad : ¬ s.bitmapFits) (virt pa : Word) :
    s.freePage virt e pa = s.fatallyEnded 2#32 s.bmbase 0x28#32 := by
  rw [State.freePage, if_neg (not_le.mpr hlt), if_neg (hbad ∘ s.bmCheck_iff.mp), State.raiseExtent_eq, word_of_imm_eq_zero rfl]
  rfl

/-- PAGE.FREE of a page whose frame has a bit clears that bit, then P (R101). -/
theorem State.freePage_of_frame {s : State} {e : Word} (hlt : frameIndex e < s.frameCount) (hfit : s.bitmapFits) (virt pa : Word) :
    s.freePage virt e pa = (((((s.clearBit (frameIndex e)).memWrite32 pa (clearPresent e)).tlbRemove (vpnOf virt)).setRes0
      (frameOf e)).setRes1 (clearPresent e)).finish .ok := by
  rw [State.freePage, if_neg (not_le.mpr hlt), if_pos (s.bmCheck_iff.mpr hfit)]

/-- Settles O46: a checked command that needs a mapped page, and then a frame of the bitmap. -/
theorem pageFreeUnmapsAndFrees : Obligations.PageFreeUnmapsAndFrees := by
  intro virt s hready f
  obtain ⟨hwalks, hmisaligned⟩ := exec_of_alignment_check (i := .pageFree virt) (fun s => s.endWalk virt (s.freePage virt))
    hready aligned4K_iff (word_of_imm_eq_zero rfl) rfl
  have hfrees (ha : virt.extractLsb' 0 12 = 0#12) (hm : s.mapped virt) :
      exec (.pageFree virt) s = .next (s.freePage virt (s.pteValue virt) (s.ptePlace virt)) :=
    (hwalks ha).trans (congrArg _ (State.endWalk_of_mapped hm _))
  refine ⟨hmisaligned, fun ha hm => ?stopped, fun ha hm hbeyond => ?beyond, fun ha hm hlt hbad => ?extent,
    fun ha hm hlt hfit => ⟨_, (hfrees ha hm).trans (congrArg _ (State.freePage_of_frame hlt hfit virt _)), rfl, ?written,
      fun a houtside => ?frame⟩⟩
  case stopped => exact (hwalks ha).trans (congrArg _ (State.endWalk_of_not_mapped hm _))
  case beyond => exact (hfrees ha hm).trans (congrArg _ (State.freePage_of_beyond hbeyond virt _))
  case extent => exact (hfrees ha hm).trans (congrArg _ (State.freePage_of_bad_extent hlt hbad virt _))
  case written => exact Memory.read32_write32_same (s.clearBit f).mem (s.ptePlace virt) (clearPresent (s.pteValue virt))
  case frame => exact State.readByte_memWrite32 (s := s.clearBit f) houtside

/-! ### MAP -/

/-- How MAP ends, by what `EnsureTable` answers (R98). -/
def State.mapPage (s : State) (phys virt : Word) : State :=
  match s.ensureTable virt with
  | .badExtent => s.raiseExtent (Instr.map phys virt).word
  | .noFrame => ((s.setRes0 0#32).setRes1 0#32).finish .outOfPhys
  | .ready pde s₁ => (((s₁.setPte pde virt phys).setRes0 (s₁.newPte pde virt phys)).setRes1 pde).finish .ok

/-- MAP in the order of its checks: alignment of the frame, then of the page (R98, R111). -/
theorem exec_map {s : State} (hready : s.halted = false) (phys virt : Word) :
    (phys.extractLsb' 0 12 ≠ 0#12 → exec (.map phys virt) s = .next (s.fatallyEnded 1#32 phys 0x25#32)) ∧
    (phys.extractLsb' 0 12 = 0#12 → virt.extractLsb' 0 12 ≠ 0#12 →
      exec (.map phys virt) s = .next (s.fatallyEnded 1#32 virt 0x25#32)) ∧
    (phys.extractLsb' 0 12 = 0#12 → virt.extractLsb' 0 12 = 0#12 → exec (.map phys virt) s = .next (s.mapPage phys virt)) := by
  have hword : (Instr.map phys virt).word = 0x25#32 := word_of_imm_eq_zero rfl
  obtain ⟨hchecks, hmisaligned⟩ := exec_of_alignment_check (i := .map phys virt) (fun s =>
    if aligned4K virt then s.mapPage phys virt else s.raiseFatal .alignmentViolation virt (Instr.map phys virt).word)
    hready aligned4K_iff hword rfl
  refine ⟨hmisaligned, fun hp hv => ?virt, fun hp hv => ?maps⟩
  case virt =>
    rw [hchecks hp, State.raiseFatal_alignment, hword]
    exact congrArg _ (if_neg (hv ∘ aligned4K_iff.mp))
  case maps => exact (hchecks hp).trans (congrArg _ (if_pos (aligned4K_iff.mpr hv)))

/-- MAP where the table exists: `EnsureTable` answers the PDE as it is (R91, R98). -/
theorem State.mapPage_of_present {s : State} {virt : Word} (h : (s.pdeValue virt).getLsbD 0 = true) (phys : Word) :
    s.mapPage phys virt = (((s.setPte (s.pdeValue virt) virt phys).setRes0 (s.newPte (s.pdeValue virt) virt phys)).setRes1
      (s.pdeValue virt)).finish .ok := by
  rw [State.mapPage, State.ensureTable_of_present h]

/-- Settles O39: `EnsureTable` writes nothing, so only `SetPte` does. -/
theorem mapWritesThePteOfAnExistingTable : Obligations.MapWritesThePteOfAnExistingTable := by
  intro phys virt s hready hp hv hpresent
  obtain ⟨-, -, hmaps⟩ := exec_map hready phys virt
  refine ⟨_, (hmaps hp hv).trans (congrArg _ (State.mapPage_of_present hpresent phys)), rfl, ?written, fun a houtside => ?frame⟩
  case written => exact Memory.read32_write32_same s.mem (s.ptePlace virt) (remapped (s.pteValue virt) phys)
  case frame => exact State.readByte_memWrite32 houtside

/-- Settles O41: the two alignment checks, then the two failures of `EnsureTable`. -/
theorem mapFailsWithoutWriting : Obligations.MapFailsWithoutWriting := by
  intro phys virt s hready
  obtain ⟨hphys, hvirt, hmaps⟩ := exec_map hready phys virt
  refine ⟨hphys, hvirt, fun hp hv habsent hbad => (hmaps hp hv).trans ?extent, fun hp hv habsent hfit hno => (hmaps hp hv).trans ?full⟩
  case extent =>
    rw [State.mapPage, State.ensureTable_of_bad_extent habsent hbad, State.raiseExtent_eq, word_of_imm_eq_zero rfl]
    rfl
  case full => rw [State.mapPage, State.ensureTable_of_noFree habsent hfit hno]; rfl

/-! ### A table created for a page -/

/-- `m` is the memory of `s` after a table is created in frame `f` for the page of `va` and `pte` is stored as the page's entry in it: every
byte is accounted for, whether or not the new table's frame is the directory's (R91, R92). -/
structure TableCreated (s : State) (va : Word) (f : Nat) (pte : Word) (m : Memory) : Prop where
  pteStored : m.read32 (ptePlaceIn (frameAddr f) va) = pte
  pdeStored : ptePlaceIn (frameAddr f) va ≠ s.pdePlace va → m.read32 (s.pdePlace va) = remapped (s.pdeValue va) (frameAddr f)
  zeroed : ∀ a, ¬ inWord (ptePlaceIn (frameAddr f) va) a → ¬ inWord (s.pdePlace va) a → a &&& 0xFFFFF000#32 = frameAddr f →
    m.readByte a = 0#8
  others : ∀ a, ¬ inWord (s.pdePlace va) a → a &&& 0xFFFFF000#32 ≠ frameAddr f → m.readByte a = (s.memWithBit f).readByte a

/-- A store to the PTE in the table just created touches neither another word of that table nor any byte outside it. -/
theorem TableCreated.of_write32 {s : State} {f : Nat} (hf : f < 1048576) (hd : s.pdbr.extractLsb' 0 12 = 0#12) (va pte : Word) :
    TableCreated s va f pte ((s.withTable va f).mem.write32 (ptePlaceIn (frameAddr f) va) pte) where
  pteStored := Memory.read32_write32_same _ _ _
  pdeStored hne := by
    rw [Memory.read32_write32_of_ne _ _ _ _ (ptePlaceIn_aligned (frameAddr_aligned hf) va) (State.pdePlace_aligned hd va) hne.symm,
      State.read32_withTable_pde]
  zeroed a hpte hpde hin := by
    exact (State.readByte_memWrite32 (s := s.withTable va f) hpte).trans ((State.readByte_withTable hf hpde).trans (if_pos hin))
  others a hpde hout := by
    have hpte : ¬ inWord (ptePlaceIn (frameAddr f) va) a := fun ha => hout <|
      (frame_of_inWord (ptePlaceIn_aligned (frameAddr_aligned hf) va) ha).trans (ptePlaceIn_frame (frameAddr_aligned hf) va)
    exact (State.readByte_memWrite32 (s := s.withTable va f) hpte).trans ((State.readByte_withTable hf hpde).trans (if_neg hout))

/-- A new PDE leads to the table that it names (R47). -/
theorem pteAddr_remapped {f : Nat} (hf : f < 1048576) (old va : Word) :
    pteAddr (remapped old (frameAddr f)) va = ptePlaceIn (frameAddr f) va := by
  rw [pteAddr_eq, remapped_frame old (frameAddr_aligned hf)]

/-- The PTE written into the table just created: its old flags are 0, but where the table's frame is the directory's and the PTE is the PDE
that was written last (R92). -/
theorem State.newPte_withTable {s : State} {f : Nat} (hf : f < 1048576) (hd : s.pdbr.extractLsb' 0 12 = 0#12) (va frame : Word) :
    (s.withTable va f).newPte (remapped (s.pdeValue va) (frameAddr f)) va frame =
      remapped (if ptePlaceIn (frameAddr f) va = s.pdePlace va then remapped (s.pdeValue va) (frameAddr f) else 0#32) frame := by
  have hpte := ptePlaceIn_aligned (frameAddr_aligned hf) va
  rw [State.newPte, pteAddr_remapped hf, mapEntry_eq, State.memRead32, State.read32_withTable hf hd hpte,
    if_pos (ptePlaceIn_frame (frameAddr_aligned hf) va)]

/-- `SetPte` in the table just created (R92). -/
theorem State.setPte_withTable {s : State} {f : Nat} (hf : f < 1048576) (hd : s.pdbr.extractLsb' 0 12 = 0#12) (va frame : Word) :
    ∃ m, (s.withTable va f).setPte (remapped (s.pdeValue va) (frameAddr f)) va frame = { s with mem := m }.tlbRemove (vpnOf va) ∧
      TableCreated s va f
        (remapped (if ptePlaceIn (frameAddr f) va = s.pdePlace va then remapped (s.pdeValue va) (frameAddr f) else 0#32) frame) m := by
  refine ⟨_, ?_, .of_write32 hf hd va _⟩
  rw [State.setPte, State.newPte_withTable hf hd, pteAddr_remapped hf, State.withTable_eq]
  rfl

theorem State.Inv.pdbr_aligned {s : State} (h : s.Inv) : s.pdbr.extractLsb' 0 12 = 0#12 := by
  obtain ⟨-, hpdbr, -⟩ := h
  exact aligned4K_iff.mp hpdbr

theorem State.Inv.bmbase_aligned {s : State} (h : s.Inv) : s.bmbase.extractLsb' 0 2 = 0#2 := by
  obtain ⟨-, -, hbmbase, -⟩ := h
  exact aligned4_iff.mp hbmbase

/-- Settles O40: `EnsureTable` creates the table in the least free frame, then `SetPte` writes the PTE in it. -/
theorem mapCreatesTheTable : Obligations.MapCreatesTheTable := by
  intro phys virt s f hinv hready hp hv habsent hfit hleast table pde pt pte
  have ⟨hexists, _⟩ := hleast
  have hf := hinv.lt_maxFrames hexists
  obtain ⟨-, -, hmaps⟩ := exec_map hready phys virt
  obtain ⟨m, hset, hcreated⟩ := State.setPte_withTable hf hinv.pdbr_aligned virt phys
  have hended : s.mapPage phys virt = ((({ s with mem := m }.tlbRemove (vpnOf virt)).setRes0 pte).setRes1 pde).finish .ok := by
    rw [State.mapPage, State.ensureTable_of_leastFree habsent hfit hleast]
    dsimp only
    rw [hset, State.newPte_withTable hf hinv.pdbr_aligned]
    rfl
  exact ⟨_, (hmaps hp hv).trans (congrArg _ hended), rfl, hcreated.pteStored, hcreated.pdeStored, hcreated.zeroed, hcreated.others⟩

/-! ### PAGE.ALLOC -/

/-- How PAGE.ALLOC ends once the page is known to be unmapped and the frame `f` is taken for it: what `EnsureTable` answers when the
frame's bit is set already (R100). -/
def State.allocPage (s : State) (virt : Word) (f : Nat) : State :=
  match (s.setBit f).ensureTable virt with
  | .badExtent => (s.setBit f).raiseExtent (Instr.pageAlloc virt).word
  | .noFrame => ((((s.setBit f).clearBit f).setRes0 0#32).setRes1 0#32).finish .outOfPhys
  | .ready pde s₁ =>
    (((s₁.setPte pde virt (frameAddr f)).setRes0 (frameAddr f)).setRes1 (s₁.newPte pde virt (frameAddr f))).finish .ok

/-- PAGE.ALLOC's search for a frame (R100). -/
def State.seekPage (s : State) (virt : Word) : State :=
  if s.bmCheck then
    match s.firstFree with
    | none => ((s.setRes0 0#32).setRes1 0#32).finish .outOfPhys
    | some f => s.allocPage virt f
  else s.raiseExtent (Instr.pageAlloc virt).word

/-- PAGE.ALLOC by what the walk answers (R100). -/
def State.seekUnlessMapped (s : State) (virt : Word) : State :=
  match s.walkTables virt with
  | .present e _ => ((s.setRes0 0#32).setRes1 e).finish .alreadyMapped
  | _ => s.seekPage virt

theorem State.seekUnlessMapped_of_mapped {s : State} {virt : Word} (h : s.mapped virt) :
    s.seekUnlessMapped virt = { s with res0 := 0#32, res1 := s.pteValue virt }.ended 3#32 := by
  rw [State.seekUnlessMapped, State.walkTables_of_mapped h]
  rfl

theorem State.seekUnlessMapped_of_not_mapped {s : State} {virt : Word} (h : ¬ s.mapped virt) :
    s.seekUnlessMapped virt = s.seekPage virt := by
  obtain ⟨pa, hpde | hpte⟩ := State.walkTables_of_not_mapped h
  · rw [State.seekUnlessMapped, hpde]
  · rw [State.seekUnlessMapped, hpte]

theorem State.seekPage_of_bad_extent {s : State} (hbad : ¬ s.bitmapFits) (virt : Word) :
    s.seekPage virt = s.fatallyEnded 2#32 s.bmbase 0x27#32 := by
  rw [State.seekPage, if_neg (hbad ∘ s.bmCheck_iff.mp), State.raiseExtent_eq, word_of_imm_eq_zero rfl]
  rfl

theorem State.seekPage_of_noFree {s : State} (hfit : s.bitmapFits) (hno : s.noFree) (virt : Word) :
    s.seekPage virt = { s with res0 := 0#32, res1 := 0#32 }.ended 1#32 := by
  rw [State.seekPage, if_pos (s.bmCheck_iff.mpr hfit), State.firstFree_of_noFree hno]
  rfl

theorem State.seekPage_of_leastFree {s : State} {f : Nat} (hfit : s.bitmapFits) (hleast : s.leastFree f) (virt : Word) :
    s.seekPage virt = s.allocPage virt f := by
  rw [State.seekPage, if_pos (s.bmCheck_iff.mpr hfit), State.firstFree_of_leastFree hleast]

/-- PAGE.ALLOC in the order of its first checks: alignment, then the page unmapped (R100, R111). -/
theorem exec_pageAlloc {s : State} (hready : s.halted = false) (virt : Word) :
    (virt.extractLsb' 0 12 ≠ 0#12 → exec (.pageAlloc virt) s = .next (s.fatallyEnded 1#32 virt 0x27#32)) ∧
    (virt.extractLsb' 0 12 = 0#12 → s.mapped virt →
      exec (.pageAlloc virt) s = .next ({ s with res0 := 0#32, res1 := s.pteValue virt }.ended 3#32)) ∧
    (virt.extractLsb' 0 12 = 0#12 → ¬ s.mapped virt → exec (.pageAlloc virt) s = .next (s.seekPage virt)) := by
  obtain ⟨hwalks, hmisaligned⟩ := exec_of_alignment_check (i := .pageAlloc virt) (fun s => s.seekUnlessMapped virt) hready
    aligned4K_iff (word_of_imm_eq_zero rfl) rfl
  exact ⟨hmisaligned, fun ha hm => (hwalks ha).trans (congrArg _ (State.seekUnlessMapped_of_mapped hm)),
    fun ha hm => (hwalks ha).trans (congrArg _ (State.seekUnlessMapped_of_not_mapped hm))⟩

/-! ### The bitmap with one frame taken -/

/-- The bits of the frames after one frame is taken (R76). -/
theorem State.bit_setBit_of_lt {s : State} (hfit : s.bitmapFits) {f g : Nat} (hf : f < s.nframes.toNat) (hg : g < s.nframes.toNat) :
    (s.setBit f).bit g = if g = f then true else s.bit g :=
  (BitWritten.setBit hfit hf).bits g (lt_of_lt_of_le hg s.frameCount_le_bits)

/-- Once the least free frame is taken, the next free frame is the least one. -/
theorem State.leastFree_setBit_iff {s : State} {f g : Nat} (hfit : s.bitmapFits) (hleast : s.leastFree f) :
    (s.setBit f).leastFree g ↔ f < g ∧ g < s.nframes.toNat ∧ s.bit g = false ∧ ∀ h, f < h → h < g → s.bit h = true := by
  obtain ⟨hexists, hfree, hbelow⟩ := hleast
  have hbits {h : Nat} (hh : h < s.nframes.toNat) := State.bit_setBit_of_lt hfit hexists hh
  constructor
  · rintro ⟨hg, hgfree, hgbelow⟩
    have hg : g < s.nframes.toNat := hg
    rw [hbits hg] at hgfree
    have hne : g ≠ f := by rintro rfl; simp at hgfree
    rw [if_neg hne] at hgfree
    have hlt : f < g := by
      by_contra hle
      exact absurd (hgfree.symm.trans (hbelow g (by omega))) (by decide)
    refine ⟨hlt, hg, hgfree, fun h hfh hhg => ?_⟩
    simpa only [hbits (hhg.trans hg), if_neg (show h ≠ f by omega)] using hgbelow h hhg
  · rintro ⟨hlt, hg, hgfree, hbetween⟩
    refine ⟨hg, (hbits hg).trans ((if_neg (by omega)).trans hgfree), fun h hhg => ?_⟩
    rw [hbits (hhg.trans hg)]
    split
    · rfl
    · next hne =>
      rcases lt_or_gt_of_ne hne with hlt' | hgt
      · exact hbelow h hlt'
      · exact hbetween h hgt hhg

/-- Once a frame is taken, no frame is free exactly where every other frame was in use. -/
theorem State.noFree_setBit_iff {s : State} {f : Nat} (hfit : s.bitmapFits) (hexists : f < s.nframes.toNat) :
    (s.setBit f).noFree ↔ ∀ g, g < s.nframes.toNat → g ≠ f → s.bit g = true := by
  refine forall_congr' fun g => forall_congr' fun hg => ?_
  rw [State.bit_setBit_of_lt hfit hexists hg]
  by_cases hne : g = f <;> simp [hne]

/-- Bit 0 of the bitmap word of the least free frame is 1 once that frame is taken: it is the frame's own bit or one below it (R77). -/
theorem State.wordOf_leastFree_present {s : State} {f : Nat} (hfit : s.bitmapFits) (hleast : s.leastFree f) :
    ((s.setBit f).mem.read32 (s.bitmapWordOf f)).getLsbD 0 = true := by
  obtain ⟨hexists, -, hbelow⟩ := hleast
  have hexists : f < s.frameCount := hexists
  have hfirst : 32 * (f / 32) < 32 * s.bmWords := by
    have := s.frameCount_le_bits
    omega
  have hbit := (BitWritten.setBit hfit hexists).bits (32 * (f / 32)) hfirst
  have hword : (s.setBit f).bit (32 * (f / 32)) = ((s.setBit f).mem.read32 (s.bitmapWordOf f)).getLsbD 0 :=
    (s.setBit f).bit_eq_word (i := f / 32) (j := 0) (by decide)
  rw [← hword, hbit]
  split
  · rfl
  · next hne => exact hbelow _ (by omega)

/-- Marking a frame whose bitmap word does not lie over the PDE leaves the PDE as it was. -/
theorem State.pdeValue_setBit_of_ne {s : State} {f : Nat} {va : Word} (hinv : s.Inv) (hne : s.bitmapWordOf f ≠ s.pdePlace va) :
    (s.setBit f).pdeValue va = s.pdeValue va :=
  Memory.read32_write32_of_ne _ _ _ _ (State.bitmapWordOf_aligned hinv.bmbase_aligned f)
    (State.pdePlace_aligned hinv.pdbr_aligned va) hne.symm

/-- Where marking a frame leaves the PDE absent, the bitmap word does not lie over it, so it is the PDE before (R100). -/
theorem State.pdeValue_setBit_of_absent {s : State} {f : Nat} {va : Word} (hinv : s.Inv) (hfit : s.bitmapFits) (hleast : s.leastFree f)
    (habsent : ((s.setBit f).pdeValue va).getLsbD 0 = false) : (s.setBit f).pdeValue va = s.pdeValue va := by
  refine State.pdeValue_setBit_of_ne hinv fun heq => ?_
  have hpresent := State.wordOf_leastFree_present hfit hleast
  rw [heq] at hpresent
  exact absurd (hpresent.symm.trans habsent) (by decide)

/-- An absent PDE makes the page unmapped (R48). -/
theorem State.not_mapped_of_absent {s : State} {va : Word} (habsent : (s.pdeValue va).getLsbD 0 = false) : ¬ s.mapped va :=
  fun ⟨hpresent, _⟩ => absurd (hpresent.symm.trans habsent) (by decide)

/-! ### The ends of PAGE.ALLOC -/

/-- Settles O43, in the order of the checks; at the roll-back the page is unmapped since its PDE is the one before the command. -/
theorem pageAllocFailsWithoutWriting : Obligations.PageAllocFailsWithoutWriting := by
  intro virt s hready
  obtain ⟨hmisaligned, hmapped, hseeks⟩ := exec_pageAlloc hready virt
  refine ⟨hmisaligned, hmapped, fun ha hm hbad => (hseeks ha hm).trans (congrArg _ (State.seekPage_of_bad_extent hbad virt)),
    fun ha hm hfit hno => (hseeks ha hm).trans (congrArg _ (State.seekPage_of_noFree hfit hno virt)),
    fun f hinv ha habsent hfit hleast hothers => ?rolledBack⟩
  have ⟨hexists, hfree, _⟩ := hleast
  have hm : ¬ s.mapped virt := State.not_mapped_of_absent <|
    (congrArg (·.getLsbD 0) (State.pdeValue_setBit_of_absent hinv hfit hleast habsent).symm).trans habsent
  have hno : (s.setBit f).noFree := (State.noFree_setBit_iff hfit hexists).mpr hothers
  have hended : s.allocPage virt f = ((((s.setBit f).clearBit f).setRes0 0#32).setRes1 0#32).finish .outOfPhys := by
    rw [State.allocPage, State.ensureTable_of_noFree (s := s.setBit f) habsent hfit hno]
  exact ⟨_, (hseeks ha hm).trans (congrArg _ ((State.seekPage_of_leastFree hfit hleast virt).trans hended)), rfl,
    State.sameBytes_clearBit_setBit hfree⟩

/-- Settles O44: `EnsureTable` answers the PDE of memory with the frame's bit set, and `SetPte` writes the PTE. -/
theorem pageAllocMapsTheLeastFreeFrame : Obligations.PageAllocMapsTheLeastFreeFrame := by
  intro virt s f hinv hready ha hm hfit hleast marked frame hpresent
  obtain ⟨-, -, hseeks⟩ := exec_pageAlloc hready virt
  have hended : s.allocPage virt f = (((marked.setPte (marked.pdeValue virt) virt frame).setRes0 frame).setRes1
      (marked.newPte (marked.pdeValue virt) virt frame)).finish .ok := by
    rw [State.allocPage, State.ensureTable_of_present (s := s.setBit f) hpresent]
    rfl
  refine ⟨⟨_, (hseeks ha hm).trans (congrArg _ ((State.seekPage_of_leastFree hfit hleast virt).trans hended)), rfl, ?written,
    fun a houtside => ?frame⟩, fun hpde hpte => ?unchanged⟩
  case written => exact Memory.read32_write32_same marked.mem (marked.ptePlace virt) (remapped (marked.pteValue virt) frame)
  case frame => exact State.readByte_memWrite32 (s := marked) houtside
  case unchanged =>
    have hpdeKept : marked.pdeValue virt = s.pdeValue virt := State.pdeValue_setBit_of_ne hinv hpde
    have hplaceKept : marked.ptePlace virt = s.ptePlace virt := congrArg (fun pde => ptePlaceIn (pde &&& 0xFFFFF000#32) virt) hpdeKept
    refine ⟨hpdeKept, hplaceKept, ?_⟩
    rw [State.pteValue, hplaceKept]
    exact Memory.read32_write32_of_ne _ _ _ _ (State.bitmapWordOf_aligned hinv.bmbase_aligned f) (s.ptePlace_aligned virt) hpte.symm

/-- Settles O45: as O40, with the data frame taken first. -/
theorem pageAllocCreatesTheTable : Obligations.PageAllocCreatesTheTable := by
  intro virt s f g hinv hready ha hfit hleast hfg hg hgfree hbetween marked frame table pde pt pte habsent
  have hkept := State.pdeValue_setBit_of_absent hinv hfit hleast habsent
  have hm : ¬ s.mapped virt := State.not_mapped_of_absent ((congrArg (·.getLsbD 0) hkept.symm).trans habsent)
  have hnext : marked.leastFree g := (State.leastFree_setBit_iff hfit hleast).mpr ⟨hfg, hg, hgfree, hbetween⟩
  have hg' := hinv.lt_maxFrames hg
  obtain ⟨-, -, hseeks⟩ := exec_pageAlloc hready virt
  obtain ⟨m, hset, hcreated⟩ := State.setPte_withTable (s := marked) hg' hinv.pdbr_aligned virt frame
  have hended : s.allocPage virt f = ((({ s with mem := m }.tlbRemove (vpnOf virt)).setRes0 frame).setRes1 pte).finish .ok := by
    rw [State.allocPage, State.ensureTable_of_leastFree (s := s.setBit f) habsent hfit hnext]
    show (((((marked.withTable virt g).setPte (remapped (marked.pdeValue virt) (frameAddr g)) virt frame)).setRes0 frame).setRes1
      ((marked.withTable virt g).newPte (remapped (marked.pdeValue virt) (frameAddr g)) virt frame)).finish .ok = _
    rw [hset, State.newPte_withTable (s := marked) hg' hinv.pdbr_aligned]
    rfl
  exact ⟨⟨_, (hseeks ha hm).trans (congrArg _ ((State.seekPage_of_leastFree hfit hleast virt).trans hended)), rfl,
    hcreated.pteStored, hcreated.pdeStored, hcreated.zeroed, hcreated.others⟩, hkept⟩

/-! ### Commands that ended OK -/

theorem State.outOfPhys_ne_ok (s : State) : statusResult (s.ended 1#32).status ≠ 0#4 :=
  ne_of_eq_of_ne (statusResult_withResult s.status .outOfPhys) (by decide)
theorem State.notPresent_ne_ok (s : State) : statusResult (s.ended 2#32).status ≠ 0#4 :=
  ne_of_eq_of_ne (statusResult_withResult s.status .notPresent) (by decide)
theorem State.alreadyMapped_ne_ok (s : State) : statusResult (s.ended 3#32).status ≠ 0#4 :=
  ne_of_eq_of_ne (statusResult_withResult s.status .alreadyMapped) (by decide)

theorem State.misaligned_ne_ok (s : State) (info word : Word) : statusResult (s.fatallyEnded 1#32 info word).status ≠ 0#4 := by
  rw [← State.raiseFatal_alignment]
  exact ne_of_eq_of_ne (statusResult_withFatal s.status .alignmentViolation) (by decide)
theorem State.invalid_ne_ok (s : State) (info word : Word) : statusResult (s.fatallyEnded 2#32 info word).status ≠ 0#4 := by
  rw [← State.raiseFatal_invalid]
  exact ne_of_eq_of_ne (statusResult_withFatal s.status .invalidOperation) (by decide)

/-- A command that ended OK did not end with another code. -/
theorem exec_ne_of_ok {i : Instr} {s t u : State} (ht : exec i s = .next t) (hok : statusResult t.status = 0#4)
    (hne : statusResult u.status ≠ 0#4) : exec i s ≠ .next u := by
  intro hu
  obtain rfl := Host.Outcome.next.inj (ht.symm.trans hu)
  exact hne hok

/-- UNMAP ends OK only on a mapped page (R99). -/
theorem mapped_of_unmap_ok {virt : Word} {s t : State} (hready : s.halted = false) (ht : exec (.unmap virt) s = .next t)
    (hok : statusResult t.status = 0#4) : virt.extractLsb' 0 12 = 0#12 ∧ s.mapped virt := by
  obtain ⟨hmisaligned, hstopped, -⟩ := unmapClearsPresent virt s hready
  have ha : virt.extractLsb' 0 12 = 0#12 :=
    by_contra fun ha => exec_ne_of_ok ht hok (s.misaligned_ne_ok _ _) (hmisaligned ha)
  exact ⟨ha, by_contra fun hm => exec_ne_of_ok ht hok (State.notPresent_ne_ok _) (hstopped ha hm)⟩

/-- MAP ends OK only with aligned operands, and where the table exists or is created in the least free frame (R98). -/
theorem map_ok_cases {phys virt : Word} {s t : State} (hready : s.halted = false) (ht : exec (.map phys virt) s = .next t)
    (hok : statusResult t.status = 0#4) :
    phys.extractLsb' 0 12 = 0#12 ∧ virt.extractLsb' 0 12 = 0#12 ∧ ((s.pdeValue virt).getLsbD 0 = true ∨
      ((s.pdeValue virt).getLsbD 0 = false ∧ s.bitmapFits ∧ ∃ f, s.leastFree f)) := by
  obtain ⟨hphys, hvirt, hextent, hfull⟩ := mapFailsWithoutWriting phys virt s hready
  have hp : phys.extractLsb' 0 12 = 0#12 := by_contra fun hp => exec_ne_of_ok ht hok (s.misaligned_ne_ok _ _) (hphys hp)
  have hv : virt.extractLsb' 0 12 = 0#12 := by_contra fun hv => exec_ne_of_ok ht hok (s.misaligned_ne_ok _ _) (hvirt hp hv)
  refine ⟨hp, hv, ?_⟩
  cases hpde : (s.pdeValue virt).getLsbD 0 with
  | true => exact .inl rfl
  | false =>
    have hfit : s.bitmapFits := by_contra fun hbad => exec_ne_of_ok ht hok (s.invalid_ne_ok _ _) (hextent hp hv hpde hbad)
    rcases s.firstFree_cases with ⟨f, -, hleast⟩ | ⟨-, hno⟩
    · exact .inr ⟨rfl, hfit, f, hleast⟩
    · exact absurd (hfull hp hv hpde hfit hno) (exec_ne_of_ok ht hok (State.outOfPhys_ne_ok _))

/-- PAGE.ALLOC ends OK only on an unmapped page for which there is a frame, and with it a table or a frame for one (R100). -/
theorem pageAlloc_ok_cases {virt : Word} {s t : State} (hinv : s.Inv) (hready : s.halted = false)
    (ht : exec (.pageAlloc virt) s = .next t) (hok : statusResult t.status = 0#4) :
    virt.extractLsb' 0 12 = 0#12 ∧ ¬ s.mapped virt ∧ s.bitmapFits ∧ ∃ f, s.leastFree f ∧
      (((s.setBit f).pdeValue virt).getLsbD 0 = true ∨
        (((s.setBit f).pdeValue virt).getLsbD 0 = false ∧ ∃ g, (s.setBit f).leastFree g)) := by
  obtain ⟨hmisaligned, hmapped, hextent, hfull, hrolledBack⟩ := pageAllocFailsWithoutWriting virt s hready
  have ha : virt.extractLsb' 0 12 = 0#12 :=
    by_contra fun ha => exec_ne_of_ok ht hok (s.misaligned_ne_ok _ _) (hmisaligned ha)
  have hm : ¬ s.mapped virt := fun hm => exec_ne_of_ok ht hok (State.alreadyMapped_ne_ok _) (hmapped ha hm)
  have hfit : s.bitmapFits := by_contra fun hbad => exec_ne_of_ok ht hok (s.invalid_ne_ok _ _) (hextent ha hm hbad)
  refine ⟨ha, hm, hfit, ?_⟩
  rcases s.firstFree_cases with ⟨f, -, hleast⟩ | ⟨-, hno⟩
  · refine ⟨f, hleast, ?_⟩
    cases hpde : ((s.setBit f).pdeValue virt).getLsbD 0 with
    | true => exact .inl rfl
    | false =>
      rcases (s.setBit f).firstFree_cases with ⟨g, -, hnext⟩ | ⟨-, hno⟩
      · exact .inr ⟨rfl, g, hnext⟩
      · obtain ⟨u, hu, hchanges, -⟩ := hrolledBack f hinv ha hpde hfit hleast ((State.noFree_setBit_iff hfit hleast.1).mp hno)
        rw [hchanges] at hu
        exact absurd hu (exec_ne_of_ok ht hok (State.outOfPhys_ne_ok _))
  · exact absurd (hfull ha hm hfit hno) (exec_ne_of_ok ht hok (State.outOfPhys_ne_ok _))

/-! ### Words and frames apart -/

/-- Two words at distinct multiples of 4 share no byte. -/
theorem not_inWord_of_ne {p q a : Word} (hp : p.extractLsb' 0 2 = 0#2) (hq : q.extractLsb' 0 2 = 0#2) (hne : q ≠ p)
    (ha : inWord q a) : ¬ inWord p a := by
  obtain ⟨h0, h1, h2, h3⟩ := aligned_words_disjoint q p hq hp hne a ha
  simp [inWord, h0, h1, h2, h3]

/-- Memories that agree outside the aligned word at `p` have every other aligned word in common. -/
theorem Memory.read32_of_outside {m m' : Memory} {p q : Word} (hp : p.extractLsb' 0 2 = 0#2) (hq : q.extractLsb' 0 2 = 0#2)
    (hne : q ≠ p) (h : ∀ a, ¬ inWord p a → m'.readByte a = m.readByte a) : m'.read32 q = m.read32 q := by
  have hbytes (a : Word) (ha : inWord q a) : m'.readByte a = m.readByte a := h a (not_inWord_of_ne hp hq hne ha)
  exact Memory.read32_congr (hbytes _ (.inl rfl)) (hbytes _ (.inr (.inl rfl))) (hbytes _ (.inr (.inr (.inl rfl))))
    (hbytes _ (.inr (.inr (.inr rfl))))

/-- A byte of another frame is no byte of the word. -/
theorem not_inWord_of_frame_ne {p a : Word} (hp : p.extractLsb' 0 2 = 0#2) (hne : a &&& 0xFFFFF000#32 ≠ p &&& 0xFFFFF000#32) :
    ¬ inWord p a := fun ha => hne (frame_of_inWord hp ha)

theorem State.ptePlace_frame (s : State) (va : Word) : s.ptePlace va &&& 0xFFFFF000#32 = s.pdeValue va &&& 0xFFFFF000#32 :=
  ptePlaceIn_frame (and_frameMask_aligned _) va

/-- A directory that is not its own page table for the page has the PDE and the PTE apart. -/
theorem State.pdePlace_ne_ptePlace {s : State} {va : Word} (hd : s.pdbr.extractLsb' 0 12 = 0#12)
    (htable : s.pdeValue va &&& 0xFFFFF000#32 ≠ s.pdbr) : s.pdePlace va ≠ s.ptePlace va := by
  intro heq
  have hframe := congrArg (· &&& 0xFFFFF000#32) heq
  simp only [State.pdePlace_frame hd, State.ptePlace_frame] at hframe
  exact htable hframe.symm

/-- The number of the frame that an address lies in (R76). -/
theorem frameIndex_of_frame {a : Word} {f : Nat} (hf : f < 1048576) (h : a &&& 0xFFFFF000#32 = frameAddr f) : (a >>> 12).toNat = f := by
  have hnat := congrArg BitVec.toNat h
  rw [and_frameMask_toNat, frameAddr_toNat hf] at hnat
  rw [BitVec.toNat_ushiftRight, Nat.shiftRight_eq_div_pow]
  omega

/-- An address whose frame is marked in use where it has a bit does not lie in a free frame. -/
theorem State.Inv.frame_ne_of_used {s : State} (hinv : s.Inv) {a : Word}
    (hused : (a >>> 12).toNat < s.nframes.toNat → s.bit (a >>> 12).toNat = true) {f : Nat} (hexists : f < s.nframes.toNat)
    (hfree : s.bit f = false) : a &&& 0xFFFFF000#32 ≠ frameAddr f := by
  intro hframe
  rw [frameIndex_of_frame (hinv.lt_maxFrames hexists) hframe] at hused
  exact absurd ((hused hexists).symm.trans hfree) (by decide)

/-! ### The translation of a page -/

/-- WALK and, with paging on, XLATE of `va` end with the code and the address (R96, R97). -/
def State.Translates (t : State) (va : Word) (code : BitVec 4) (pa : Word) : Prop :=
  (∃ u, exec (.walk va) t = .next u ∧ statusResult u.status = code ∧ u.res0 = pa) ∧
  (t.ctrl.getLsbD 0 = true → ∃ u, exec (.xlate va) t = .next u ∧ statusResult u.status = code ∧ u.res0 = pa)

/-- With no TLB entry for the page both commands read the tables: a mapped page. -/
theorem State.Translates.of_mapped {t : State} {va : Word} (hready : t.halted = false) (hmiss : t.tlb.lookup (vpnOf va) = none)
    (hm : t.mapped va) : t.Translates va 0#4 (physAddr (t.pteValue va) va) :=
  ⟨⟨_, (exec_walk hready va).trans (congrArg _ (State.endWalk_of_mapped hm _)), statusResult_withResult _ .ok, rfl⟩,
    fun hpaging => ⟨_, (exec_xlate_of_miss hready hpaging hmiss).trans (congrArg _ (State.endWalk_of_mapped hm _)),
      statusResult_withResult _ .ok, rfl⟩⟩

/-- With no TLB entry for the page both commands read the tables: an unmapped page. -/
theorem State.Translates.of_not_mapped {t : State} {va : Word} (hready : t.halted = false) (hmiss : t.tlb.lookup (vpnOf va) = none)
    (hm : ¬ t.mapped va) : t.Translates va 2#4 0#32 :=
  ⟨⟨_, (exec_walk hready va).trans (congrArg _ (State.endWalk_of_not_mapped hm _)), statusResult_withResult _ .notPresent, rfl⟩,
    fun hpaging => ⟨_, (exec_xlate_of_miss hready hpaging hmiss).trans (congrArg _ (State.endWalk_of_not_mapped hm _)),
      statusResult_withResult _ .notPresent, rfl⟩⟩

/-- The addresses of a page have its entries (R42). -/
theorem State.entries_of_page (t : State) {va virt : Word} (hpage : va &&& 0xFFFFF000#32 = virt) :
    t.pdeValue va = t.pdeValue virt ∧ t.pteValue va = t.pteValue virt := by
  obtain ⟨hdir, htbl, -⟩ := page_fields hpage
  simp only [State.pdeValue, State.pteValue, State.ptePlace, State.pdePlace, ptePlaceIn, hdir, htbl, and_self]

theorem State.mapped_of_page (t : State) {va virt : Word} (hpage : va &&& 0xFFFFF000#32 = virt) : t.mapped va ↔ t.mapped virt := by
  obtain ⟨hpde, hpte⟩ := t.entries_of_page hpage
  rw [State.mapped, State.mapped, hpde, hpte]

theorem vpnOf_of_page {va virt : Word} (hpage : va &&& 0xFFFFF000#32 = virt) : vpnOf va = vpnOf virt := (page_fields hpage).2.2

/-- The page of `virt` is mapped to `frame` (R48, R90). -/
def State.MapsTo (t : State) (virt frame : Word) : Prop := t.mapped virt ∧ t.pteValue virt &&& 0xFFFFF000#32 = frame

/-- The entries of a page, by the words of memory at their places. -/
theorem State.entries_of_words {t : State} {va pde : Word} (hpde : t.mem.read32 (t.pdePlace va) = pde) :
    t.pdeValue va = pde ∧ t.pteValue va = t.mem.read32 (ptePlaceIn (pde &&& 0xFFFFF000#32) va) := by
  subst hpde
  exact ⟨rfl, rfl⟩

/-- A page whose PTE, in the table that its PDE names, had P cleared is not mapped (R48, R99). -/
theorem State.not_mapped_of_cleared {t : State} {va pde e : Word} (hpde : t.mem.read32 (t.pdePlace va) = pde)
    (hpte : t.mem.read32 (ptePlaceIn (pde &&& 0xFFFFF000#32) va) = e &&& 0xFFFFFFFE#32) : ¬ t.mapped va := by
  rintro ⟨-, hpresent⟩
  rw [(State.entries_of_words hpde).2, hpte, clearPresent_absent] at hpresent
  exact absurd hpresent (by decide)

/-- A present PDE and, in its table, a PTE that was set to the frame (R92). -/
theorem State.MapsTo.of_words {t : State} {va pde old frame : Word} (hframe : frame.extractLsb' 0 12 = 0#12)
    (hpresent : pde.getLsbD 0 = true) (hpde : t.mem.read32 (t.pdePlace va) = pde)
    (hpte : t.mem.read32 (ptePlaceIn (pde &&& 0xFFFFF000#32) va) = remapped old frame) : t.MapsTo va frame := by
  obtain ⟨hpdeValue, hpteValue⟩ := State.entries_of_words hpde
  rw [hpte] at hpteValue
  rw [State.MapsTo, State.mapped, hpdeValue, hpteValue]
  exact ⟨⟨hpresent, remapped_present old frame⟩, remapped_frame old hframe⟩

/-- A new PDE and, in the table that it names, a PTE that was set to the frame (R91, R92). -/
theorem State.MapsTo.of_newTable {t : State} {va old old' frame : Word} {f : Nat} (hf : f < 1048576)
    (hframe : frame.extractLsb' 0 12 = 0#12) (hpde : t.mem.read32 (t.pdePlace va) = remapped old (frameAddr f))
    (hpte : t.mem.read32 (ptePlaceIn (frameAddr f) va) = remapped old' frame) : t.MapsTo va frame := by
  refine .of_words hframe (remapped_present old (frameAddr f)) hpde (old := old') ?_
  rw [remapped_frame old (frameAddr_aligned hf), hpte]

/-- `t` has the registers of `s` that say where directory and bitmap lie, and it is halted where `s` is. -/
structure State.SamePlaces (s t : State) : Prop where
  pdbr : t.pdbr = s.pdbr
  bmbase : t.bmbase = s.bmbase
  nframes : t.nframes = s.nframes
  halted : t.halted = s.halted

/-- A mapping command that ends OK changes none of these registers (R98 to R101). -/
theorem State.SamePlaces.of_mapping {s t : State} {v w : Word} {m : Memory} {tlb : Tlb}
    (h : t = { s with res0 := v, res1 := w, mem := m, tlb := tlb }.ended 0#32) : s.SamePlaces t := by
  subst h
  exact ⟨rfl, rfl, rfl, State.halted_finish { s with res0 := v, res1 := w, mem := m, tlb := tlb } .ok⟩

theorem State.SamePlaces.pdePlace {s t : State} (h : s.SamePlaces t) (va : Word) : t.pdePlace va = s.pdePlace va := by
  rw [State.pdePlace, State.pdePlace, h.pdbr]

/-- A table created in a free frame lies apart from the directory, whose frame is marked in use where it has a bit. -/
theorem State.Inv.newPte_ne_pdePlace {s : State} (hinv : s.Inv)
    (hdirectory : (s.pdbr >>> 12).toNat < s.nframes.toNat → s.bit (s.pdbr >>> 12).toNat = true) {f : Nat}
    (hexists : f < s.nframes.toNat) (hfree : s.bit f = false) (va : Word) : ptePlaceIn (frameAddr f) va ≠ s.pdePlace va := by
  intro heq
  have hframe := congrArg (· &&& 0xFFFFF000#32) heq
  simp only [State.pdePlace_frame hinv.pdbr_aligned, ptePlaceIn_frame (frameAddr_aligned (hinv.lt_maxFrames hexists))] at hframe
  refine hinv.frame_ne_of_used hdirectory hexists hfree ?_
  rw [and_frameMask_of_aligned hinv.pdbr_aligned, hframe]

/-- A page mapped through an existing table: the PTE lies apart from the PDE, so its write leaves the PDE alone (R98). -/
theorem mapsTo_of_map_existing {phys virt : Word} {s t : State} (hinv : s.Inv) (hready : s.halted = false)
    (hp : phys.extractLsb' 0 12 = 0#12) (hv : virt.extractLsb' 0 12 = 0#12) (hpresent : (s.pdeValue virt).getLsbD 0 = true)
    (htable : s.pdeValue virt &&& 0xFFFFF000#32 ≠ s.pdbr) (ht : exec (.map phys virt) s = .next t) :
    t.halted = false ∧ t.MapsTo virt phys := by
  obtain ⟨u, hu, hchanges, hpte, houtside⟩ := mapWritesThePteOfAnExistingTable phys virt s hready hp hv hpresent
  obtain rfl := Host.Outcome.next.inj (ht.symm.trans hu)
  have hne := State.pdePlace_ne_ptePlace hinv.pdbr_aligned htable
  have hpde : t.mem.read32 (t.pdePlace virt) = s.pdeValue virt := by
    rw [(State.SamePlaces.of_mapping hchanges).pdePlace]
    exact Memory.read32_of_outside (s.ptePlace_aligned virt) (State.pdePlace_aligned hinv.pdbr_aligned virt) hne houtside
  exact ⟨(State.SamePlaces.of_mapping hchanges).halted.trans hready, .of_words hp hpresent hpde hpte⟩

/-- A page mapped through a table created for it (R98). -/
theorem mapsTo_of_map_created {phys virt : Word} {s t : State} {f : Nat} (hinv : s.Inv) (hready : s.halted = false)
    (hdirectory : (s.pdbr >>> 12).toNat < s.nframes.toNat → s.bit (s.pdbr >>> 12).toNat = true)
    (hp : phys.extractLsb' 0 12 = 0#12) (hv : virt.extractLsb' 0 12 = 0#12) (habsent : (s.pdeValue virt).getLsbD 0 = false)
    (hfit : s.bitmapFits) (hleast : s.leastFree f) (ht : exec (.map phys virt) s = .next t) :
    t.halted = false ∧ t.MapsTo virt phys := by
  have ⟨hexists, hfree, _⟩ := hleast
  obtain ⟨u, hu, hchanges, hpte, hpde, -⟩ := mapCreatesTheTable phys virt s f hinv hready hp hv habsent hfit hleast
  obtain rfl := Host.Outcome.next.inj (ht.symm.trans hu)
  have hplace : t.pdePlace virt = s.pdePlace virt := (State.SamePlaces.of_mapping hchanges).pdePlace virt
  have hpde := hpde (hinv.newPte_ne_pdePlace hdirectory hexists hfree virt)
  rw [← hplace] at hpde
  exact ⟨(State.SamePlaces.of_mapping hchanges).halted.trans hready,
    .of_newTable (hinv.lt_maxFrames hexists) hp hpde hpte⟩

/-- Settles O47, by whether MAP found a table or created one; it left no TLB entry for the page (O50), so XLATE walks too. -/
theorem mapThenTranslateGivesTheFrame : Obligations.MapThenTranslateGivesTheFrame := by
  intro phys virt va s t hinv hready hdirectory htable ht hok hpage
  have hmaps : t.halted = false ∧ t.MapsTo virt phys := by
    obtain ⟨hp, hv, hpresent | ⟨habsent, hfit, f, hleast⟩⟩ := map_ok_cases hready ht hok
    · exact mapsTo_of_map_existing hinv hready hp hv hpresent (htable hpresent) ht
    · exact mapsTo_of_map_created hinv hready hdirectory hp hv habsent hfit hleast ht
  obtain ⟨hready', hm, hframe⟩ := hmaps
  have hmiss : t.tlb.lookup (vpnOf va) = none := by
    rw [vpnOf_of_page hpage]
    exact mappingCommandsDropThePagesEntry (.map phys virt) s t virt (.inl ⟨phys, rfl⟩) hready ht hok
  have htranslates := State.Translates.of_mapped hready' hmiss ((t.mapped_of_page hpage).mpr hm)
  obtain ⟨-, hpte⟩ := t.entries_of_page hpage
  rw [physAddr, hpte, frameOf, frameMask, hframe] at htranslates
  exact htranslates

/-- After UNMAP ends OK the page is not mapped: where the PTE is the PDE that entry is absent now, and elsewhere the PDE still leads to the
PTE (R99). -/
theorem not_mapped_of_unmap_ok {virt : Word} {s t : State} (hinv : s.Inv) (hready : s.halted = false)
    (ht : exec (.unmap virt) s = .next t) (hok : statusResult t.status = 0#4) : t.halted = false ∧ ¬ t.mapped virt := by
  obtain ⟨ha, hm⟩ := mapped_of_unmap_ok hready ht hok
  obtain ⟨-, -, hunmaps⟩ := unmapClearsPresent virt s hready
  obtain ⟨u, hu, hchanges, hpte, houtside⟩ := hunmaps ha hm
  obtain rfl := Host.Outcome.next.inj (ht.symm.trans hu)
  refine ⟨(State.SamePlaces.of_mapping hchanges).halted.trans hready, ?_⟩
  have hplace : t.pdePlace virt = s.pdePlace virt := (State.SamePlaces.of_mapping hchanges).pdePlace virt
  by_cases hsame : s.pdePlace virt = s.ptePlace virt
  · refine State.not_mapped_of_absent ?_
    rw [State.pdeValue, hplace, hsame, hpte]
    exact clearPresent_absent _
  · have hpde : t.mem.read32 (t.pdePlace virt) = s.pdeValue virt := by
      rw [hplace]
      exact Memory.read32_of_outside (s.ptePlace_aligned virt) (State.pdePlace_aligned hinv.pdbr_aligned virt) hsame houtside
    exact State.not_mapped_of_cleared hpde hpte

/-- Settles O49: UNMAP left the page unmapped and no TLB entry for it (O50). -/
theorem unmappedPageIsNotPresent : Obligations.UnmappedPageIsNotPresent := by
  intro virt va s t hinv hready ht hok hpage
  obtain ⟨hready', hm⟩ := not_mapped_of_unmap_ok hinv hready ht hok
  have hmiss : t.tlb.lookup (vpnOf va) = none := by
    rw [vpnOf_of_page hpage]
    exact mappingCommandsDropThePagesEntry (.unmap virt) s t virt (.inr (.inl rfl)) hready ht hok
  exact State.Translates.of_not_mapped hready' hmiss (hm ∘ (t.mapped_of_page hpage).mp)

/-! ### The page round trip -/

/-- Frame bits read alike where the bytes of the bitmap do. -/
theorem State.bit_of_bytes {s t : State} (hfit : s.bitmapFits) (hbase : t.bmbase = s.bmbase)
    (hbytes : ∀ a, s.inBitmap a → t.mem.readByte a = s.mem.readByte a) {f : Nat} (hf : f < s.nframes.toNat) : t.bit f = s.bit f := by
  have hnat : (BitVec.ofNat 32 (s.bmbase.toNat + f / 8)).toNat = s.bmbase.toNat + f / 8 := by
    rw [BitVec.toNat_ofNat]
    omega
  rw [frameBitLiesInItsByte, frameBitLiesInItsByte, hbase, hbytes _ ⟨by omega, by omega⟩]

/-- The first byte of a frame's bitmap word lies in the bitmap. -/
theorem State.inBitmap_bitmapWordOf {s : State} (hfit : s.bitmapFits) {f : Nat} (hf : f < s.frameCount) :
    s.inBitmap (s.bitmapWordOf f) :=
  State.inBitmap_of_inWord hfit (lt_of_lt_of_le hf s.frameCount_le_bits) (.inl rfl)

/-- A frame's bitmap word is not the PDE where the bitmap's frames are not the directory's. -/
theorem State.bitmapWordOf_ne_pdePlace {s : State} (hd : s.pdbr.extractLsb' 0 12 = 0#12) (hfit : s.bitmapFits)
    (hapart : ∀ a, s.inBitmap a → a &&& 0xFFFFF000#32 ≠ s.pdbr) {f : Nat} (hf : f < s.frameCount) (va : Word) :
    s.bitmapWordOf f ≠ s.pdePlace va := by
  intro heq
  refine hapart _ (State.inBitmap_bitmapWordOf hfit hf) ?_
  rw [heq, State.pdePlace_frame hd]

/-- The page is mapped to frame `f`, the least one but for those in use, and the directory, the page's table and the bitmap lie in
different frames: what PAGE.ALLOC leaves under the premises of the page round trip (R102 (b)). -/
structure State.Allocated (t : State) (virt : Word) (f : Nat) : Prop where
  mapsTo : t.MapsTo virt (frameAddr f)
  fits : t.bitmapFits
  frameExists : f < t.nframes.toNat
  belowUsed : ∀ g, g < f → t.bit g = true
  tableApart : t.pdeValue virt &&& 0xFFFFF000#32 ≠ t.pdbr
  bitmapApart : ∀ a, t.inBitmap a → a &&& 0xFFFFF000#32 ≠ t.pdbr ∧ a &&& 0xFFFFF000#32 ≠ t.pdeValue virt &&& 0xFFFFF000#32

/-- The page is not mapped, its table exists, and `f` is the least free frame, so PAGE.ALLOC takes it (R100). -/
structure State.Allocatable (u : State) (virt : Word) (f : Nat) : Prop where
  notMapped : ¬ u.mapped virt
  fits : u.bitmapFits
  least : u.leastFree f
  tablePresent : ((u.setBit f).pdeValue virt).getLsbD 0 = true

theorem State.Allocatable.alloc {u : State} {virt : Word} {f : Nat} (h : u.Allocatable virt f) (hinv : u.Inv) (hready : u.halted = false)
    (ha : virt.extractLsb' 0 12 = 0#12) :
    ∃ w, exec (.pageAlloc virt) u = .next w ∧ statusResult w.status = 0#4 ∧ w.res0 = frameAddr f := by
  obtain ⟨⟨w, hw, hchanges, -⟩, -⟩ :=
    pageAllocMapsTheLeastFreeFrame virt u f hinv hready ha h.notMapped h.fits h.least h.tablePresent
  refine ⟨w, hw, ?_⟩
  rw [hchanges]
  exact ⟨statusResult_withResult _ .ok, rfl⟩

/-- PAGE.FREE of an allocated page clears the frame's bit and P: the frame is the least free one again, and the PDE still names the table,
since neither write touches it (R101). -/
theorem State.Allocated.free {t : State} {virt : Word} {f : Nat} (h : t.Allocated virt f) (hinv : t.Inv) (hready : t.halted = false)
    (ha : virt.extractLsb' 0 12 = 0#12) :
    ∃ u, exec (.pageFree virt) t = .next u ∧ u.halted = false ∧ statusResult u.status = 0#4 ∧ u.res0 = frameAddr f ∧
      u.Allocatable virt f := by
  obtain ⟨⟨hm, hframe⟩, hfit, hexists, hbelow, htable, hbitmap⟩ := h
  have hindex : (t.pteValue virt >>> 12).toNat = f := frameIndex_of_frame (hinv.lt_maxFrames hexists) hframe
  obtain ⟨-, -, -, -, hfrees⟩ := pageFreeUnmapsAndFrees virt t hready
  obtain ⟨u, hu, hchanges, hpte, houtside⟩ := hfrees ha hm (by rwa [hindex]) hfit
  rw [hindex] at houtside
  have hcleared := BitWritten.clearBit hfit hexists
  have hword := State.bitmapWordOf_ne_pdePlace hinv.pdbr_aligned hfit (fun a hin => (hbitmap a hin).1) hexists virt
  have hsame := State.SamePlaces.of_mapping hchanges
  have hpdeAligned := State.pdePlace_aligned hinv.pdbr_aligned virt
  have hpde : u.mem.read32 (u.pdePlace virt) = t.pdeValue virt := by
    rw [hsame.pdePlace]
    calc u.mem.read32 (t.pdePlace virt)
        = (t.clearBit f).mem.read32 (t.pdePlace virt) := Memory.read32_of_outside (t.ptePlace_aligned virt) hpdeAligned
          (State.pdePlace_ne_ptePlace hinv.pdbr_aligned htable) houtside
      _ = t.pdeValue virt := Memory.read32_of_outside (State.bitmapWordOf_aligned hinv.bmbase_aligned f) hpdeAligned hword.symm
          hcleared.outside
  have hbits {g : Nat} (hg : g < t.nframes.toNat) : u.bit g = if g = f then false else t.bit g := by
    refine (State.bit_of_bytes (s := t.clearBit f) hfit hsame.bmbase (fun a hin => houtside a ?_) hg).trans
      (hcleared.bits g (lt_of_lt_of_le hg t.frameCount_le_bits))
    refine not_inWord_of_frame_ne (t.ptePlace_aligned virt) ?_
    rw [State.ptePlace_frame]
    exact (hbitmap a hin).2
  refine ⟨u, hu, ?ready, ?ok, ?frame, ?notMapped, ?fits, ?least, ?tablePresent⟩
  case ready => exact hsame.halted.trans hready
  case ok => rw [hchanges]; exact statusResult_withResult _ .ok
  case frame => rw [hchanges]; exact hframe
  case notMapped => exact State.not_mapped_of_cleared hpde hpte
  case fits => rw [State.bitmapFits, hsame.bmbase, hsame.nframes]; exact hfit
  case least =>
    rw [State.leastFree, hsame.nframes]
    refine ⟨hexists, (hbits hexists).trans (if_pos rfl), fun g hg => ?_⟩
    rw [hbits (hg.trans hexists), if_neg hg.ne, hbelow g hg]
  case tablePresent =>
    have hword' : u.bitmapWordOf f ≠ u.pdePlace virt := by
      rw [hsame.pdePlace, State.bitmapWordOf, hsame.bmbase]
      exact hword
    rw [State.pdeValue_setBit_of_ne (exec_inv hinv hu) hword', (State.entries_of_words hpde).1]
    exact hm.1

/-- The premises of the page round trip on where directory, page table and bitmap lie (R102 (b), R124; log 19). -/
structure State.LiesApart (s : State) (virt : Word) : Prop where
  directoryUsed : (s.pdbr >>> 12).toNat < s.nframes.toNat → s.bit (s.pdbr >>> 12).toNat = true
  tableApart : (s.pdeValue virt).getLsbD 0 = true → s.pdeValue virt &&& 0xFFFFF000#32 ≠ s.pdbr
  bitmapUsed : ∀ a, s.inBitmap a → (a >>> 12).toNat < s.nframes.toNat → s.bit (a >>> 12).toNat = true
  bitmapNotDirectory : ∀ a, s.inBitmap a → a &&& 0xFFFFF000#32 ≠ s.pdbr
  bitmapNotTable : ∀ a, s.inBitmap a → (s.pdeValue virt).getLsbD 0 = true →
    a &&& 0xFFFFF000#32 ≠ s.pdeValue virt &&& 0xFFFFF000#32

/-- A state that PAGE.ALLOC left, by what it changed of the state before: the bits of the lower frames stay 1. -/
theorem State.Allocated.of_samePlaces {s t : State} {virt table : Word} {f : Nat} (hsame : s.SamePlaces t) (hfit : s.bitmapFits)
    (hexists : f < s.nframes.toNat) (hmaps : t.MapsTo virt (frameAddr f)) (hbelow : ∀ g, g < f → t.bit g = true)
    (htable : t.pdeValue virt &&& 0xFFFFF000#32 = table) (htableApart : table ≠ s.pdbr)
    (hbitmap : ∀ a, s.inBitmap a → a &&& 0xFFFFF000#32 ≠ s.pdbr ∧ a &&& 0xFFFFF000#32 ≠ table) : t.Allocated virt f where
  mapsTo := hmaps
  fits := by rw [State.bitmapFits, hsame.bmbase, hsame.nframes]; exact hfit
  frameExists := by rw [hsame.nframes]; exact hexists
  belowUsed := hbelow
  tableApart := by rw [htable, hsame.pdbr]; exact htableApart
  bitmapApart := by
    simp only [State.inBitmap, hsame.bmbase, hsame.nframes, hsame.pdbr, htable]
    exact hbitmap

/-- PAGE.ALLOC through an existing table leaves the page allocated (R100). -/
theorem allocated_of_existing {virt : Word} {s t : State} {f : Nat} (hinv : s.Inv) (hready : s.halted = false)
    (hapart : s.LiesApart virt) (ha : virt.extractLsb' 0 12 = 0#12) (hm : ¬ s.mapped virt) (hfit : s.bitmapFits) (hleast : s.leastFree f)
    (hpresent : ((s.setBit f).pdeValue virt).getLsbD 0 = true) (ht : exec (.pageAlloc virt) s = .next t) :
    t.halted = false ∧ t.res0 = frameAddr f ∧ t.Allocated virt f := by
  have ⟨hexists, _, hbelow⟩ := hleast
  have hkept : (s.setBit f).pdeValue virt = s.pdeValue virt := State.pdeValue_setBit_of_ne hinv
    (State.bitmapWordOf_ne_pdePlace hinv.pdbr_aligned hfit hapart.bitmapNotDirectory hexists virt)
  have hpresent' : (s.pdeValue virt).getLsbD 0 = true := (congrArg (·.getLsbD 0) hkept.symm).trans hpresent
  obtain ⟨⟨u, hu, hchanges, hpte, houtside⟩, -⟩ := pageAllocMapsTheLeastFreeFrame virt s f hinv hready ha hm hfit hleast hpresent
  obtain rfl := Host.Outcome.next.inj (ht.symm.trans hu)
  have hsame := State.SamePlaces.of_mapping hchanges
  have hpteAligned := (s.setBit f).ptePlace_aligned virt
  have htable : (s.setBit f).pdeValue virt &&& 0xFFFFF000#32 ≠ s.pdbr := by
    rw [hkept]
    exact hapart.tableApart hpresent'
  have hnotTable (a : Word) (hin : s.inBitmap a) : a &&& 0xFFFFF000#32 ≠ (s.setBit f).pdeValue virt &&& 0xFFFFF000#32 := by
    rw [hkept]
    exact hapart.bitmapNotTable a hin hpresent'
  have hpde : t.mem.read32 (t.pdePlace virt) = (s.setBit f).pdeValue virt := by
    rw [hsame.pdePlace]
    exact Memory.read32_of_outside hpteAligned (State.pdePlace_aligned hinv.pdbr_aligned virt)
      (State.pdePlace_ne_ptePlace (s := s.setBit f) hinv.pdbr_aligned htable) houtside
  have hbytes (a : Word) (hin : s.inBitmap a) : t.mem.readByte a = (s.setBit f).mem.readByte a :=
    houtside a (not_inWord_of_frame_ne hpteAligned (((s.setBit f).ptePlace_frame virt).symm ▸ hnotTable a hin))
  refine ⟨hsame.halted.trans hready, congrArg State.res0 hchanges, .of_samePlaces hsame hfit hexists
    (.of_words (frameAddr_aligned (hinv.lt_maxFrames hexists)) hpresent hpde hpte) (fun g hg => ?belowUsed)
    (congrArg (· &&& 0xFFFFF000#32) (State.entries_of_words hpde).1) htable
    fun a hin => ⟨hapart.bitmapNotDirectory a hin, hnotTable a hin⟩⟩
  case belowUsed =>
    have hg' := hg.trans hexists
    rw [State.bit_of_bytes (s := s.setBit f) hfit hsame.bmbase hbytes hg', State.bit_setBit_of_lt hfit hexists hg', if_neg hg.ne,
      hbelow g hg]

/-- PAGE.ALLOC that creates the table leaves the page allocated: the table's frame was free, so it is neither the directory's nor one of
the bitmap's (R100). -/
theorem allocated_of_created {virt : Word} {s t : State} {f g : Nat} (hinv : s.Inv) (hready : s.halted = false)
    (hapart : s.LiesApart virt) (ha : virt.extractLsb' 0 12 = 0#12) (hfit : s.bitmapFits) (hleast : s.leastFree f)
    (hnext : (s.setBit f).leastFree g) (habsent : ((s.setBit f).pdeValue virt).getLsbD 0 = false)
    (ht : exec (.pageAlloc virt) s = .next t) : t.halted = false ∧ t.res0 = frameAddr f ∧ t.Allocated virt f := by
  have ⟨hexists, _, hbelow⟩ := hleast
  obtain ⟨hfg, hg, hgfree, hbetween⟩ := (State.leastFree_setBit_iff hfit hleast).mp hnext
  obtain ⟨⟨u, hu, hchanges, hpte, hpde, -, hothers⟩, -⟩ :=
    pageAllocCreatesTheTable virt s f g hinv hready ha hfit hleast hfg hg hgfree hbetween habsent
  obtain rfl := Host.Outcome.next.inj (ht.symm.trans hu)
  have hsame := State.SamePlaces.of_mapping hchanges
  have hgmax := hinv.lt_maxFrames hg
  have hpde : t.mem.read32 (t.pdePlace virt) = remapped ((s.setBit f).pdeValue virt) (frameAddr g) := by
    rw [hsame.pdePlace]
    exact hpde (hinv.newPte_ne_pdePlace hapart.directoryUsed hg hgfree virt)
  have htable : t.pdeValue virt &&& 0xFFFFF000#32 = frameAddr g := by
    rw [(State.entries_of_words hpde).1, remapped_frame _ (frameAddr_aligned hgmax)]
  have htableApart : frameAddr g ≠ s.pdbr := by
    have hne := hinv.frame_ne_of_used hapart.directoryUsed hg hgfree
    rw [and_frameMask_of_aligned hinv.pdbr_aligned] at hne
    exact hne.symm
  have hbitmap (a : Word) (hin : s.inBitmap a) : a &&& 0xFFFFF000#32 ≠ s.pdbr ∧ a &&& 0xFFFFF000#32 ≠ frameAddr g :=
    ⟨hapart.bitmapNotDirectory a hin, hinv.frame_ne_of_used (hapart.bitmapUsed a hin) hg hgfree⟩
  have hbytes (a : Word) (hin : s.inBitmap a) : t.mem.readByte a = ((s.setBit f).setBit g).mem.readByte a := by
    obtain ⟨hdirectory, htable⟩ := hbitmap a hin
    refine hothers a (not_inWord_of_frame_ne (State.pdePlace_aligned hinv.pdbr_aligned virt) ?_) htable
    rw [State.pdePlace_frame hinv.pdbr_aligned]
    exact hdirectory
  refine ⟨hsame.halted.trans hready, congrArg State.res0 hchanges, .of_samePlaces hsame hfit hexists
    (.of_newTable hgmax (frameAddr_aligned (hinv.lt_maxFrames hexists)) hpde hpte) (fun h hh => ?belowUsed) htable htableApart hbitmap⟩
  case belowUsed =>
    have hh' := hh.trans hexists
    rw [State.bit_of_bytes (s := (s.setBit f).setBit g) hfit hsame.bmbase hbytes hh',
      State.bit_setBit_of_lt (s := s.setBit f) hfit hg hh', if_neg (hh.trans hfg).ne, State.bit_setBit_of_lt hfit hexists hh',
      if_neg hh.ne, hbelow h hh]

/-- Settles O48: PAGE.ALLOC leaves the page allocated, whether the table existed or not; PAGE.FREE then makes the frame the least free one
again and keeps the table, so PAGE.ALLOC takes that frame. -/
theorem pageRoundTripReusesTheFrame : Obligations.PageRoundTripReusesTheFrame := by
  intro virt s t hinv hready hdirectory htable hbitmap ht hok
  have hapart : s.LiesApart virt := ⟨hdirectory, htable, fun a hin => (hbitmap a hin).1, fun a hin => (hbitmap a hin).2.1,
    fun a hin => (hbitmap a hin).2.2⟩
  obtain ⟨ha, hm, hfit, f, hleast, hcases⟩ := pageAlloc_ok_cases hinv hready ht hok
  have hallocated : t.halted = false ∧ t.res0 = frameAddr f ∧ t.Allocated virt f := by
    rcases hcases with hpresent | ⟨habsent, g, hnext⟩
    · exact allocated_of_existing hinv hready hapart ha hm hfit hleast hpresent ht
    · exact allocated_of_created hinv hready hapart ha hfit hleast hnext habsent ht
  obtain ⟨hready', hframe, hpage⟩ := hallocated
  have hinv' := exec_inv hinv ht
  obtain ⟨u, hu, hready'', hok', hframe', halloc⟩ := hpage.free hinv' hready' ha
  obtain ⟨w, hw, hok'', hframe''⟩ := halloc.alloc (exec_inv hinv' hu) hready'' ha
  exact ⟨u, w, hu, hok', hframe'.trans hframe.symm, hw, hok'', hframe''.trans hframe.symm⟩

end Sys2Proof.Machine
end

section
/-! Proofs for spec/44_tlb_control.md: what INVLPG drops and keeps, O51. -/

namespace Sys2Proof.Machine

/-- Removing the entry of `va`'s page keeps the entries of all other pages, in their order, and every other part of the state (R28, R104). -/
theorem State.tlbRemove_vpnOf (s : State) (va : Word) :
    s.tlbRemove (vpnOf va) = { s with tlb := s.tlb.filter (fun e => e.vpn != va.extractLsb' 12 20) } := rfl

/-- Settles O51: INVLPG checks nothing, so in a ready block it removes the page's entry and ends OK. -/
theorem invlpgDropsOneEntry : Obligations.InvlpgDropsOneEntry := by
  intro va s hready
  rw [exec_invlpg_of_ready hready, State.finish_ok, State.tlbRemove_vpnOf]

end Sys2Proof.Machine
end

section
/-! Proofs for spec/60_exceptions.md: how a command halts a ready block, O58; what a halted block still does, O59; how it leaves the
halted state, O60. -/

namespace Sys2Proof.Machine

/-! ### Fatal faults -/

/-- The numbers of the fault causes as STATUS.CAUSE holds them (R24, R108). -/
theorem causeNumber_cases (cause : FaultCause) :
    (causeNumber cause).zeroExtend 32 = 1#32 ∨ (causeNumber cause).zeroExtend 32 = 2#32 ∨ (causeNumber cause).zeroExtend 32 = 3#32 := by
  cases cause with
  | alignmentViolation => exact .inl rfl
  | invalidOperation => exact .inr (.inl rfl)
  | illegalCommand => exact .inr (.inr rfl)

/-- Neither the effect of a command nor its `finish` writes STATUS.FATAL (R24). -/
theorem Effect.halted_finish {i : Instr} {s u : State} {code : ResultCode} (hu : Effect i s code u) :
    (u.finish code).halted = s.halted := by
  rw [State.halted_finish, State.halted, hu.keeps_record.1, State.halted]

/-- A command that halts a ready block ended in a fatal fault (R109). -/
theorem Ends.eq_raiseFatal {i : Instr} {s t : State} (ht : Ends i s t) (hready : s.halted = false) (hhalted : t.halted = true) :
    ∃ cause info, t = s.raiseFatal cause info i.word := by
  cases ht with
  | fatal cause info _ => exact ⟨cause, info, rfl⟩
  | finished hu => exact absurd (hu.halted_finish.symm.trans hhalted) (by simp [hready])

/-- Settles O58: the command ended in a fatal fault, which writes the fault's fields and nothing else. -/
theorem fatalFaultsArePrecise : Obligations.FatalFaultsArePrecise := by
  intro i s t hready ht hhalted
  rcases exec_cases ht with ⟨hbefore, -⟩ | ⟨-, hends⟩
  · exact absurd hbefore (by simp [hready])
  · obtain ⟨cause, info, rfl⟩ := hends.eq_raiseFatal hready hhalted
    exact ⟨_, info, causeNumber_cases cause, s.raiseFatal_eq cause info i.word⟩

/-! ### The halted state -/

/-- A halted block refuses every instruction but CR.RD (R110). -/
theorem exec_eq_self_of_halted {i : Instr} {s : State} (h : s.halted = true) (hi : ∀ n, i ≠ .crRd n) : exec i s = .next s := by
  unfold exec
  cases i with
  | crRd n => exact absurd rfl (hi n)
  | crWr n value =>
    simp only [execCrWr]
    split
    · exact runUnlessHalted_of_halted h _
    · exact runUnlessHalted_of_halted h _
  | _ => exact runUnlessHalted_of_halted h _

/-- Settles O59: a CR.RD that the decoder gives names a register that exists, so it is read; any other command, legal or illegal, meets
the halted guard. -/
theorem haltedBlockRefusesAllButCrRd : Obligations.HaltedBlockRefusesAllButCrRd := by
  intro c s h
  refine ⟨fun n hd => ?read, fun hother => ?refused⟩
  case read =>
    obtain ⟨hwf, -⟩ := decodedInstructionKeepsWordAndOperands c _ hd
    rw [runCommand_of_legal hd, exec_crRd_of_le (crNumberOk_iff.mp hwf), if_pos h]
    rfl
  case refused =>
    cases hd : decode c with
    | legal i => exact (runCommand_of_legal hd s).trans (exec_eq_self_of_halted h fun n hi => hother n (hi ▸ hd))
    | illegal why => exact (runCommand_of_illegal hd s).trans (runUnlessHalted_of_halted h _)

/-- What a halted block may do with a command: refuse it, or write RES0 (R110). -/
theorem runCommand_of_halted {c : Command} {s t : State} (h : s.halted = true) (ht : runCommand c s = .next t) :
    t = s ∨ ∃ v, t = s.setRes0 v := by
  obtain ⟨hread, hrefused⟩ := haltedBlockRefusesAllButCrRd c s h
  by_cases hd : ∃ n, decode c = .legal (.crRd n)
  · obtain ⟨n, hn⟩ := hd
    exact .inr ⟨_, Host.Outcome.next.inj (ht.symm.trans (hread n hn))⟩
  · exact .inl (Host.Outcome.next.inj (ht.symm.trans (hrefused (not_exists.mp hd))))

/-- STATUS and the record of the fault are as they were. -/
def State.SameRecord (s t : State) : Prop := t.status = s.status ∧ t.faultInfo = s.faultInfo ∧ t.faultCmd = s.faultCmd

/-- The block is halted by its STATUS alone (R110). -/
theorem State.SameRecord.halted {s t : State} (hrecord : s.SameRecord t) : t.halted = s.halted := congrArg statusFatal hrecord.1

/-- R110, R114: every host action but a reset keeps the record of a halted block. -/
theorem step_keeps_record_of_halted {s t : State} (h : s.halted = true) (ht : step s = .next t)
    (hreset : ∀ rest, s.inbox ≠ .reset :: rest) : s.SameRecord t := by
  match hin : s.inbox with
  | [] =>
    obtain rfl := Host.Outcome.next.inj ((step_of_inbox_nil hin).symm.trans ht)
    exact ⟨rfl, rfl, rfl⟩
  | .command c :: rest =>
    have hrun : runCommand c (s.accept rest) = .next t := (step_of_inbox_command hin).symm.trans ht
    rcases runCommand_of_halted (s := s.accept rest) h hrun with rfl | ⟨v, rfl⟩
    · exact ⟨rfl, rfl, rfl⟩
    · exact ⟨rfl, rfl, rfl⟩
  | .storeByte addr b :: rest =>
    obtain rfl := Host.Outcome.next.inj ((step_of_inbox_storeByte hin).symm.trans ht)
    exact ⟨rfl, rfl, rfl⟩
  | .reset :: rest => exact absurd hin (hreset rest)

/-- Settles O60: the record stays, and with it STATUS.FATAL. -/
theorem onlyResetLeavesTheHaltedState : Obligations.OnlyResetLeavesTheHaltedState := by
  intro s t h ht hreset
  have hrecord := step_keeps_record_of_halted h ht hreset
  exact ⟨hrecord.halted.trans h, hrecord⟩

end Sys2Proof.Machine
end

section
/-! Proofs for spec/70_reset_and_hazards.md: what the reset action sets and keeps, O7. -/

namespace Sys2Proof.Machine

@[simp] theorem State.applyReset_mem (s : State) : s.applyReset.mem = s.mem := rfl

/-- Settles O7: a reset step is `applyReset`, which gives each register the value it has in the reset state (O8) and keeps memory. -/
theorem resetClearsRegistersAndKeepsMemory : Obligations.ResetClearsRegistersAndKeepsMemory := by
  intro s rest h
  obtain ⟨hres0, hres1, hctrl, hpdbr, hbmbase, hnframes, hstatus, hinfo, hcmd, htlb, hhalted, -⟩ :=
    resetStateHoldsTheResetValues
  exact ⟨_, step_of_inbox_reset h, hres0, hres1, hctrl, hpdbr, hbmbase, hnframes, hstatus, hinfo, hcmd, htlb, hhalted,
    State.applyReset_mem _⟩

end Sys2Proof.Machine
end
